-- ==== Sys2Proof/Word.lean ====
section
/-! DEFINITION. The word types of the LAP filter/analyzer block (spec 00_scope R6, 30_encoding R80, R84). -/

namespace Sys2Proof

/-- A 32-bit word: a command word, a data word, a result, a control register (R6, R33, R80). -/
abbrev Word := BitVec 32

/-- An 8-bit stream id as it stands in a command word or in a node's `SRC` field (R84). -/
abbrev Sid := BitVec 8

/-- A 24-bit word address of the sample buffer as it stands in an A-format command word (R81). -/
abbrev Addr := BitVec 24

end Sys2Proof
end

