-- ==== Sys2Proof/Machine/Float.lean ====
section
/-! DEFINITION. The binary32 and binary64 number formats and their one rounding mode, round to nearest with ties to even
(spec 00_scope R7, R9; 47_numeric_laws R228 to R230). Values are exact rationals; a binary32 result is a pattern, a
binary64 result is a value, since no binary64 pattern is ever stored or delivered (10_state R50). -/

namespace Sys2Proof.Machine

/-- The rational `m * 2^e`. -/
def scale2 (m e : Int) : ℚ :=
  if 0 ≤ e then ((m * 2 ^ e.toNat : Int) : ℚ) else mkRat m (2 ^ (-e).toNat)

/-- The exponent field of a binary32 pattern (R9). -/
def expField32 (w : Word) : Nat := (w.extractLsb' 23 8).toNat

/-- The fraction field of a binary32 pattern (R9). -/
def fracField32 (w : Word) : Nat := (w.extractLsb' 0 23).toNat

/-- `isfinite32`: the exponent field is not 255 (R9). -/
def isFinite32 (w : Word) : Bool := expField32 w != 255

/-- A binary32 pattern that is an infinity (R9). -/
def isInf32 (w : Word) : Bool := expField32 w == 255 && fracField32 w == 0

/-- `val32`: the value of a finite binary32 pattern (R9); both zeros have value 0, subnormals are ordinary (R202). -/
def val32 (w : Word) : ℚ :=
  let e := expField32 w
  let m : Nat := if e = 0 then fracField32 w else 2 ^ 23 + fracField32 w
  scale2 (if w.getLsbD 31 then -(m : Int) else m) ((if e = 0 then 1 else (e : Int)) - 150)

/-- `val64`: the value of a finite binary64 pattern (R9). -/
def val64 (w : BitVec 64) : ℚ :=
  let e := (w.extractLsb' 52 11).toNat
  let f := (w.extractLsb' 0 52).toNat
  let m : Nat := if e = 0 then f else 2 ^ 52 + f
  scale2 (if w.getLsbD 63 then -(m : Int) else m) ((if e = 0 then 1 else (e : Int)) - 1075)

/-- The natural number nearest to `n / d`, ties to the even one (R9). -/
def rne (n d : Nat) : Nat :=
  let q := n / d
  let r := n % d
  if 2 * r < d then q else if d < 2 * r then q + 1 else q + q % 2

/-- The largest `k` with `2^k <= n / d`, for positive `n` and `d`. -/
def floorLog2 (n d : Nat) : Int :=
  let k : Int := (Nat.log2 n : Int) - Nat.log2 d
  let reached : Bool :=
    if 0 ≤ k then decide (d * 2 ^ k.toNat ≤ n) else decide (d ≤ n * 2 ^ (-k).toNat)
  if reached then k else k - 1

/-- The significand and the exponent of the unit in which `abs(q)` is rounded, with `prec` bits of significand and no unit
below `2^emin`: the rounded magnitude is `significand * 2^exponent` (R9). -/
def quantise (prec : Nat) (emin : Int) (q : ℚ) : Nat × Int :=
  let n := q.num.natAbs
  let d := q.den
  if n = 0 then (0, emin)
  else
    let u := max (floorLog2 n d - ((prec : Int) - 1)) emin
    (if 0 ≤ u then rne n (d * 2 ^ u.toNat) else rne (n * 2 ^ (-u).toNat) d, u)

/-- `bits32(fl32(q))`: the pattern of the binary32 value nearest `q`, ties to even, overflow to an infinity; the sign is
that of `q`, and an exact zero is `+0` (R9, R229 (g)). -/
def fl32 (q : ℚ) : Word :=
  let mu := quantise 24 (-149) q
  let mag := (mu.2 + 149).toNat * 2 ^ 23 + mu.1
  let clipped := if 0x7F800000 ≤ mag then 0x7F800000 else mag
  BitVec.ofNat 32 (clipped + if q.num < 0 then 2 ^ 31 else 0)

/-- `fl64(q)`: the binary64 value nearest `q`, ties to even (R9); no operand of the block comes near the overflow
threshold (R121), so the exponent is unbounded above. -/
def fl64 (q : ℚ) : ℚ :=
  let mu := quantise 53 (-1074) q
  scale2 (if q.num < 0 then -(mu.1 : Int) else mu.1) mu.2

/-- `trunc(q)`: the fractional part removed, toward zero (R7). -/
def trunc (q : ℚ) : Int := q.num.tdiv q.den

end Sys2Proof.Machine
end

