-- ==== Sys2Proof/Config.lean ====
section
/-! DEFINITION. The implementation parameters of the block (spec 00_scope R5) and the values the spec leaves open, each an
uninterpreted constant (10_state R53; 93_implementation_defined U1 to U5). The fixed counts of R5 stand in the types of Machine/State.lean:
`NNODE` = 16 slots, `NXIN` = 8 ports, `CMAX` = 8 channels, `WIDTH_MAX` = 15. -/

namespace Sys2Proof.Config

/-- `SMAX` = 2^23 - 1, the bound of the sample domain (R5). -/
def smax : Int := 8388607

/-- `SR_RESET`, the reset value of `SPA_R` (R5, R38). -/
def srReset : Word := 44100

/-- `BITDEPTH`, the bit depth of the source file format, which no rule of the block reads (R5). -/
def bitDepth : Nat := 16

/-- `QDEPTH`, the capacity of each tee side queue and each deinterleaver channel queue: an integer of at least 1, or
infinity (R5, R110). -/
inductive QueueDepth where
  /-- A capacity of `below + 1` samples, which makes every finite capacity at least 1. -/
  | samples (below : Nat)
  /-- No limit. -/
  | unbounded
deriving DecidableEq, Repr, Inhabited

/-- The last word address of `BUF`: `BUFDEPTH - 1`, so that 1 <= BUFDEPTH <= 2^24 (R5). Left open by the spec; see
notes/assumptions/2.md. -/
opaque bufLast : Fin (2 ^ 24)

/-- `QDEPTH` of the machine after reset (R5). Left open by the spec; see notes/assumptions/2.md. -/
opaque queueDepth : QueueDepth

/-- What the environment answers on an external port in a run whose sample sequence is not placed in the state: arguments
are the run, the port and the position in the sequence; `none` ends it (R30, R102, R273). See notes/assumptions/3.md. -/
opaque portAnswer : Nat → Nat → Nat → Option Word

/-- Which of the remaining points a `SPA.NEXT` delivers: the argument counts the deliveries, the answer is taken modulo
the number of points left (R181). See notes/assumptions/4.md. -/
opaque pickPoint : Nat → Nat

/-! ### The magnitude numerics `SPA_MAG` (44_spectral_analyzer R174, R175, R178) -/

/-- The real part of bin `b` of the unscaled discrete Fourier transform of a window (R174). -/
noncomputable def dftRe (w : List Int) (b : Nat) : ℝ :=
  ∑ n : Fin w.length, (w.get n : ℝ) * Real.cos (2 * Real.pi * b * n / w.length)

/-- The imaginary part of bin `b` of the unscaled discrete Fourier transform of a window (R174). -/
noncomputable def dftIm (w : List Int) (b : Nat) : ℝ :=
  ∑ n : Fin w.length, (w.get n : ℝ) * -Real.sin (2 * Real.pi * b * n / w.length)

/-- `MAG(w)[b]`, the exact magnitude `sqrt(re^2 + im^2)` (R175). -/
noncomputable def exactMag (w : List Int) (b : Nat) : ℝ :=
  Real.sqrt (dftRe w b ^ 2 + dftIm w b ^ 2)

/-- The sum of `abs(w[n])` over a window, the scale of the accuracy bound (R178 (c)). -/
def absSum (w : List Int) : Nat := (w.map Int.natAbs).sum

/-- A window `SPA_MAG` makes promises about: a power-of-two number of samples of the sample domain (R178), fewer than `2^24`,
since the window of time index `i` has at most `i` samples and `i < N <= BUFDEPTH <= 2^24` (R5, R36, R172, R226). Without that
bound no finite magnitude could meet a tolerance below 1; see notes/assumptions/5.md. -/
def IsWindow (w : List Int) : Prop :=
  (∃ k : Nat, w.length = 2 ^ k) ∧ w.length < 2 ^ 24 ∧ ∀ x ∈ w, -smax ≤ x ∧ x ≤ smax

/-- A magnitude pattern the block may deliver: finite, sign bit 0 (R42, R178 (b)). -/
def isMagnitude (m : Word) : Bool := Machine.isFinite32 m && !m.getLsbD 31

/-- An instance of the magnitude numerics with its tolerance `EPS_MAG`, and the three guarantees of R178: purity, since the
pattern is a function of the window and the bin alone; well-formedness; accuracy. -/
structure SpaMag where
  /-- `EPS_MAG` (R5). -/
  eps : ℝ
  /-- The binary32 pattern of the magnitude of a bin, in natural bin order. -/
  bin : List Int → Nat → Word
  eps_ge : (2 : ℝ) ^ (-24 : Int) ≤ eps
  finite_nonneg : ∀ w b, IsWindow w → b < w.length → isMagnitude (bin w b) = true
  accurate : ∀ w b, IsWindow w → b < w.length →
    |((Machine.val32 (bin w b) : ℚ) : ℝ) - exactMag w b| ≤ eps * absSum w

/-- The magnitude of a bin is at most the sum of the absolute values of the samples (R175). -/
theorem exactMag_le_absSum (w : List Int) (b : Nat) : exactMag w b ≤ absSum w := by
  have hs : ((absSum w : Nat) : ℝ) = ∑ n : Fin w.length, |(w.get n : ℝ)| := by
    rw [absSum, ← List.sum_ofFn, show (fun n : Fin w.length => |((w.get n : Int) : ℝ)|) =
      (fun x : Int => |(x : ℝ)|) ∘ w.get from rfl, ← List.map_ofFn, List.ofFn_get]
    induction w with
    | nil => simp
    | cons a t ih => simp_all [Nat.cast_natAbs]
  have hz : (⟨dftRe w b, dftIm w b⟩ : ℂ) =
      ∑ n : Fin w.length, ((w.get n : ℝ) : ℂ) * Complex.exp (((-(2 * Real.pi * b * n / w.length) : ℝ) : ℂ) * Complex.I) := by
    apply Complex.ext <;>
      simp [dftRe, dftIm, Complex.exp_ofReal_mul_I_re, Complex.exp_ofReal_mul_I_im, Complex.re_sum, Complex.im_sum,
        -Complex.ofReal_neg]
  have hn : exactMag w b = ‖(⟨dftRe w b, dftIm w b⟩ : ℂ)‖ := by
    rw [exactMag, Complex.norm_eq_sqrt_sq_add_sq]
  rw [hn, hz, hs]
  refine (norm_sum_le _ _).trans (Finset.sum_le_sum fun n _ => ?_)
  rw [norm_mul, Complex.norm_exp_ofReal_mul_I, mul_one, Complex.norm_real, Real.norm_eq_abs]

/-- The coarsest admissible instance: magnitude 0 everywhere, tolerance 1. It only shows that the guarantees can be met;
it stands in for an implementation nowhere unless `spaMagChoice` names none. -/
def SpaMag.coarse : SpaMag where
  eps := 1
  bin := fun _ _ => 0
  eps_ge := by norm_num
  finite_nonneg := fun _ _ _ _ => by decide
  accurate := fun w b _ _ => by
    have h0 : Machine.val32 (0 : Word) = 0 := by decide +kernel
    have h1 : (0 : ℝ) ≤ exactMag w b := Real.sqrt_nonneg _
    rw [h0, one_mul, Rat.cast_zero, zero_sub, abs_neg, abs_of_nonneg h1]
    exact exactMag_le_absSum w b

/-- The implementation's magnitude numerics, any instance that meets the guarantees of R178. Left open by the spec; see
notes/assumptions/5.md. -/
opaque spaMagChoice : Option SpaMag

/-- `SPA_MAG` and `EPS_MAG` of the machine (R5, R178). -/
def spaMag : SpaMag := spaMagChoice.getD SpaMag.coarse

end Sys2Proof.Config
end

