-- ==== Sys2Proof/Machine/State.lean ====
section
/-! DEFINITION. The state of the block (spec 10_state R20 to R53), the reasons a step can stop, and the state after reset
(R52, R270). State is plain data. Fields marked MODEL are not state of the block: they hold the host's and the environment's
side and the implementation parameters, which one deterministic step needs beside it (R53). -/

namespace Sys2Proof.Machine

open Sys2Proof.Config

/-! ### The node table (R21 to R29) -/

/-- The parameter `width` of a filter, 1 to 15 (R22). -/
abbrev Width := { w : Nat // 1 ≤ w ∧ w ≤ 15 }

/-- A channel count `C`, 1 to 8 (R26, R27). -/
abbrev Channels := { c : Nat // 1 ≤ c ∧ c ≤ 8 }

/-- The fields of an `LPF` or `HPF` node (R22, R23). -/
structure FilterNode where
  /-- `SRC`, the input stream. -/
  src : Sid
  /-- `WIDTH`. -/
  width : Width
  /-- `PREV`, a sample. -/
  prev : Int
deriving DecidableEq, Repr

/-- The fields of a `TEE` node (R25); a queue's head is the first element of its list. -/
structure TeeNode where
  /-- `SRC`, the origin. -/
  src : Sid
  /-- `QA`, what side A has still to deliver. -/
  qa : List Int
  /-- `QB`, what side B has still to deliver. -/
  qb : List Int
deriving DecidableEq, Repr

/-- The fields of a `DIL` node (R26); the queues from number `C` up do not exist and stay empty. -/
structure DilNode where
  /-- `SRC`, the interleaved input. -/
  src : Sid
  /-- `C`. -/
  c : Channels
  /-- `Q[0..C-1]`. -/
  q : Vector (List Int) 8
  /-- `DONE`. -/
  done : Bool
deriving DecidableEq, Repr

/-- The fields of an `ILV` node (R27). `BOUND[k]` and `SRC[k]` are one field: the SID of input `k` once it is bound. -/
structure IlvNode where
  /-- `C`. -/
  c : Channels
  /-- `SRC[k]` where `BOUND[k] = 1`, nothing where `BOUND[k] = 0`. -/
  src : Vector (Option Sid) 8
  /-- `F`, the frame buffer. -/
  f : Vector Int 8
  /-- `PH`, the index of the next element of the frame to emit. -/
  ph : BitVec 3
  /-- `FV`, whether the frame buffer holds a frame not yet fully emitted. -/
  fv : Bool
  /-- `DONE`. -/
  done : Bool
deriving DecidableEq, Repr

/-- A node slot: its `TYPE` and the fields that exist for that type (R21). -/
inductive Node where
  | free
  | lpf (x : FilterNode)
  | hpf (x : FilterNode)
  | tee (x : TeeNode)
  | dil (x : DilNode)
  | ilv (x : IlvNode)
deriving DecidableEq, Repr, Inhabited

/-! ### The environment behind the external ports (R30, R102, R273): MODEL -/

/-- How the sample sequence behind a port goes on after the words placed in the state. -/
inductive XTail where
  /-- The sequence is finite: the next answer is `None`. -/
  | ends
  /-- The rest is left open: answer `index` of the port's open sequence of run `run` comes next. -/
  | goesOn (run index : Nat)
deriving DecidableEq, Repr, Inhabited

/-- The part of `XS[p]` the block has not taken yet. -/
structure XSeq where
  /-- The words the environment delivers next, the next one first. -/
  words : List Word
  /-- What follows them. -/
  tail : XTail
deriving DecidableEq, Repr, Inhabited

/-- What a pull can touch: the node table, the end-of-stream latches and the sequences behind the ports (R29). -/
structure Streams where
  /-- `N[0..15]` (R21). -/
  nodes : Vector Node 16
  /-- `XEOS[0..7]` (R30). -/
  xeos : Vector Bool 8
  /-- MODEL: `XS[0..7]`, the rest of each sequence (R30). -/
  xs : Vector XSeq 8
deriving DecidableEq, Repr

/-! ### The control registers (R33 to R47) -/

/-- The fourteen control registers, in the order of their numbers (R33). -/
structure Regs where
  /-- 0x00 `STATUS` (R34). -/
  status : Word
  /-- 0x01 `ERRINFO` (R35). -/
  errinfo : Word
  /-- 0x02 `SPA_N` (R36). -/
  spaN : Word
  /-- 0x03 `SPA_W` (R37). -/
  spaW : Word
  /-- 0x04 `SPA_R` (R38). -/
  spaR : Word
  /-- 0x05 `SPA_NPTS` (R39). -/
  spaNpts : Word
  /-- 0x06 `PT_IDX` (R40). -/
  ptIdx : Word
  /-- 0x07 `PT_FREQ` (R41). -/
  ptFreq : Word
  /-- 0x08 `PT_MAG` (R42). -/
  ptMag : Word
  /-- 0x09 `AX_START` (R43). -/
  axStart : Word
  /-- 0x0A `AX_END` (R44). -/
  axEnd : Word
  /-- 0x0B `AX_STEP` (R45). -/
  axStep : Word
  /-- 0x0C `AX_COUNT` (R46). -/
  axCount : Word
  /-- 0x0D `AX_POS` (R47). -/
  axPos : Word
deriving DecidableEq, Repr

/-! ### The sample buffer and the point store (R48, R49) -/

/-- A word of the sample buffer that has been written: its word address and its sample. `BUF` is word-addressed and has
no byte view (R61), so this takes the place of a byte cell. -/
abbrev BufCell := Nat × Int

/-- `BUF`: the words written since the last hard reset, addresses strictly rising; an unlisted word has no value (R52,
R276). -/
abbrev Buffer := List BufCell

/-- The canonical form of the buffer: addresses strictly rising. No listed word equals what an unlisted one reads as,
because an unlisted word reads as nothing. -/
abbrev Buffer.wf (b : Buffer) : Prop := (b.map Prod.fst).Pairwise (· < ·)

/-- A SpectrumPoint `(idx, freq, mag)` (R49). -/
structure Point where
  /-- The window tag (R179). -/
  idx : Word
  /-- `frequency_hz`, a binary32 pattern (R177). -/
  freq : Word
  /-- `magnitude`, a binary32 pattern (R178). -/
  mag : Word
deriving DecidableEq, Repr

/-! ### The command port (R80, R82, R83, R270, R271) -/

/-- `ST`, the 2-bit status of a response (R82). -/
inductive RespStatus where
  | ok
  | ended
  | fault
  | refused
deriving DecidableEq, Repr

/-- The response to a transaction: `ST` and `RD` (R80, R82). -/
structure Response where
  st : RespStatus
  rd : Word
deriving DecidableEq, Repr

/-- What the host does to the block next: a transaction, or the hard reset input (R80, R270). -/
inductive HostInput where
  | command (cw wd : Word)
  | hardReset
deriving DecidableEq, Repr

/-- The OPEN implementation parameters the block was built with (R5). -/
structure Params where
  /-- `BUFDEPTH - 1`. -/
  bufLast : Fin (2 ^ 24)
  /-- `QDEPTH`. -/
  qdepth : QueueDepth
deriving DecidableEq, Repr

/-- The whole machine: the five parts of R20, the answer of the last transaction, and the MODEL fields. -/
structure State where
  /-- Node table, end-of-stream latches, and (MODEL) the sequences behind the ports (R20 (a), (b)). -/
  streams : Streams
  /-- The control registers (R20 (c)). -/
  regs : Regs
  /-- The sample buffer `BUF` (R20 (d)). -/
  buf : Buffer
  /-- The point store `PTS`, a multiset: the order of the list means nothing (R20 (e), R49). -/
  pts : List Point
  /-- The response to the last transaction, nothing before the first one after a hard reset (R82). -/
  resp : Option Response
  /-- MODEL: what the host presents next, the next input first (R66). -/
  port : List HostInput
  /-- MODEL: the implementation parameters, never written (R5). -/
  params : Params
  /-- MODEL: the sequences `XS[0..7]` the environment presents in the runs after the next resets (R273). -/
  laterRuns : List (Vector XSeq 8)
  /-- MODEL: how many resets there have been, the number of the current run (R273). -/
  run : Nat
  /-- MODEL: how many points have been delivered, the argument of the free choice of `SPA.NEXT` (R181). -/
  picks : Nat
deriving DecidableEq, Repr

/-- Why the machine stops. The block's own nine faults are no stops: they enter the fault state, which is a next state
(R245). -/
inductive Fault where
  /-- Raised by `BUF.RD` and `SPA.RUN` when they read a word of `BUF` that nothing has written since the last hard reset,
  which the spec puts outside itself and forbids a model to give a value (R276). Safe. -/
  | unwrittenBufWord (addr : Nat)
  /-- Raised by `NEXT` when a nested pull meets a source that is not live, or more nested pulls than there are node slots:
  `Pull` has no meaning there (R101), and no state a run reaches has such a source (R100). Safe. -/
  | deadSource
deriving DecidableEq, Repr

/-- Why the machine has no meaning for an instruction. -/
inductive Refusal where
  /-- Raised by an arm of `exec` whose instruction has no meaning yet; this model has no such arm. Safe. -/
  | notModelled (mnemonic : String)
deriving DecidableEq, Repr

/-! ### Reset values (R52, R270) -/

/-- The control registers after reset (R33, R52). -/
def Regs.reset : Regs where
  status := 0
  errinfo := 0
  spaN := 0
  spaW := 0
  spaR := srReset
  spaNpts := 0
  ptIdx := 0
  ptFreq := 0
  ptMag := 0
  axStart := 0
  axEnd := 0
  axStep := 0
  axCount := 0
  axPos := 0

/-- The sequences behind the ports in a run for which none are placed: all left open (R273). -/
def openPorts (run : Nat) : Vector XSeq 8 := Vector.replicate 8 ⟨[], .goesOn run 0⟩

/-- The node table and the latches after reset, with the sequences of the run that begins (R52, R273). -/
def Streams.reset (xs : Vector XSeq 8) : Streams where
  nodes := Vector.replicate 16 .free
  xeos := Vector.replicate 8 false
  xs := xs

/-- The machine right after the hard reset (R52, R270): every slot `FREE`, no register but `SPA_R` other than 0, the
point store empty, no word of `BUF` with a value; the parameters and the sequences behind the ports are left open. -/
def State.reset : State where
  streams := Streams.reset (openPorts 0)
  regs := Regs.reset
  buf := []
  pts := []
  resp := none
  port := []
  params := ⟨bufLast, queueDepth⟩
  laterRuns := []
  run := 0
  picks := 0

end Sys2Proof.Machine
end

