-- ==== Sys2Proof/Machine/Flags.lean ====
section
/-! DEFINITION. The status word. The block has no condition codes (spec 10_state R32); its only status bits are
`STATUS.FAULT` and `STATUS.ERR` (R34), and its only status output is the level `fault` (60_exceptions R249). -/

namespace Sys2Proof.Machine

/-- The nine faults of the block (R241). -/
inductive Cause where
  | cfgWidth
  | cfgWindow
  | cfgChannels
  | cfgBind
  | cfgAxis
  | emptyInput
  | illegalCmd
  | bufRange
  | queueOvf
deriving DecidableEq, Repr

/-- The 4-bit code of a fault (R241). -/
def Cause.code : Cause → BitVec 4
  | .cfgWidth => 1
  | .cfgWindow => 2
  | .cfgChannels => 3
  | .cfgBind => 4
  | .cfgAxis => 5
  | .emptyInput => 6
  | .illegalCmd => 7
  | .bufRange => 8
  | .queueOvf => 9

/-- `STATUS` after a fault: `FAULT = 1` in bit 0, `ERR` in bits 7:4, every other bit 0 (R34, R242, R245). -/
def statusOf (e : Cause) : Word := 1#32 ||| (e.code.zeroExtend 32 <<< 4)

/-- `STATUS.FAULT` (R34). -/
def statusFault (status : Word) : Bool := status.getLsbD 0

/-- `STATUS.ERR` (R34). -/
def statusErr (status : Word) : BitVec 4 := status.extractLsb' 4 4

/-- The block is in the fault state (R247); this is also the level of its output `fault` (R249). -/
def State.faulted (s : State) : Bool := statusFault s.regs.status

/-- The 2-bit code of a response status (R82). -/
def RespStatus.code : RespStatus → BitVec 2
  | .ok => 0
  | .ended => 1
  | .fault => 2
  | .refused => 3

end Sys2Proof.Machine
end

