-- ==== Sys2Proof/Syntax.lean ====
section
/-! DEFINITION. The sixteen commands of the opcode map (spec 30_encoding R86), one constructor per row of
spec/opcode_table.json, in the table's order. Each operand has exactly the width of its field (R81, R85), so every term
is the reading of a command word; the data word `wd` is an operand of the two commands that use it (R80). -/

namespace Sys2Proof

/-- A command of the block (R86). -/
inductive Instr where
  /-- `LPF.NEW node, src, width` (R122). -/
  | lpfNew (node : BitVec 4) (src : Sid) (imm : BitVec 8)
  /-- `HPF.NEW node, src, width` (R140). -/
  | hpfNew (node : BitVec 4) (src : Sid) (imm : BitVec 8)
  /-- `TEE.NEW node, src` (R105). -/
  | teeNew (node : BitVec 4) (src : Sid)
  /-- `DIL.NEW node, src, C` (R150). -/
  | dilNew (node : BitVec 4) (src : Sid) (imm : BitVec 8)
  /-- `ILV.NEW node, C` (R154). -/
  | ilvNew (node : BitVec 4) (imm : BitVec 8)
  /-- `ILV.BIND node[aux], src` (R155). -/
  | ilvBind (node : BitVec 4) (aux : BitVec 4) (src : Sid)
  /-- `NEXT sid` (R104). -/
  | next (sid : Sid)
  /-- `SPA.RUN` (R171). -/
  | spaRun
  /-- `SPA.NEXT` (R181). -/
  | spaNext
  /-- `AXIS.NEW` (R201). -/
  | axisNew
  /-- `AXIS.NEXT` (R203). -/
  | axisNext
  /-- `BUF.WR addr, data` (R216). -/
  | bufWr (addr : Addr) (wd : Word)
  /-- `BUF.RD addr` (R217). -/
  | bufRd (addr : Addr)
  /-- `REG.WR reg, data` (R218). -/
  | regWr (regno : BitVec 8) (wd : Word)
  /-- `REG.RD reg` (R219). -/
  | regRd (regno : BitVec 8)
  /-- `RESET` (R220). -/
  | reset
deriving DecidableEq, Repr

end Sys2Proof
end

