-- ==== Sys2Proof/WellFormed.lean ====
section
/-! DEFINITION. Which operand values a command may carry whatever the state is (spec 30_encoding R87: a word that decodes
to a row but has an out-of-range operand value is legal as an encoding and faults in the row's own rule). Encoding itself
needs no check, since every operand has exactly its field's width; these checks are the static part of each row's rule. -/

namespace Sys2Proof

/-- A stream id is well formed: `X = 0`, or `X = 1` and `SN = 0` (R84). -/
def Sid.formed (sid : Sid) : Bool :=
  !sid.getLsbD 7 || sid.extractLsb' 3 4 == 0

/-- A stream id may feed slot `node`: well formed, and an external port or a lower-numbered node (R100). -/
def Sid.mayFeed (node : BitVec 4) (sid : Sid) : Bool :=
  sid.formed && (sid.getLsbD 7 || decide ((sid.extractLsb' 3 4).toNat < node.toNat))

/-- A filter width the block accepts: 1 to `WIDTH_MAX` = 15 (R122, R140). -/
def widthInRange (imm : BitVec 8) : Bool := decide (1 ≤ imm.toNat ∧ imm.toNat ≤ 15)

/-- A channel count the block accepts: 1 to `CMAX` = 8 (R150, R154). -/
def channelsInRange (imm : BitVec 8) : Bool := decide (1 ≤ imm.toNat ∧ imm.toNat ≤ 8)

/-- A register number that exists: 0x00 to 0x0D (R33). -/
def regExists (regno : BitVec 8) : Bool := decide (regno.toNat ≤ 0x0D)

/-- A register number that `REG.WR` may write (R33, R218). -/
def regWritable (regno : BitVec 8) : Bool :=
  [0x02#8, 0x03#8, 0x04#8, 0x09#8, 0x0A#8, 0x0B#8].contains regno

/-- The static operand checks of a command: where one fails, the command faults in every state of a run in which
commands are accepted (R87). -/
def Instr.wellFormed : Instr → Bool
  | .lpfNew node src imm => widthInRange imm && src.mayFeed node
  | .hpfNew node src imm => widthInRange imm && src.mayFeed node
  | .teeNew node src => src.mayFeed node
  | .dilNew node src imm => channelsInRange imm && src.mayFeed node
  | .ilvNew _ imm => channelsInRange imm
  | .ilvBind node aux src => decide (aux.toNat < 8) && src.mayFeed node
  | .next sid => sid.formed
  | .spaRun => true
  | .spaNext => true
  | .axisNew => true
  | .axisNext => true
  | .bufWr _ _ => true
  | .bufRd _ => true
  | .regWr regno _ => regWritable regno
  | .regRd regno => regExists regno
  | .reset => true

end Sys2Proof
end

