-- ==== Sys2Proof/Decode.lean ====
section
/-! DEFINITION. Decoding and encoding of command words (spec 30_encoding R81, R83, R86, R87). -/

namespace Sys2Proof

/-- Why a command word matches no row of the opcode map (R87). -/
inductive DecodeError where
  /-- `CW[31:24]` is none of the sixteen opcodes. -/
  | unknownOpcode (op : BitVec 8)
  /-- The opcode is listed, and a field that must be zero is not. -/
  | nonzeroField (mnemonic : String)
deriving DecidableEq, Repr

/-- `OP = CW[31:24]` (R81). -/
def cwOp (cw : Word) : BitVec 8 := cw.extractLsb' 24 8
/-- `NODE = CW[23:20]` (R81). -/
def cwNode (cw : Word) : BitVec 4 := cw.extractLsb' 20 4
/-- `AUX = CW[19:16]` (R81). -/
def cwAux (cw : Word) : BitVec 4 := cw.extractLsb' 16 4
/-- `SRC` or `SID` = `CW[15:8]` (R81). -/
def cwSrc (cw : Word) : Sid := cw.extractLsb' 8 8
/-- `IMM` or `REGNO` = `CW[7:0]` (R81). -/
def cwImm (cw : Word) : BitVec 8 := cw.extractLsb' 0 8
/-- `ADDR = CW[23:0]` (R81). -/
def cwAddr (cw : Word) : Addr := cw.extractLsb' 0 24

/-- Accept a word whose must-be-zero fields are zero, reject it by the row's name otherwise (R81, R87). -/
def whenZero (mnemonic : String) (zero : Bool) (i : Instr) : Except DecodeError Instr :=
  if zero then .ok i else .error (.nonzeroField mnemonic)

/-- The command a transaction asks for: the row of the opcode map its command word matches, with the row's operands; the
data word is read only by `BUF.WR` and `REG.WR` (R80, R83, R86). -/
def decode (cw wd : Word) : Except DecodeError Instr :=
  let node := cwNode cw
  let src := cwSrc cw
  let imm := cwImm cw
  match (cwOp cw).toNat with
  | 0x01 => whenZero "LPF.NEW" (cwAux cw == 0) (.lpfNew node src imm)
  | 0x02 => whenZero "HPF.NEW" (cwAux cw == 0) (.hpfNew node src imm)
  | 0x03 => whenZero "TEE.NEW" (cwAux cw == 0 && imm == 0) (.teeNew node src)
  | 0x04 => whenZero "DIL.NEW" (cwAux cw == 0) (.dilNew node src imm)
  | 0x05 => whenZero "ILV.NEW" (cwAux cw == 0 && src == 0) (.ilvNew node imm)
  | 0x06 => whenZero "ILV.BIND" (imm == 0) (.ilvBind node (cwAux cw) src)
  | 0x08 => whenZero "NEXT" (node == 0 && cwAux cw == 0 && imm == 0) (.next src)
  | 0x10 => whenZero "SPA.RUN" (cwAddr cw == 0) .spaRun
  | 0x11 => whenZero "SPA.NEXT" (cwAddr cw == 0) .spaNext
  | 0x12 => whenZero "AXIS.NEW" (cwAddr cw == 0) .axisNew
  | 0x13 => whenZero "AXIS.NEXT" (cwAddr cw == 0) .axisNext
  | 0x18 => .ok (.bufWr (cwAddr cw) wd)
  | 0x19 => .ok (.bufRd (cwAddr cw))
  | 0x20 => whenZero "REG.WR" (node == 0 && cwAux cw == 0 && src == 0) (.regWr imm wd)
  | 0x21 => whenZero "REG.RD" (node == 0 && cwAux cw == 0 && src == 0) (.regRd imm)
  | 0x3F => whenZero "RESET" (cwAddr cw == 0) .reset
  | _ => .error (.unknownOpcode (cwOp cw))

/-- A command word of format N or S from its five fields (R81). -/
def packN (op : BitVec 8) (node aux : BitVec 4) (src imm : BitVec 8) : Word :=
  op ++ node ++ aux ++ src ++ imm

/-- A command word of format A, or of format Z when the address field is zero (R81). -/
def packA (op : BitVec 8) (addr : Addr) : Word := op ++ addr

/-- The command word and the data word of a command (R81, R86); a command that ignores the data word gets zero. -/
def encode : Instr → Word × Word
  | .lpfNew node src imm => (packN 0x01 node 0 src imm, 0)
  | .hpfNew node src imm => (packN 0x02 node 0 src imm, 0)
  | .teeNew node src => (packN 0x03 node 0 src 0, 0)
  | .dilNew node src imm => (packN 0x04 node 0 src imm, 0)
  | .ilvNew node imm => (packN 0x05 node 0 0 imm, 0)
  | .ilvBind node aux src => (packN 0x06 node aux src 0, 0)
  | .next sid => (packN 0x08 0 0 sid 0, 0)
  | .spaRun => (packA 0x10 0, 0)
  | .spaNext => (packA 0x11 0, 0)
  | .axisNew => (packA 0x12 0, 0)
  | .axisNext => (packA 0x13 0, 0)
  | .bufWr addr wd => (packA 0x18 addr, wd)
  | .bufRd addr => (packA 0x19 addr, 0)
  | .regWr regno wd => (packN 0x20 0 0 0 regno, wd)
  | .regRd regno => (packN 0x21 0 0 0 regno, 0)
  | .reset => (packA 0x3F 0, 0)

/-- `CW`, the command word of a command, as `ERRINFO` records it when the command faults (R242). -/
def cwOf (i : Instr) : Word := (encode i).1

/-- A row of the opcode map as R86 prints it: mnemonic, `match` and `mask` on `CW`. -/
structure Row where
  mnemonic : String
  value : Word
  mask : Word
deriving DecidableEq, Repr

/-- The opcode map as R86 prints it. The decoder above is written from the formats of R81; this list is the second,
independent form of the same map, and the two are related by statements and laws. -/
def opcodeMap : List Row :=
  [⟨"LPF.NEW", 0x01000000, 0xFF0F0000⟩, ⟨"HPF.NEW", 0x02000000, 0xFF0F0000⟩,
   ⟨"TEE.NEW", 0x03000000, 0xFF0F00FF⟩, ⟨"DIL.NEW", 0x04000000, 0xFF0F0000⟩,
   ⟨"ILV.NEW", 0x05000000, 0xFF0FFF00⟩, ⟨"ILV.BIND", 0x06000000, 0xFF0000FF⟩,
   ⟨"NEXT", 0x08000000, 0xFFFF00FF⟩, ⟨"SPA.RUN", 0x10000000, 0xFFFFFFFF⟩] ++
  [⟨"SPA.NEXT", 0x11000000, 0xFFFFFFFF⟩, ⟨"AXIS.NEW", 0x12000000, 0xFFFFFFFF⟩,
   ⟨"AXIS.NEXT", 0x13000000, 0xFFFFFFFF⟩, ⟨"BUF.WR", 0x18000000, 0xFF000000⟩,
   ⟨"BUF.RD", 0x19000000, 0xFF000000⟩, ⟨"REG.WR", 0x20000000, 0xFFFFFF00⟩,
   ⟨"REG.RD", 0x21000000, 0xFFFFFF00⟩, ⟨"RESET", 0x3F000000, 0xFFFFFFFF⟩]

/-- A command word matches a row: `CW & mask = match` (R83). -/
def Row.matches (r : Row) (cw : Word) : Bool := (cw &&& r.mask) == r.value

/-- The mnemonic of a command's row (R86). -/
def Instr.mnemonic : Instr → String
  | .lpfNew _ _ _ => "LPF.NEW"
  | .hpfNew _ _ _ => "HPF.NEW"
  | .teeNew _ _ => "TEE.NEW"
  | .dilNew _ _ _ => "DIL.NEW"
  | .ilvNew _ _ => "ILV.NEW"
  | .ilvBind _ _ _ => "ILV.BIND"
  | .next _ => "NEXT"
  | .spaRun => "SPA.RUN"
  | .spaNext => "SPA.NEXT"
  | .axisNew => "AXIS.NEW"
  | .axisNext => "AXIS.NEXT"
  | .bufWr _ _ => "BUF.WR"
  | .bufRd _ => "BUF.RD"
  | .regWr _ _ => "REG.WR"
  | .regRd _ => "REG.RD"
  | .reset => "RESET"

/-- The two words of a transaction from one number: the command word is its low 32 bits, the data word the next 32
(the numbering of the opcode table; there is no byte order to apply, R61). -/
def wordsOf (nbits w : Nat) : Word × Word :=
  let v := w % 2 ^ nbits
  (BitVec.ofNat 32 v, BitVec.ofNat 32 (v / 2 ^ 32))

/-- The command this decoder reads from a transaction whose bits are `w`, every bit from `nbits` up being zero. -/
def decodeTableWord (nbits w : Nat) : Option Instr :=
  match decode (wordsOf nbits w).1 (wordsOf nbits w).2 with
  | .ok i => some i
  | .error _ => none

end Sys2Proof
end

