-- ==== Sys2Proof/Machine/Operands.lean ====
section
/-! DEFINITION. Operand forms: saturation and the conversions at the port (spec 00_scope R6, R8; 30_encoding R85), stream ids
(R84), slots, widths and channel counts (R122, R150), register numbers (R33). -/

namespace Sys2Proof.Machine

open Sys2Proof.Config

/-- `sat24(z)`: clamp to the sample domain (R8). -/
def sat24 (z : Int) : Int := if z < -smax then -smax else if smax < z then smax else z

/-- `sext_32(d)`: the word as a two's-complement integer (R6, R85). -/
def sext32 (d : Word) : Int := d.toInt

/-- `to32(z)`: the two's-complement word of an integer (R6, R85). -/
def to32 (z : Int) : Word := BitVec.ofInt 32 z

/-- The node slot a 4-bit field names (R81). -/
def slotOf (node : BitVec 4) : Fin 16 := node.toFin

/-- `X = SID[7]`: the stream is an external port (R84). -/
def sidIsPort (sid : Sid) : Bool := sid.getLsbD 7

/-- `SN = SID[6:3]`: the node slot of a node's stream (R84). -/
def sidSlot (sid : Sid) : Fin 16 := (sid.extractLsb' 3 4).toFin

/-- `SP = SID[2:0]`: the output port of the node, or the external port (R84). -/
def sidPort (sid : Sid) : Fin 8 := (sid.extractLsb' 0 3).toFin

/-- A stream id is well formed: `X = 0`, or `X = 1` and `SN = 0` (R84). -/
def sidFormed (sid : Sid) : Bool := !sidIsPort sid || sidSlot sid == 0

/-- The filter width an `IMM` operand gives, if it is in range (R122, R140). -/
def widthOf (imm : BitVec 8) : Option Width :=
  if h : 1 ≤ imm.toNat ∧ imm.toNat ≤ 15 then some ⟨imm.toNat, h⟩ else none

/-- The channel count an `IMM` operand gives, if it is in range (R150, R154). -/
def channelsOf (imm : BitVec 8) : Option Channels :=
  if h : 1 ≤ imm.toNat ∧ imm.toNat ≤ 8 then some ⟨imm.toNat, h⟩ else none

/-- The name of a control register (R33). -/
inductive RegName where
  | status | errinfo | spaN | spaW | spaR | spaNpts | ptIdx | ptFreq | ptMag
  | axStart | axEnd | axStep | axCount | axPos
deriving DecidableEq, Repr

/-- The register a number names; 0x0E to 0xFF name none (R33). -/
def regOf (regno : BitVec 8) : Option RegName :=
  match regno.toNat with
  | 0x00 => some .status
  | 0x01 => some .errinfo
  | 0x02 => some .spaN
  | 0x03 => some .spaW
  | 0x04 => some .spaR
  | 0x05 => some .spaNpts
  | 0x06 => some .ptIdx
  | 0x07 => some .ptFreq
  | 0x08 => some .ptMag
  | 0x09 => some .axStart
  | 0x0A => some .axEnd
  | 0x0B => some .axStep
  | 0x0C => some .axCount
  | 0x0D => some .axPos
  | _ => none

/-- Whether `REG.WR` may write a register (R33, R218). -/
def RegName.writable : RegName → Bool
  | .spaN | .spaW | .spaR | .axStart | .axEnd | .axStep => true
  | .status | .errinfo | .spaNpts | .ptIdx | .ptFreq | .ptMag | .axCount | .axPos => false

/-- Whether a register is an axis operand, whose writing ends the current axis (R43, R204). -/
def RegName.isAxisOperand : RegName → Bool
  | .axStart | .axEnd | .axStep => true
  | .status | .errinfo | .spaN | .spaW | .spaR | .spaNpts | .ptIdx | .ptFreq | .ptMag | .axCount | .axPos => false

end Sys2Proof.Machine
end

