-- ==== Sys2Proof/Machine/Ops.lean ====
section
/-! DEFINITION. The named operations over the buffer, the registers, the node table and the port, taking a fault, and the
return from one (spec 20_memory R60; 46_control R215 to R220; 60_exceptions R245, R247, R248). -/

namespace Sys2Proof.Machine

open Sys2Proof.Config

/-! ### The sample buffer (R60) -/

/-- `BUFDEPTH` (R5). -/
def Params.bufDepth (p : Params) : Nat := p.bufLast.val + 1

/-- `MemRead(a, 1)`: the word at an address, nothing for a word no write has given a value (R60, R276). -/
def Buffer.read : Buffer → Nat → Option Int
  | [], _ => none
  | (b, v) :: rest, a => if a = b then some v else Buffer.read rest a

/-- `MemWrite(a, 1, v)`: set a word, keeping the addresses strictly rising (R60). -/
def Buffer.write : Buffer → Nat → Int → Buffer
  | [], a, v => [(a, v)]
  | (b, w) :: rest, a, v =>
    if a < b then (a, v) :: (b, w) :: rest
    else if a = b then (a, v) :: rest
    else (b, w) :: Buffer.write rest a v

/-! ### The control registers (R33) -/

/-- `REG[name]` (R11). -/
def Regs.get (r : Regs) : RegName → Word
  | .status => r.status
  | .errinfo => r.errinfo
  | .spaN => r.spaN
  | .spaW => r.spaW
  | .spaR => r.spaR
  | .spaNpts => r.spaNpts
  | .ptIdx => r.ptIdx
  | .ptFreq => r.ptFreq
  | .ptMag => r.ptMag
  | .axStart => r.axStart
  | .axEnd => r.axEnd
  | .axStep => r.axStep
  | .axCount => r.axCount
  | .axPos => r.axPos

/-- `REG[name] <- v` (R11). -/
def Regs.set (r : Regs) (n : RegName) (v : Word) : Regs :=
  match n with
  | .status => { r with status := v }
  | .errinfo => { r with errinfo := v }
  | .spaN => { r with spaN := v }
  | .spaW => { r with spaW := v }
  | .spaR => { r with spaR := v }
  | .spaNpts => { r with spaNpts := v }
  | .ptIdx => { r with ptIdx := v }
  | .ptFreq => { r with ptFreq := v }
  | .ptMag => { r with ptMag := v }
  | .axStart => { r with axStart := v }
  | .axEnd => { r with axEnd := v }
  | .axStep => { r with axStep := v }
  | .axCount => { r with axCount := v }
  | .axPos => { r with axPos := v }

/-- The register write of `REG.WR`: the word is stored as it stands, and a write of an axis operand ends the current axis
(R204, R218). -/
def Regs.hostWrite (r : Regs) (n : RegName) (v : Word) : Regs :=
  if n.isAxisOperand then ((r.set n v).set .axCount 0).set .axPos 0 else r.set n v

/-! ### The node table (R21) -/

/-- `N[n]`. -/
def Streams.node (g : Streams) (n : Fin 16) : Node := g.nodes[n]

/-- `N[n] <- x`. -/
def Streams.setNode (g : Streams) (n : Fin 16) (x : Node) : Streams := { g with nodes := g.nodes.set n x }

/-- `TYPE` of a slot (R21). -/
def Node.typeCode : Node → BitVec 3
  | .free => 0
  | .lpf _ => 1
  | .hpf _ => 2
  | .tee _ => 3
  | .dil _ => 4
  | .ilv _ => 5

/-- `TYPE = FREE` (R21). -/
def Node.isFree (x : Node) : Bool := x.typeCode == 0

/-- `NPORTS`: how many output ports a node has (R29). -/
def Node.nports : Node → Nat
  | .free => 0
  | .lpf _ => 1
  | .hpf _ => 1
  | .tee _ => 2
  | .dil d => d.c.val
  | .ilv _ => 1

/-- Whether a node can deliver: an interleaver must have every input bound (R27, R84). -/
def Node.complete : Node → Bool
  | .ilv x => (x.src.toList.take x.c.val).all Option.isSome
  | .free | .lpf _ | .hpf _ | .tee _ | .dil _ => true

/-- A well-formed SID is live (R84). -/
def Streams.live (g : Streams) (sid : Sid) : Bool :=
  sidIsPort sid ||
    (!(g.node (sidSlot sid)).isFree && decide ((sidPort sid).val < (g.node (sidSlot sid)).nports)
      && (g.node (sidSlot sid)).complete)

/-- `CheckSrc(n, src)` passes: the source is well formed, an external port or a lower-numbered node, and live (R100). -/
def Streams.checkSrc (g : Streams) (n : Fin 16) (src : Sid) : Bool :=
  sidFormed src && (sidIsPort src || decide ((sidSlot src).val < n.val)) && g.live src

/-- `CheckNew(n, src)` passes: the slot is `FREE` and the source check passes (R100). -/
def Streams.checkNew (g : Streams) (n : Fin 16) (src : Sid) : Bool :=
  (g.node n).isFree && g.checkSrc n src

/-! ### Responses (R82) -/

/-- End a command with the response `(ST, RD)` (R82). -/
def State.respond (s : State) (st : RespStatus) (rd : Word) : State := { s with resp := some ⟨st, rd⟩ }

/-- `return (OK, rd)` (R82). -/
def State.ok (s : State) (rd : Word) : State := s.respond .ok rd

/-- `return (END, 0)` (R82). -/
def State.ended (s : State) : State := s.respond .ended 0

/-- A change of the node table and the ports. -/
def State.setStreams (s : State) (g : Streams) : State := { s with streams := g }

/-- A change of the control registers. -/
def State.setRegs (s : State) (r : Regs) : State := { s with regs := r }

/-- Put a node into a slot (R21). -/
def State.setNode (s : State) (n : Fin 16) (x : Node) : State := s.setStreams (s.streams.setNode n x)

/-! ### Faults: entry, the fault state, and the way out (R245, R247, R248) -/

/-- `raise E(cw)`: `STATUS` and `ERRINFO` record the fault, the response is `(FAULT, code)`, and nothing else changes
(R242, R245). -/
def State.raise (s : State) (e : Cause) (cw : Word) : State :=
  (s.setRegs { s.regs with status := statusOf e, errinfo := cw }).respond .fault (e.code.zeroExtend 32)

/-- The answer to a command in the fault state: `(REFUSED, REG[STATUS])`, no state of the block changed (R247). -/
def State.refuse (s : State) : State := s.respond .refused s.regs.status

/-- Execute a command's rule, unless the block is in the fault state, where the command is refused (R83, R247). -/
def State.accept (s : State) (run : State → Host.Outcome State Fault Refusal) :
    Host.Outcome State Fault Refusal :=
  if s.faulted then .next s.refuse else run s

/-- Take a fault as the outcome of a command (R245). -/
def State.fail (s : State) (e : Cause) (i : Instr) : Host.Outcome State Fault Refusal := .next (s.raise e (cwOf i))

/-- The sequences behind the ports in the run after a reset: those placed for it, or all left open (R273). -/
def State.nextRunPorts (s : State) : Vector XSeq 8 :=
  match s.laterRuns with
  | xs :: _ => xs
  | [] => openPorts (s.run + 1)

/-- Set every piece of state except `BUF` to its reset value, the only way out of the fault state; the environment begins
the sequences of its next run (R220, R248, R270, R273). -/
def State.softReset (s : State) : State :=
  { s with streams := Streams.reset s.nextRunPorts, regs := Regs.reset, pts := [],
           laterRuns := s.laterRuns.tail, run := s.run + 1 }

/-- The hard reset input: as the `RESET` command, but no word of `BUF` keeps a value and no response is owed; a reset that
cuts a command short leaves the same state (R270, R271). -/
def State.hardReset (s : State) : State := { s.softReset with buf := [], resp := none }

end Sys2Proof.Machine
end

