-- ==== Sys2Proof/Machine/Axis.lean ====
section
/-! DEFINITION. The frequency-axis generator (spec 45_frequency_axis). -/

namespace Sys2Proof.Machine

/-- The number of terms of the axis with finite operands `start`, `stop`, `step`, or nothing where the block rejects them:
a step that is not positive, an overflow of the difference or of the quotient, a count that does not fit (R201). -/
def axisCount (start stop step : Word) : Option Nat :=
  if val32 step ≤ 0 then none
  else
    let d := fl32 (val32 stop - val32 start)
    if isInf32 d then none
    else
      let q := fl32 (val32 d / val32 step)
      if isInf32 q || decide (2 ^ 32 ≤ val32 q) then none
      else if val32 q ≤ 0 then some 0
      else some (val32 q).floor.toNat

/-- Term `k` of an axis: `fl32(start + fl32(f32n(k) * step))`, or nothing if it overflows binary32 (R203). -/
def axisTerm (start step : Word) (k : Nat) : Option Word :=
  let p := fl32 (val32 (fl32 (k : ℚ)) * val32 step)
  if isInf32 p then none
  else
    let v := fl32 (val32 start + val32 p)
    if isInf32 v then none else some v

/-- `AXIS.NEW` (R201). -/
def execAxisNew (s : State) : Host.Outcome State Fault Refusal :=
  s.accept fun s =>
    let r := s.regs
    if !(isFinite32 r.axStart && isFinite32 r.axEnd && isFinite32 r.axStep) then s.fail .emptyInput .axisNew
    else
      match axisCount r.axStart r.axEnd r.axStep with
      | none => s.fail .cfgAxis .axisNew
      | some count =>
        .next ((s.setRegs { r with axCount := BitVec.ofNat 32 count, axPos := 0 }).ok (BitVec.ofNat 32 count))

/-- `AXIS.NEXT` (R203). -/
def execAxisNext (s : State) : Host.Outcome State Fault Refusal :=
  s.accept fun s =>
    let r := s.regs
    if r.axCount.toNat ≤ r.axPos.toNat then .next s.ended
    else
      match axisTerm r.axStart r.axStep r.axPos.toNat with
      | none => s.fail .cfgAxis .axisNext
      | some v => .next ((s.setRegs { r with axPos := r.axPos + 1 }).ok v)

end Sys2Proof.Machine
end

