-- ==== Sys2Proof/Machine/Control.lean ====
section
/-! DEFINITION. Buffer, register and reset commands (spec 46_control). -/

namespace Sys2Proof.Machine

/-- `BUF.WR addr, data`: the word is saturated to the sample domain and stored (R216). -/
def execBufWr (addr : Addr) (wd : Word) (s : State) : Host.Outcome State Fault Refusal :=
  s.accept fun s =>
    .next (if s.params.bufDepth ≤ addr.toNat then s.raise .bufRange (cwOf (.bufWr addr wd))
      else ({ s with buf := s.buf.write addr.toNat (sat24 (sext32 wd)) }).ok 0)

/-- `BUF.RD addr` (R217). A word nothing has written has no value (R276). -/
def execBufRd (addr : Addr) (s : State) : Host.Outcome State Fault Refusal :=
  s.accept fun s =>
    if s.params.bufDepth ≤ addr.toNat then s.fail .bufRange (.bufRd addr)
    else
      match s.buf.read addr.toNat with
      | none => .fault (.unwrittenBufWord addr.toNat)
      | some v => .next (s.ok (to32 v))

/-- `REG.WR reg, data` (R218). -/
def execRegWr (regno : BitVec 8) (wd : Word) (s : State) : Host.Outcome State Fault Refusal :=
  s.accept fun s =>
    match regOf regno with
    | none => s.fail .illegalCmd (.regWr regno wd)
    | some n =>
      if n.writable then .next ((s.setRegs (s.regs.hostWrite n wd)).ok 0) else s.fail .illegalCmd (.regWr regno wd)

/-- `REG.RD reg`: of an existing register it executes in the fault state too; of another it is refused there like any
command (R219, R247). -/
def execRegRd (regno : BitVec 8) (s : State) : Host.Outcome State Fault Refusal :=
  match regOf regno with
  | none => s.accept fun s => s.fail .illegalCmd (.regRd regno)
  | some n => .next (s.ok (s.regs.get n))

/-- `RESET`: executes in the fault state and leaves it (R220, R247). -/
def execReset (s : State) : Host.Outcome State Fault Refusal := .next (s.softReset.ok 0)

end Sys2Proof.Machine
end

