-- ==== Sys2Proof/Machine/Spectrum.lean ====
section
/-! DEFINITION. The windowed spectral analyzer (spec 44_spectral_analyzer). -/

namespace Sys2Proof.Machine

open Sys2Proof.Config

/-- `FFTSHIFT(v)`: with `h = ceil(L / 2)`, the entries from `h` on, then the first `h` (R176). -/
def fftShift {α : Type} (v : List α) : List α := v.drop ((v.length + 1) / 2) ++ v.take ((v.length + 1) / 2)

/-- `FREQ(k, L, R)`, the exact frequency in hertz of shifted bin `k` of a window of length `L` (R177). -/
def freq (k len rate : Nat) : ℚ := ((k : ℚ) - ((len / 2 : Nat) : ℚ)) * rate / len

/-- `SPA_MAG(w)`, the magnitude patterns of a window in natural bin order (R178). -/
def magnitudes (w : List Int) : List Word := (List.range w.length).map (spaMag.bin w)

/-- The points of the window `w` formed at time index `i` (R171, R180). -/
def windowPoints (i rate : Nat) (w : List Int) : List Point :=
  (fftShift (magnitudes w)).zipIdx.map fun mk =>
    ⟨BitVec.ofNat 32 i, fl32 (freq mk.2 w.length rate), mk.1⟩

/-- The `len` words of the buffer from address `lo` on, or the first address among them that holds no value (R171, R276). -/
def readRange (b : Buffer) : (lo len : Nat) → Except Nat (List Int)
  | _, 0 => .ok []
  | lo, len + 1 =>
    match b.read lo with
    | none => .error lo
    | some v => (readRange b (lo + 1) len).map (v :: ·)

/-- The time indices `0, W/2, 2*(W/2), ...` up to `N - 1` (R172). -/
def timeIndices (n width : Nat) : List Nat :=
  (List.range ((n + width / 2 - 1) / (width / 2))).map (· * (width / 2))

/-- The points of the windows formed at a list of time indices: each window is `BUF[max(0, i - W) .. i - 1]`, and one of
length 0 is skipped (R171, R172). -/
def analyse (b : Buffer) (width rate : Nat) : List Nat → Except Nat (List Point)
  | [] => .ok []
  | i :: rest =>
    let lo := i - width
    let len := i - lo
    if len = 0 then analyse b width rate rest
    else
      match readRange b lo len with
      | .error a => .error a
      | .ok w => (analyse b width rate rest).map (windowPoints i rate w ++ ·)

/-- A legal window size: a power of two, at least 2 (R37, R171). -/
def windowSizeOk (width : Nat) : Bool := decide (2 ≤ width) && 2 ^ Nat.log2 width == width

/-- The state after a `SPA.RUN` that produced these points: the old ones are dropped (R171). -/
def State.storePoints (s : State) (pts : List Point) : State :=
  ({ s with pts := pts, regs := { s.regs with spaNpts := BitVec.ofNat 32 pts.length } }).ok
    (BitVec.ofNat 32 pts.length)

/-- `SPA.RUN` (R171). -/
def execSpaRun (s : State) : Host.Outcome State Fault Refusal :=
  s.accept fun s =>
    let width := s.regs.spaW.toNat
    let n := s.regs.spaN.toNat
    if !windowSizeOk width then s.fail .cfgWindow .spaRun
    else if n = 0 then s.fail .emptyInput .spaRun
    else if s.params.bufDepth < n then s.fail .bufRange .spaRun
    else
      match analyse s.buf width s.regs.spaR.toNat (timeIndices n width) with
      | .error a => .fault (.unwrittenBufWord a)
      | .ok pts => .next (s.storePoints pts)

/-- The state after the delivery of point `p`, element `j` of the store (R181). -/
def State.deliver (s : State) (j : Nat) (p : Point) : State :=
  ({ s with pts := s.pts.eraseIdx j, picks := s.picks + 1,
            regs := { s.regs with ptIdx := p.idx, ptFreq := p.freq, ptMag := p.mag,
                                  spaNpts := s.regs.spaNpts - 1 } }).ok p.idx

/-- `SPA.NEXT`: deliver one point, whichever the open choice names (R181; notes/assumptions/4.md). -/
def execSpaNext (s : State) : Host.Outcome State Fault Refusal :=
  s.accept fun s =>
    if h : s.pts.length = 0 then .next s.ended
    else
      let j := pickPoint s.picks % s.pts.length
      .next (s.deliver j (s.pts[j]'(Nat.mod_lt _ (Nat.pos_of_ne_zero h))))

end Sys2Proof.Machine
end

