-- ==== Sys2Proof/Machine/Pull.lean ====
section
/-! DEFINITION. What a pull can answer, and the pull on an external port (spec 40_stream_tee R101, R102). The pull of each kind
of node takes the nested pull as an argument, so that it is written once without recursion; Machine/Stream.lean ties them
together. -/

namespace Sys2Proof.Machine

open Sys2Proof.Config

/-- The outcome of a pull: an answer with the streams after it, a `QUEUE_OVF` raised inside it with the streams as the
pull left them (R246), or a source that cannot be pulled, which no run reaches (R100, R101). -/
inductive Pulled where
  /-- `Some(v)` or `None`. -/
  | answer (r : Option Int) (g : Streams)
  /-- `raise QUEUE_OVF`. -/
  | overflow (g : Streams)
  /-- A source that is not live. -/
  | dead
deriving DecidableEq, Repr

/-- `len(q) = QDEPTH` (R106, R110, R151). -/
def queueFull (depth : QueueDepth) (q : List Int) : Bool :=
  match depth with
  | .samples below => q.length == below + 1
  | .unbounded => false

/-- The environment's answer on a port (R102). -/
def XSeq.answer (p : Fin 8) (x : XSeq) : Option Word :=
  match x.words with
  | d :: _ => some d
  | [] =>
    match x.tail with
    | .ends => none
    | .goesOn run index => portAnswer run p.val index

/-- The sequence after an answer has been taken (R102). -/
def XSeq.advance (x : XSeq) : XSeq :=
  match x.words with
  | _ :: rest => { x with words := rest }
  | [] =>
    match x.tail with
    | .ends => x
    | .goesOn run index => { x with tail := .goesOn run (index + 1) }

/-- The streams after the environment has been asked on a port: the cursor has advanced, and the port's latch records a
`None` (R102). -/
def Streams.asked (g : Streams) (p : Fin 8) : Streams :=
  { g with xs := g.xs.set p g.xs[p].advance, xeos := g.xeos.set p (g.xs[p].answer p).isNone }

/-- `XPull(p)`: nothing once the latch is set; otherwise ask the environment once, saturate what it delivers, latch a
`None` (R102). -/
def xpull (p : Fin 8) (g : Streams) : Pulled :=
  if g.xeos[p] then .answer none g
  else .answer ((g.xs[p].answer p).map fun d => sat24 (sext32 d)) (g.asked p)

end Sys2Proof.Machine
end

