-- ==== Sys2Proof/Machine/Filter.lean ====
section
/-! DEFINITION. The low-pass filter and the high-pass filter (spec 41_lowpass, 42_highpass). -/

namespace Sys2Proof.Machine

/-- `bits64(RATIO(w))` for `w` = 1 to 15 (R121). -/
def ratioTable : Vector (BitVec 64) 15 :=
  #v[0x3FB999999999999A, 0x3F847AE147AE147B, 0x3F50624DD2F1A9FC, 0x3F1A36E2EB1C432D, 0x3EE4F8B588E368F1,
     0x3EB0C6F7A0B5ED8D, 0x3E7AD7F29ABCAF48, 0x3E45798EE2308C3A, 0x3E112E0BE826D695, 0x3DDB7CDFD9D7BDBB,
     0x3DA5FD7FE1796495, 0x3D719799812DEA11, 0x3D3C25C268497682, 0x3D06849B86A12B9B, 0x3CD203AF9EE75616]

/-- `bits64(OM(w))` for `w` = 1 to 15 (R121). -/
def omTable : Vector (BitVec 64) 15 :=
  #v[0x3FECCCCCCCCCCCCD, 0x3FEFAE147AE147AE, 0x3FEFF7CED916872B, 0x3FEFFF2E48E8A71E, 0x3FEFFFEB074A771D,
     0x3FEFFFFDE7210BE9, 0x3FEFFFFFCA501ACB, 0x3FEFFFFFFAA19C47, 0x3FEFFFFFFF768FA1, 0x3FEFFFFFFFF24190,
     0x3FEFFFFFFFFEA028, 0x3FEFFFFFFFFFDCD1, 0x3FEFFFFFFFFFFC7B, 0x3FEFFFFFFFFFFFA6, 0x3FEFFFFFFFFFFFF7]

/-- `RATIO(w)` (R121). -/
def ratio (w : Width) : ℚ := val64 (ratioTable[w.val - 1]'(by have := w.property; omega))

/-- `OM(w)` (R121). -/
def om (w : Width) : ℚ := val64 (omTable[w.val - 1]'(by have := w.property; omega))

/-- `WAVG(x, p, w)`: two binary64 products and their binary64 sum, three roundings, truncated toward zero (R121). -/
def wavg (x p : Int) (w : Width) : Int :=
  trunc (fl64 (fl64 ((x : ℚ) * ratio w) + fl64 ((p : ℚ) * om w)))

/-- The low-pass value a filter node computes from a pulled element (R123, R141). -/
def FilterNode.lowpass (f : FilterNode) (u : Int) : Int := wavg (sat24 u) f.prev f.width

/-- `PullLPF(n)` (R123). -/
def pullLpf (pull : Sid → Streams → Pulled) (n : Fin 16) (f : FilterNode) (g : Streams) : Pulled :=
  match pull f.src g with
  | .answer (some u) g' =>
    let y := f.lowpass u
    .answer (some y) (g'.setNode n (.lpf { f with prev := y }))
  | .answer none g' => .answer none g'
  | .overflow g' => .overflow g'
  | .dead => .dead

/-- `PullHPF(n)`: the saturated element less its low-pass value, not saturated again (R141). -/
def pullHpf (pull : Sid → Streams → Pulled) (n : Fin 16) (f : FilterNode) (g : Streams) : Pulled :=
  match pull f.src g with
  | .answer (some u) g' =>
    let lp := f.lowpass u
    .answer (some (sat24 u - lp)) (g'.setNode n (.hpf { f with prev := lp }))
  | .answer none g' => .answer none g'
  | .overflow g' => .overflow g'
  | .dead => .dead

/-- The creation of a filter node: the width check, then `CheckNew`, then the node with `PREV = 0` (R122, R140). -/
def newFilter (mk : FilterNode → Node) (i : Instr) (node : BitVec 4) (src : Sid) (imm : BitVec 8) (s : State) :
    Host.Outcome State Fault Refusal :=
  match widthOf imm with
  | none => s.fail .cfgWidth i
  | some w =>
    if s.streams.checkNew (slotOf node) src then
      .next ((s.setNode (slotOf node) (mk ⟨src, w, 0⟩)).ok 0)
    else s.fail .cfgBind i

/-- `LPF.NEW n, src, width` (R122). -/
def execLpfNew (node : BitVec 4) (src : Sid) (imm : BitVec 8) (s : State) : Host.Outcome State Fault Refusal :=
  s.accept (newFilter .lpf (.lpfNew node src imm) node src imm)

/-- `HPF.NEW n, src, width` (R140). -/
def execHpfNew (node : BitVec 4) (src : Sid) (imm : BitVec 8) (s : State) : Host.Outcome State Fault Refusal :=
  s.accept (newFilter .hpf (.hpfNew node src imm) node src imm)

end Sys2Proof.Machine
end

