-- ==== Sys2Proof/Machine/Interleave.lean ====
section
/-! DEFINITION. The deinterleaver and the interleaver (spec 43_interleave). -/

namespace Sys2Proof.Machine

open Sys2Proof.Config

/-- The outcome of fetching one element from each stream of a list, in order. -/
inductive Fetched where
  /-- Every stream has supplied its element. -/
  | full (frame : List Int) (g : Streams)
  /-- A stream has answered `None`; the elements taken before it (R151, R157). -/
  | ended (part : List Int) (g : Streams)
  /-- `QUEUE_OVF` raised inside a pull; the elements taken before it (R246). -/
  | overflow (part : List Int) (g : Streams)
  /-- A source that is not live. -/
  | dead
deriving DecidableEq, Repr

/-- Pull one element from each stream of a list, in order, stopping at the first `None` (the loops of R151, R157); `taken`
holds the elements already fetched. -/
def fetchFrame (pull : Sid → Streams → Pulled) : List Sid → List Int → Streams → Fetched
  | [], taken, g => .full taken g
  | sid :: rest, taken, g =>
    match pull sid g with
    | .answer (some v) g' => fetchFrame pull rest (taken ++ [v]) g'
    | .answer none g' => .ended taken g'
    | .overflow g' => .overflow taken g'
    | .dead => .dead

/-! ### Deinterleaver -/

/-- Queue the elements of a frame for every channel but `c`, in channel order; `false` at the first full queue, with the
queues as they then stand (R151). -/
def queueOthers (depth : QueueDepth) (c : Fin 8) :
    List (Fin 8 × Int) → Vector (List Int) 8 → Bool × Vector (List Int) 8
  | [], q => (true, q)
  | (k, v) :: rest, q =>
    if k = c then queueOthers depth c rest q
    else if queueFull depth q[k] then (false, q)
    else queueOthers depth c rest (q.set k (q[k] ++ [v]))

/-- `PullDIL(n, c)` (R151). -/
def pullDil (depth : QueueDepth) (pull : Sid → Streams → Pulled) (n : Fin 16) (c : Fin 8) (d : DilNode)
    (g : Streams) : Pulled :=
  match d.q[c] with
  | v :: rest => .answer (some v) (g.setNode n (.dil { d with q := d.q.set c rest }))
  | [] =>
    if d.done then .answer none g
    else
      match fetchFrame pull (List.replicate d.c.val d.src) [] g with
      | .ended _ g' => .answer none (g'.setNode n (.dil { d with done := true }))
      | .overflow _ g' => .overflow g'
      | .dead => .dead
      | .full frame g' =>
        match frame[c.val]? with
        | none => .dead
        | some v =>
          match queueOthers depth c ((List.finRange 8).zip frame) d.q with
          | (true, q) => .answer (some v) (g'.setNode n (.dil { d with q := q }))
          | (false, q) => .overflow (g'.setNode n (.dil { d with q := q }))

/-- `DIL.NEW n, src, C` (R150). -/
def execDilNew (node : BitVec 4) (src : Sid) (imm : BitVec 8) (s : State) : Host.Outcome State Fault Refusal :=
  s.accept fun s =>
    match channelsOf imm with
    | none => s.fail .cfgChannels (.dilNew node src imm)
    | some c =>
      if s.streams.checkNew (slotOf node) src then
        .next ((s.setNode (slotOf node) (.dil ⟨src, c, Vector.replicate 8 [], false⟩)).ok 0)
      else s.fail .cfgBind (.dilNew node src imm)

/-! ### Interleaver -/

/-- Write the elements of a frame, or of the part fetched, into the frame buffer (R157). -/
def writeFrame (f : Vector Int 8) (frame : List Int) : Vector Int 8 :=
  Vector.ofFn fun k : Fin 8 => (frame[k.val]?).getD f[k]

/-- Emit the next element of the frame buffer (R157). -/
def emitFrame (n : Fin 16) (x : IlvNode) (g : Streams) : Pulled :=
  let last := x.ph.toNat = x.c.val - 1
  .answer (some x.f[x.ph.toNat])
    (g.setNode n (.ilv { x with fv := if last then false else x.fv, ph := if last then 0 else x.ph + 1 }))

/-- The bound inputs `SRC[0..C-1]`, if every one is bound (R27). -/
def IlvNode.inputs (x : IlvNode) : Option (List Sid) := (x.src.toList.take x.c.val).mapM id

/-- `PullILV(n)` (R157). -/
def pullIlv (pull : Sid → Streams → Pulled) (n : Fin 16) (x : IlvNode) (g : Streams) : Pulled :=
  if x.fv then emitFrame n x g
  else if x.done then .answer none g
  else
    match x.inputs with
    | none => .dead
    | some sids =>
      match fetchFrame pull sids [] g with
      | .ended part g' => .answer none (g'.setNode n (.ilv { x with done := true, f := writeFrame x.f part }))
      | .overflow part g' => .overflow (g'.setNode n (.ilv { x with f := writeFrame x.f part }))
      | .dead => .dead
      | .full frame g' => emitFrame n { x with f := writeFrame x.f frame, fv := true, ph := 0 } g'

/-- `ILV.NEW n, C` (R154). The frame buffer holds zeros, which nothing reads while `FV = 0` (R27); see
notes/assumptions/6.md. -/
def execIlvNew (node : BitVec 4) (imm : BitVec 8) (s : State) : Host.Outcome State Fault Refusal :=
  s.accept fun s =>
    match channelsOf imm with
    | none => s.fail .cfgChannels (.ilvNew node imm)
    | some c =>
      if (s.streams.node (slotOf node)).isFree then
        .next ((s.setNode (slotOf node)
          (.ilv ⟨c, Vector.replicate 8 none, Vector.replicate 8 0, 0, false, false⟩)).ok 0)
      else s.fail .cfgBind (.ilvNew node imm)

/-- Bind input `k` of an interleaver, if `k` is one of its inputs and not bound yet (R155). -/
def IlvNode.bind (x : IlvNode) (k : BitVec 4) (src : Sid) : Option IlvNode :=
  if h : k.toNat < 8 then
    if k.toNat < x.c.val ∧ x.src[k.toNat] = none then some { x with src := x.src.set k.toNat (some src) } else none
  else none

/-- `ILV.BIND n[k], src` (R155). -/
def execIlvBind (node aux : BitVec 4) (src : Sid) (s : State) : Host.Outcome State Fault Refusal :=
  s.accept fun s =>
    match s.streams.node (slotOf node) with
    | .ilv x =>
      match x.bind aux src with
      | none => s.fail .cfgBind (.ilvBind node aux src)
      | some x' =>
        if s.streams.checkSrc (slotOf node) src then .next ((s.setNode (slotOf node) (.ilv x')).ok 0)
        else s.fail .cfgBind (.ilvBind node aux src)
    | .free | .lpf _ | .hpf _ | .tee _ | .dil _ => s.fail .cfgBind (.ilvBind node aux src)

end Sys2Proof.Machine
end

