-- ==== Sys2Proof/Machine/Tee.lean ====
section
/-! DEFINITION. The tee (spec 40_stream_tee R105 to R110). -/

namespace Sys2Proof.Machine

open Sys2Proof.Config

/-- The queue of a side: `QA` for side 0, `QB` for side 1 (R106). -/
def TeeNode.own (t : TeeNode) (side : Fin 8) : List Int := if side = 0 then t.qa else t.qb

/-- The queue of the other side (R106). -/
def TeeNode.other (t : TeeNode) (side : Fin 8) : List Int := if side = 0 then t.qb else t.qa

/-- Replace the queue of a side. -/
def TeeNode.setOwn (t : TeeNode) (side : Fin 8) (q : List Int) : TeeNode :=
  if side = 0 then { t with qa := q } else { t with qb := q }

/-- Replace the queue of the other side. -/
def TeeNode.setOther (t : TeeNode) (side : Fin 8) (q : List Int) : TeeNode :=
  if side = 0 then { t with qb := q } else { t with qa := q }

/-- `PullTEE(n, side)`: the backlog first; else one element of the origin, queued for the other side, which may be full
(R106, R110). -/
def pullTee (depth : QueueDepth) (pull : Sid → Streams → Pulled) (n : Fin 16) (side : Fin 8) (t : TeeNode)
    (g : Streams) : Pulled :=
  match t.own side with
  | v :: rest => .answer (some v) (g.setNode n (.tee (t.setOwn side rest)))
  | [] =>
    match pull t.src g with
    | .answer (some v) g' =>
      if queueFull depth (t.other side) then .overflow g'
      else .answer (some v) (g'.setNode n (.tee (t.setOther side (t.other side ++ [v]))))
    | .answer none g' => .answer none g'
    | .overflow g' => .overflow g'
    | .dead => .dead

/-- `TEE.NEW n, src` (R105). -/
def execTeeNew (node : BitVec 4) (src : Sid) (s : State) : Host.Outcome State Fault Refusal :=
  s.accept fun s =>
    if s.streams.checkNew (slotOf node) src then
      .next ((s.setNode (slotOf node) (.tee ⟨src, [], []⟩)).ok 0)
    else s.fail .cfgBind (.teeNew node src)

end Sys2Proof.Machine
end

