-- ==== Sys2Proof/Machine/Stream.lean ====
section
/-! DEFINITION. The pull primitive and `NEXT` (spec 40_stream_tee R101, R104). -/

namespace Sys2Proof.Machine

open Sys2Proof.Config

/-- The pull on a node's output port, given the nested pull (R101). -/
def pullNode (depth : QueueDepth) (pull : Sid → Streams → Pulled) (n : Fin 16) (c : Fin 8) (g : Streams) : Pulled :=
  match g.node n with
  | .free => .dead
  | .lpf f => pullLpf pull n f g
  | .hpf f => pullHpf pull n f g
  | .tee t => pullTee depth pull n c t g
  | .dil d => pullDil depth pull n c d g
  | .ilv x => pullIlv pull n x g

/-- `Pull(sid)` with at most `fuel` pulls inside one another (R101). A chain of nested pulls visits strictly decreasing
slots and ends at an external port, so it is at most 17 long (R91, R100). -/
def pullWithin (depth : QueueDepth) : Nat → Sid → Streams → Pulled
  | 0, _, _ => .dead
  | fuel + 1, sid, g =>
    if sidIsPort sid then xpull (sidPort sid) g
    else pullNode depth (pullWithin depth fuel) (sidSlot sid) (sidPort sid) g

/-- `Pull(sid)` (R101). -/
def pull (depth : QueueDepth) (sid : Sid) (g : Streams) : Pulled := pullWithin depth 17 sid g

/-- End a `NEXT` with what its pull answered (R104): `(OK, to32(v))`, `(END, 0)`, or the `QUEUE_OVF` raised inside it with
the streams as the pull left them (R246). -/
def finishNext (i : Instr) (s : State) (p : Pulled) : Host.Outcome State Fault Refusal :=
  match p with
  | .answer r g => .next ((s.setStreams g).respond (if r.isSome then .ok else .ended) (r.elim 0 to32))
  | .overflow g => (s.setStreams g).fail .queueOvf i
  | .dead => .fault .deadSource

/-- `NEXT sid` (R104). -/
def execNext (sid : Sid) (s : State) : Host.Outcome State Fault Refusal :=
  s.accept fun s =>
    if sidFormed sid && s.streams.live sid then finishNext (.next sid) s (pull s.params.qdepth sid s.streams)
    else s.fail .cfgBind (.next sid)

end Sys2Proof.Machine
end

