-- ==== Sys2Proof/Machine/Dispatch.lean ====
section
/-! DEFINITION. The dispatch from commands to their meanings (spec 30_encoding R83 step (4), R86). -/

namespace Sys2Proof.Machine

/-- The rule of a command's row (R83, R86). -/
def exec (i : Instr) (s : State) : Host.Outcome State Fault Refusal :=
  match i with
  | .lpfNew node src imm => Sys2Proof.Machine.execLpfNew node src imm s
  | .hpfNew node src imm => Sys2Proof.Machine.execHpfNew node src imm s
  | .teeNew node src => Sys2Proof.Machine.execTeeNew node src s
  | .dilNew node src imm => Sys2Proof.Machine.execDilNew node src imm s
  | .ilvNew node imm => Sys2Proof.Machine.execIlvNew node imm s
  | .ilvBind node aux src => Sys2Proof.Machine.execIlvBind node aux src s
  | .next sid => Sys2Proof.Machine.execNext sid s
  | .spaRun => Sys2Proof.Machine.execSpaRun s
  | .spaNext => Sys2Proof.Machine.execSpaNext s
  | .axisNew => Sys2Proof.Machine.execAxisNew s
  | .axisNext => Sys2Proof.Machine.execAxisNext s
  | .bufWr addr wd => Sys2Proof.Machine.execBufWr addr wd s
  | .bufRd addr => Sys2Proof.Machine.execBufRd addr s
  | .regWr regno wd => Sys2Proof.Machine.execRegWr regno wd s
  | .regRd regno => Sys2Proof.Machine.execRegRd regno s
  | .reset => Sys2Proof.Machine.execReset s

end Sys2Proof.Machine
end

