-- ==== Sys2Proof/Machine/Transact.lean ====
section
/-! DEFINITION. One transaction on the command port, and the host's inputs (spec 30_encoding R80, R83; 70_reset R270). -/

namespace Sys2Proof.Machine

/-- Serve the transaction `(CW, WD)`: a word that matches a row executes the row's rule, which itself refuses in the fault
state; a word that matches none raises `ILLEGAL_CMD(CW)`, or is refused in the fault state (R83, R87, R247). -/
def transact (cw wd : Word) (s : State) : Host.Outcome State Fault Refusal :=
  match decode cw wd with
  | .ok i => exec i s
  | .error _ => s.accept fun s => .next (s.raise .illegalCmd cw)

/-- Serve the host's next input. With none presented the block is idle and holds its state (R260). -/
def serve (s : State) : Host.Outcome State Fault Refusal :=
  match s.port with
  | [] => .next s
  | .command cw wd :: rest => transact cw wd { s with port := rest }
  | .hardReset :: rest => .next ({ s with port := rest }).hardReset

/-- Present a transaction to the block before everything else the host presents. -/
def State.present (s : State) (cw wd : Word) : State := { s with port := .command cw wd :: s.port }

end Sys2Proof.Machine
end

