-- ==== Sys2Proof/Machine/Step.lean ====
section
/-! DEFINITION. The step function: one input of the host (spec 00_scope R12), and the placing of a transaction where the
next step takes it. -/

namespace Sys2Proof.Machine

/-- One step: the block serves the host's next input to its response (R12, R66). -/
def step (s : State) : Host.Outcome State Fault Refusal := serve s

/-- The state in which the transaction with the bits `w` (those from `nbits` up zero) is the next one the host presents. -/
def State.withFetchWord (s : State) (nbits w : Nat) : State := s.present (wordsOf nbits w).1 (wordsOf nbits w).2

end Sys2Proof.Machine
end

