-- ==== Sys2Proof/Safety.lean ====
section
/-! DEFINITION. What holds of the machine between commands, in the terms the statements use: the invariants of the node table
(spec 10_state R21 to R29; 40_stream_tee R100, R108), of the registers and the point store (R34 to R49), of the sample buffer
(R48), and what a safe run is. -/

namespace Sys2Proof.Machine

open Sys2Proof.Config

/-- A sample: in `[-SMAX, SMAX]` (R22, R48). -/
abbrev IsSample (v : Int) : Prop := -smax ≤ v ∧ v ≤ smax

/-- A stream element: in `[-2*SMAX, 2*SMAX]` (R28). -/
abbrev IsElement (v : Int) : Prop := -(2 * smax) ≤ v ∧ v ≤ 2 * smax

/-- A queue holds at most `QDEPTH` elements (R25, R26). -/
abbrev QueueFits (depth : QueueDepth) (q : List Int) : Prop :=
  match depth with
  | .samples below => q.length ≤ below + 1
  | .unbounded => True

/-- A queue of a tee or a deinterleaver: within its capacity, every entry a stream element (R25, R26, R28). -/
abbrev QueueOk (depth : QueueDepth) (q : List Int) : Prop := QueueFits depth q ∧ ∀ v ∈ q, IsElement v

/-- What holds of the node in slot `n` of a table (R22 to R28, R100, R108). -/
def NodeOk (depth : QueueDepth) (g : Streams) (n : Fin 16) : Node → Prop
  | .free => True
  | .lpf f => g.checkSrc n f.src = true ∧ IsSample f.prev
  | .hpf f => g.checkSrc n f.src = true ∧ IsSample f.prev
  | .tee t => g.checkSrc n t.src = true ∧ QueueOk depth t.qa ∧ QueueOk depth t.qb ∧ (t.qa = [] ∨ t.qb = [])
  | .dil d => g.checkSrc n d.src = true ∧ ∀ k : Fin 8, QueueOk depth d.q[k] ∧ (d.c.val ≤ k.val → d.q[k] = [])
  | .ilv x =>
    (∀ (k : Fin 8) (sid : Sid), x.src[k] = some sid → k.val < x.c.val ∧ g.checkSrc n sid = true) ∧
      (∀ k : Fin 8, IsElement x.f[k]) ∧ x.ph.toNat < x.c.val ∧ (x.fv = false → x.ph = 0)

/-- Every slot of the node table is in order: sources are live, well formed and lower-numbered or external, stored values
in range, queues within capacity, at most one tee queue non-empty. -/
def GraphInv (s : State) : Prop := ∀ n : Fin 16, NodeOk s.params.qdepth s.streams n (s.streams.node n)

/-- The buffer is in canonical form, inside its address range, and holds samples only (R48). -/
def BufInv (s : State) : Prop :=
  s.buf.wf ∧ ∀ cell ∈ s.buf, cell.1 < s.params.bufDepth ∧ IsSample cell.2

/-- `STATUS` and `ERRINFO` are both 0, or `STATUS` is that of one of the nine faults (R34, R35, R242). -/
def StatusInv (s : State) : Prop :=
  (s.regs.status = 0 ∧ s.regs.errinfo = 0) ∨ ∃ e : Cause, s.regs.status = statusOf e

/-- The axis position is at most the count; and while there are terms, the operands are finite and the count is the one
they give (R47, R204). -/
def AxisInv (s : State) : Prop :=
  s.regs.axPos.toNat ≤ s.regs.axCount.toNat ∧
    (s.regs.axCount ≠ 0 →
      isFinite32 s.regs.axStart = true ∧ isFinite32 s.regs.axEnd = true ∧ isFinite32 s.regs.axStep = true ∧
        axisCount s.regs.axStart s.regs.axEnd s.regs.axStep = some s.regs.axCount.toNat)

/-- `SPA_NPTS` is the size of the point store (R39, R49). -/
def PointCountInv (s : State) : Prop := s.regs.spaNpts.toNat = s.pts.length

/-- Every magnitude stored or last delivered is finite with sign bit 0, and every frequency is finite (R41, R42, R229). -/
def PointValueInv (s : State) : Prop :=
  (isMagnitude s.regs.ptMag = true ∧ isFinite32 s.regs.ptFreq = true) ∧
    ∀ p ∈ s.pts, isMagnitude p.mag = true ∧ isFinite32 p.freq = true

/-- Everything that holds of the machine at every command boundary of a run. -/
def Inv (s : State) : Prop :=
  GraphInv s ∧ BufInv s ∧ StatusInv s ∧ AxisInv s ∧ PointCountInv s ∧ PointValueInv s

/-- `k` steps from `s` (`Host.Core.run` of the machine). -/
def runFrom (k : Nat) (s : State) : Host.Outcome State Fault Refusal := Sys2Proof.core.run k s

/-- A run of `k` steps from `s` is safe: it ends in a next state, or it stops at the read of a buffer word that nothing has
written, which a correct host never does (R276). -/
def SafeRun (k : Nat) (s : State) : Prop :=
  (∃ t, runFrom k s = .next t) ∨ ∃ a, runFrom k s = .fault (.unwrittenBufWord a)

/-! ### Words the statements use: what a command leaves alone -/

/-- Every read of the buffer gives what it gave. -/
abbrev KeepsBuf (s t : State) : Prop := ∀ a : Nat, t.buf.read a = s.buf.read a

/-- The point store and the count of deliveries are unchanged. -/
abbrev KeepsPoints (s t : State) : Prop := t.pts = s.pts ∧ t.picks = s.picks

/-- Every node slot but `n` is unchanged. -/
abbrev KeepsNodesBut (n : Fin 16) (s t : State) : Prop :=
  ∀ m : Fin 16, m ≠ n → t.streams.node m = s.streams.node m

/-- Every node slot is unchanged. -/
abbrev KeepsNodes (s t : State) : Prop := ∀ m : Fin 16, t.streams.node m = s.streams.node m

/-- Every external port but `p` is unchanged: its latch, and what stands behind it. -/
abbrev KeepsPortsBut (p : Fin 8) (s t : State) : Prop :=
  ∀ q : Fin 8, q ≠ p → t.streams.xeos[q] = s.streams.xeos[q] ∧ t.streams.xs[q] = s.streams.xs[q]

/-- Every external port is unchanged. -/
abbrev KeepsPorts (s t : State) : Prop :=
  ∀ q : Fin 8, t.streams.xeos[q] = s.streams.xeos[q] ∧ t.streams.xs[q] = s.streams.xs[q]

/-- What the host presents, the parameters, and the runs to come are unchanged. -/
abbrev KeepsOutside (s t : State) : Prop :=
  t.port = s.port ∧ t.params = s.params ∧ t.laterRuns = s.laterRuns ∧ t.run = s.run

/-- The command answered `(st, rd)`. -/
abbrev Answered (t : State) (st : RespStatus) (rd : Word) : Prop := t.resp = some ⟨st, rd⟩

/-- The command raised fault `e` with command word `cw` and did nothing else (R245, R246). -/
abbrev OnlyRaised (e : Cause) (cw : Word) (s t : State) : Prop :=
  t.regs = { s.regs with status := 1 + 16 * e.code.zeroExtend 32, errinfo := cw } ∧
    Answered t .fault (e.code.zeroExtend 32) ∧ t.streams = s.streams ∧ KeepsBuf s t ∧ KeepsPoints s t ∧
    KeepsOutside s t

/-- A pull of `sid` raised `QUEUE_OVF` (code 9), so `STATUS` is `0x91` and `ERRINFO` the word of the `NEXT`; no other
register, no buffer word and no point changed (R242, R245, R246). What the pull did to the streams is said beside this. -/
abbrev Overflowed (sid : Sid) (s t : State) : Prop :=
  t.regs = { s.regs with status := 0x91, errinfo := cwOf (.next sid) } ∧ Answered t .fault 9 ∧ KeepsBuf s t ∧
    KeepsPoints s t ∧ KeepsOutside s t

/-- The control registers in the order of R33's table: element `k` is the register of number `k`. -/
def Regs.inOrder (r : Regs) : List Word :=
  [r.status, r.errinfo, r.spaN, r.spaW, r.spaR, r.spaNpts, r.ptIdx, r.ptFreq, r.ptMag, r.axStart, r.axEnd, r.axStep,
    r.axCount, r.axPos]

/-- The faults a command can raise of its own (R241, R244). -/
def causesOf : Instr → List Cause
  | .lpfNew _ _ _ => [.cfgWidth, .cfgBind]
  | .hpfNew _ _ _ => [.cfgWidth, .cfgBind]
  | .teeNew _ _ => [.cfgBind]
  | .dilNew _ _ _ => [.cfgChannels, .cfgBind]
  | .ilvNew _ _ => [.cfgChannels, .cfgBind]
  | .ilvBind _ _ _ => [.cfgBind]
  | .next _ => [.cfgBind, .queueOvf]
  | .spaRun => [.cfgWindow, .emptyInput, .bufRange]
  | .spaNext => []
  | .axisNew => [.emptyInput, .cfgAxis]
  | .axisNext => [.cfgAxis]
  | .bufWr _ _ => [.bufRange]
  | .bufRd _ => [.bufRange]
  | .regWr _ _ => [.illegalCmd]
  | .regRd _ => [.illegalCmd]
  | .reset => []

/-- The stream id of an external port: `0x80` to `0x87` (R84). -/
def portSid (p : Fin 8) : Sid := BitVec.ofNat 8 (0x80 + p.val)

/-- The stream id of output port `c` of node `n` (R84). -/
def nodeSid (n : Fin 16) (c : Fin 8) : Sid := BitVec.ofNat 8 (8 * n.val + c.val)

/-- The streams a node pulls when one of its own ports is pulled (R22 to R27). -/
def Node.sources : Node → List Sid
  | .free => []
  | .lpf f => [f.src]
  | .hpf f => [f.src]
  | .tee t => [t.src]
  | .dil d => [d.src]
  | .ilv x => (x.src.toList.take x.c.val).reduceOption

/-- The streams upstream of a stream, itself among them: what a pull of `sid` can pull (R29, R101). -/
inductive Feeds (g : Streams) (sid : Sid) : Sid → Prop where
  /-- The stream itself. -/
  | self : Feeds g sid sid
  /-- A source of a node one of whose streams is upstream. -/
  | source (mid src : Sid) : Feeds g sid mid → sidIsPort mid = false → src ∈ (g.node (sidSlot mid)).sources →
    Feeds g sid src

/-- The state after a row of commands; nothing if one of them stops or is refused by name. -/
def issue : List Instr → State → Option State
  | [], s => some s
  | i :: rest, s =>
    match exec i s with
    | .next t => issue rest t
    | _ => none

/-- What a row of `NEXT` commands delivers, `some` element or `none` for `END`, and the state after it; nothing if one of
them faults, stops, or is refused. -/
def collect : List Sid → State → Option (List (Option Int) × State)
  | [], s => some ([], s)
  | sid :: rest, s =>
    match exec (.next sid) s with
    | .next t =>
      match t.resp with
      | some ⟨.ok, rd⟩ => (collect rest t).map fun r => (some rd.toInt :: r.1, r.2)
      | some ⟨.ended, _⟩ => (collect rest t).map fun r => (none :: r.1, r.2)
      | _ => none
    | _ => none

/-- The outputs of a low-pass filter of width `w` started at `prev`, for a sequence of inputs (R120, R124). -/
def smoothed (w : Width) : Int → List Int → List Int
  | _, [] => []
  | prev, x :: rest => wavg (sat24 x) prev w :: smoothed w (wavg (sat24 x) prev w) rest

/-- The samples a port delivers for the words behind it (R102). -/
def samplesOf (ws : List Word) : List Int := ws.map fun d => sat24 (sext32 d)

/-- The sequence behind port `p` is the finite sequence `ws`, none of it exhausted yet. -/
abbrev Behind (s : State) (p : Fin 8) (ws : List Word) : Prop :=
  s.streams.xeos[p] = false ∧ s.streams.xs[p] = ⟨ws, .ends⟩

/-- The window of time index `i`: the words `max(0, i - W)` to `i - 1` of the buffer (R172). -/
def windowAt (b : Buffer) (width i : Nat) : List Int :=
  (List.range (min i width)).map fun k => (b.read (i - width + k)).getD 0

/-- The registers of a legal `SPA.RUN` (R36, R37, R171). -/
abbrev LegalRun (s : State) : Prop :=
  (∃ k : Nat, 1 ≤ k ∧ k ≤ 31 ∧ s.regs.spaW.toNat = 2 ^ k) ∧
    1 ≤ s.regs.spaN.toNat ∧ s.regs.spaN.toNat ≤ s.params.bufDepth

/-- Every word of `BUF[0..N-1]` has been written (R276). -/
abbrev RangeWritten (s : State) : Prop := ∀ a : Nat, a < s.regs.spaN.toNat → s.buf.read a ≠ none

end Sys2Proof.Machine
end

