-- ==== Sys2Proof/Certificates/Slice0/Obligations.lean ====
section
/-! DEFINITION. The statements for the provers, in the order of OBLIGATIONS.json. -/

open Sys2Proof Sys2Proof.Machine Sys2Proof.Config

/-! ### Encoding -/

/-- Decoding the two words of any command gives the command back (R81, R83, R86). -/
def Obligations.DecodeAfterEncode : Prop :=
  ∀ i : Instr, decode (encode i).1 (encode i).2 = .ok i

/-- A decoded command encodes to the command word it was decoded from, so the word a fault records is the word the host
presented; and its data word, where it has one, is the one presented (R81, R87, R242). -/
def Obligations.EncodeAfterDecode : Prop :=
  ∀ (cw wd : Word) (i : Instr), decode cw wd = .ok i →
    cwOf i = cw ∧ ((encode i).2 = wd ∨ ∀ wd', decode cw wd' = .ok i)

/-- A command word decodes exactly when it matches a row of the printed opcode map, to a command of that row, and no word
matches two rows (R83, R86, R87). -/
def Obligations.DecodeAgreesWithOpcodeMap : Prop :=
  (∀ cw wd : Word, (∃ i, decode cw wd = .ok i) ↔ ∃ r ∈ opcodeMap, r.matches cw = true) ∧
    (∀ (cw wd : Word) (i : Instr), decode cw wd = .ok i →
      ∃ r ∈ opcodeMap, r.matches cw = true ∧ r.mnemonic = i.mnemonic) ∧
    ∀ (cw : Word), ∀ r ∈ opcodeMap, ∀ q ∈ opcodeMap, r.matches cw = true → q.matches cw = true → r = q

/-- Words assembled in the spec's tables decode to the commands they are said to be (R86; 95_test_vectors 2.1). -/
def Obligations.SpecWordsDecode : Prop :=
  decode 0x01F0870F 0 = .ok (.lpfNew 15 0x87 15) ∧ decode 0x02300102 0 = .ok (.hpfNew 3 0x01 2) ∧
    decode 0x03108000 0 = .ok (.teeNew 1 0x80) ∧ decode 0x06311000 0 = .ok (.ilvBind 3 1 0x10) ∧
    decode 0x08007F00 0 = .ok (.next 0x7F) ∧ decode 0x18000007 0xFFFFFF9C = .ok (.bufWr 7 0xFFFFFF9C) ∧
    decode 0x2000000B 0x3DCCCCCD = .ok (.regWr 0x0B 0x3DCCCCCD) ∧
    decode 0x01110001 0 = .error (.nonzeroField "LPF.NEW") ∧ decode 0 0 = .error (.unknownOpcode 0)

/-! ### The step and the resets -/

/-- When the transaction presented next decodes to a command, the step is that command's meaning, in the state without
that transaction (R12, R83). -/
def Obligations.StepServesTransaction : Prop :=
  ∀ (s : State) (cw wd : Word) (rest : List HostInput) (i : Instr), s.port = .command cw wd :: rest →
    decode cw wd = .ok i → step s = exec i { s with port := rest }

/-- A command word that matches no row raises `ILLEGAL_CMD` with that word outside the fault state and does nothing else;
in the fault state it is refused (R83, R87, R247). -/
def Obligations.IllegalWordFaults : Prop :=
  ∀ (s : State) (cw wd : Word) (rest : List HostInput), s.port = .command cw wd :: rest →
    (∀ i, decode cw wd ≠ .ok i) →
    (s.faulted = false → ∃ t, step s = .next t ∧ OnlyRaised .illegalCmd cw { s with port := rest } t) ∧
      (s.faulted = true → step s = .next { s with port := rest, resp := some ⟨.refused, s.regs.status⟩ })

/-- The state after reset is the one the spec's table gives: every slot free, no latch set, every register 0 but `SPA_R`,
no point, no buffer word with a value (R52). -/
def Obligations.ResetStateIsTheSpecs : Prop :=
  (∀ n : Fin 16, State.reset.streams.node n = .free) ∧ (∀ p : Fin 8, State.reset.streams.xeos[p] = false) ∧
    (∀ r : RegName, State.reset.regs.get r = if r = .spaR then 44100 else 0) ∧ State.reset.pts = [] ∧
    ∀ a : Nat, State.reset.buf.read a = none

/-- The invariant holds at reset (R52). -/
def Obligations.InvariantAtReset : Prop := Inv State.reset

/-- `RESET` completes in every state, the fault state too: everything but the buffer goes to its reset value, and the
answer is `(OK, 0)` (R220, R270). -/
def Obligations.ResetCommandRestores : Prop :=
  ∀ s : State, ∃ t, exec .reset s = .next t ∧ (∀ n : Fin 16, t.streams.node n = .free) ∧
    (∀ p : Fin 8, t.streams.xeos[p] = false) ∧ t.regs = Regs.reset ∧ t.pts = [] ∧ KeepsBuf s t ∧
    Answered t .ok 0 ∧ t.faulted = false ∧ t.port = s.port ∧ t.params = s.params

/-- The hard reset input resets as `RESET` does and leaves no buffer word with a value and no response; with no input
presented the block holds its state (R260, R270, R271). That an absent input is a step that changes nothing is the model's
choice (notes/assumptions/1.md). -/
def Obligations.HardResetAndIdle : Prop :=
  (∀ (s : State) (rest : List HostInput), s.port = .hardReset :: rest →
    ∃ t, step s = .next t ∧ (∀ n : Fin 16, t.streams.node n = .free) ∧
      (∀ p : Fin 8, t.streams.xeos[p] = false) ∧ t.regs = Regs.reset ∧ t.pts = [] ∧
      (∀ a : Nat, t.buf.read a = none) ∧ t.resp = none ∧ t.port = rest ∧ t.params = s.params) ∧
    ∀ s : State, s.port = [] → step s = .next s

/-! ### The fault state -/

/-- In the fault state every transaction is answered `(REFUSED, STATUS)` and changes no state, but for two words that
execute: `REG.RD` of an existing register, which answers it, and `RESET`, exactly `0x3F000000` (R247). -/
def Obligations.FaultStateRefuses : Prop :=
  ∀ (s : State) (cw wd : Word) (rest : List HostInput), s.faulted = true → s.port = .command cw wd :: rest →
    (cw ≠ 0x3F000000 → (∀ regno : BitVec 8, regno.toNat ≤ 0x0D → cw ≠ 0x21000000 + regno.zeroExtend 32) →
      step s = .next { s with port := rest, resp := some ⟨.refused, s.regs.status⟩ }) ∧
    (∀ (regno : BitVec 8) (v : Word), s.regs.inOrder[regno.toNat]? = some v → cw = 0x21000000 + regno.zeroExtend 32 →
      step s = .next { s with port := rest, resp := some ⟨.ok, v⟩ }) ∧
    s.regs.inOrder.length = 0x0E ∧
    (cw = 0x3F000000 → ∃ t, step s = .next t ∧ (∀ n : Fin 16, t.streams.node n = .free) ∧
      (∀ p : Fin 8, t.streams.xeos[p] = false) ∧ t.regs = Regs.reset ∧ t.pts = [] ∧ KeepsBuf s t ∧ Answered t .ok 0 ∧
      t.faulted = false)

/-- No step from the fault state changes the node table, the ports, a register, the buffer or the points, or raises a
second fault, unless it serves the word of `RESET` or the hard reset input; and those two leave the fault state, with no
node (R248). -/
def Obligations.FaultStateLeftOnlyByReset : Prop :=
  (∀ s t : State, s.faulted = true → step s = .next t → (∀ rest, s.port ≠ .hardReset :: rest) →
    (∀ wd rest, s.port ≠ .command 0x3F000000 wd :: rest) →
    t.streams = s.streams ∧ t.regs = s.regs ∧ t.buf = s.buf ∧ t.pts = s.pts ∧ t.faulted = true) ∧
    ∀ s : State, ((∃ rest, s.port = .hardReset :: rest) ∨ ∃ wd rest, s.port = .command 0x3F000000 wd :: rest) →
      ∃ t, step s = .next t ∧ t.faulted = false ∧ t.regs.errinfo = 0 ∧ ∀ n : Fin 16, t.streams.node n = .free

/-- Outside the fault state a command other than `RESET` either leaves `STATUS` and `ERRINFO` alone or raises a fault,
which sets `STATUS` to `1 + 16 * code`, `ERRINFO` to the command's word, and answers `(FAULT, code)` (R32, R242, R245). -/
def Obligations.StatusWrittenOnlyByFaults : Prop :=
  ∀ (i : Instr) (s t : State), s.faulted = false → i ≠ .reset → exec i s = .next t →
    (t.regs.status = s.regs.status ∧ t.regs.errinfo = s.regs.errinfo ∧ ∀ rd, ¬Answered t .fault rd) ∨
      ∃ e : Cause, t.regs.status = 1 + 16 * e.code.zeroExtend 32 ∧ t.regs.errinfo = cwOf i ∧
        Answered t .fault (e.code.zeroExtend 32)

/-- Every fault but `QUEUE_OVF` leaves the state of before the command, but for `STATUS` and `ERRINFO` (R246). -/
def Obligations.FaultsArePrecise : Prop :=
  ∀ (i : Instr) (s t : State), s.faulted = false → exec i s = .next t → t.faulted = true →
    t.regs.status ≠ 0x91 → ∃ e : Cause, OnlyRaised e (cwOf i) s t

/-- The nine faults have the codes 1 to 9, and a command that enters the fault state raised one of the faults listed for it
(R241, R244). -/
def Obligations.FaultCausesPerCommand : Prop :=
  [Cause.cfgWidth, .cfgWindow, .cfgChannels, .cfgBind, .cfgAxis, .emptyInput, .illegalCmd, .bufRange, .queueOvf].map
      Cause.code = [1, 2, 3, 4, 5, 6, 7, 8, 9] ∧
  ∀ (i : Instr) (s t : State), s.faulted = false → exec i s = .next t → t.faulted = true →
    ∃ e ∈ causesOf i, t.regs.status = 1 + 16 * e.code.zeroExtend 32

/-! ### Creating nodes -/

/-- `LPF.NEW` and `HPF.NEW` with a width of 1 to 15, a free slot, and a source that is well formed, external or
lower-numbered, and live, complete: the slot holds the filter with `PREV = 0`, and nothing else changes
(R22, R23, R122, R140). -/
def Obligations.FilterNewCreates : Prop :=
  ∀ (node : BitVec 4) (src : Sid) (imm : BitVec 8) (w : Width) (s : State), s.faulted = false → imm.toNat = w.val →
    s.streams.node (slotOf node) = .free → sidFormed src = true →
    (sidIsPort src = true ∨ (sidSlot src).val < node.toNat) → s.streams.live src = true →
    (∃ t, exec (.lpfNew node src imm) s = .next t ∧ t.streams.node (slotOf node) = .lpf ⟨src, w, 0⟩ ∧
      KeepsNodesBut (slotOf node) s t ∧ KeepsPorts s t ∧ t.regs = s.regs ∧ KeepsBuf s t ∧ KeepsPoints s t ∧
      KeepsOutside s t ∧ Answered t .ok 0) ∧
    (∃ t, exec (.hpfNew node src imm) s = .next t ∧ t.streams.node (slotOf node) = .hpf ⟨src, w, 0⟩ ∧
      KeepsNodesBut (slotOf node) s t ∧ KeepsPorts s t ∧ t.regs = s.regs ∧ KeepsBuf s t ∧ KeepsPoints s t ∧
      KeepsOutside s t ∧ Answered t .ok 0)

/-- `TEE.NEW` on a free slot with a usable source completes: the slot holds a tee with empty queues, and nothing else
changes (R25, R105). -/
def Obligations.TeeNewCreates : Prop :=
  ∀ (node : BitVec 4) (src : Sid) (s : State), s.faulted = false →
    s.streams.node (slotOf node) = .free → sidFormed src = true →
    (sidIsPort src = true ∨ (sidSlot src).val < node.toNat) → s.streams.live src = true →
    ∃ t, exec (.teeNew node src) s = .next t ∧ t.streams.node (slotOf node) = .tee ⟨src, [], []⟩ ∧
      KeepsNodesBut (slotOf node) s t ∧ KeepsPorts s t ∧ t.regs = s.regs ∧ KeepsBuf s t ∧ KeepsPoints s t ∧
      KeepsOutside s t ∧ Answered t .ok 0

/-- `DIL.NEW` with a channel count of 1 to 8 on a free slot with a usable source completes: the slot holds a deinterleaver
with empty queues and `DONE = 0`, and nothing else changes (R26, R150). -/
def Obligations.DilNewCreates : Prop :=
  ∀ (node : BitVec 4) (src : Sid) (imm : BitVec 8) (c : Channels) (s : State), s.faulted = false → imm.toNat = c.val →
    s.streams.node (slotOf node) = .free → sidFormed src = true →
    (sidIsPort src = true ∨ (sidSlot src).val < node.toNat) → s.streams.live src = true →
    ∃ t d, exec (.dilNew node src imm) s = .next t ∧ t.streams.node (slotOf node) = .dil d ∧
      d.src = src ∧ d.c = c ∧ d.done = false ∧ (∀ k : Fin 8, d.q[k] = []) ∧
      KeepsNodesBut (slotOf node) s t ∧ KeepsPorts s t ∧ t.regs = s.regs ∧ KeepsBuf s t ∧ KeepsPoints s t ∧
      KeepsOutside s t ∧ Answered t .ok 0

/-- `ILV.NEW` with a channel count of 1 to 8 on a free slot completes: the slot holds an interleaver with no input bound,
`FV = 0`, `PH = 0`, `DONE = 0`, and nothing else changes (R27, R154). -/
def Obligations.IlvNewCreates : Prop :=
  ∀ (node : BitVec 4) (imm : BitVec 8) (c : Channels) (s : State), s.faulted = false → imm.toNat = c.val →
    s.streams.node (slotOf node) = .free →
    ∃ t x, exec (.ilvNew node imm) s = .next t ∧ t.streams.node (slotOf node) = .ilv x ∧
      x.c = c ∧ (∀ k : Fin 8, x.src[k] = none) ∧ x.fv = false ∧ x.ph = 0 ∧ x.done = false ∧
      KeepsNodesBut (slotOf node) s t ∧ KeepsPorts s t ∧ t.regs = s.regs ∧ KeepsBuf s t ∧ KeepsPoints s t ∧
      KeepsOutside s t ∧ Answered t .ok 0

/-- `ILV.BIND` of an unbound input below `C` to a usable source completes: that input is bound, every other field and node
is as before, and nothing else changes (R27, R155). -/
def Obligations.IlvBindBinds : Prop :=
  ∀ (node aux : BitVec 4) (src : Sid) (x : IlvNode) (k : Fin 8) (s : State), s.faulted = false →
    s.streams.node (slotOf node) = .ilv x → aux.toNat = k.val → k.val < x.c.val → x.src[k] = none →
    sidFormed src = true → (sidIsPort src = true ∨ (sidSlot src).val < node.toNat) → s.streams.live src = true →
    ∃ t, exec (.ilvBind node aux src) s = .next t ∧
      t.streams.node (slotOf node) = .ilv { x with src := x.src.set k (some src) } ∧
      KeepsNodesBut (slotOf node) s t ∧ KeepsPorts s t ∧ t.regs = s.regs ∧ KeepsBuf s t ∧ KeepsPoints s t ∧
      KeepsOutside s t ∧ Answered t .ok 0

/-- The node commands fault as their rules order it: the width or the channel count first, whatever the binding; then
`CFG_BIND` for a slot in use, a source that is not usable, or an input that cannot be bound; nothing else changes
(R100, R122, R140, R150, R154, R155, R244). -/
def Obligations.NodeCommandsFault : Prop :=
  ∀ (node aux : BitVec 4) (src : Sid) (imm : BitVec 8) (s : State), s.faulted = false →
    ((imm.toNat = 0 ∨ 15 < imm.toNat) →
      (∃ t, exec (.lpfNew node src imm) s = .next t ∧ OnlyRaised .cfgWidth (cwOf (.lpfNew node src imm)) s t) ∧
      ∃ t, exec (.hpfNew node src imm) s = .next t ∧ OnlyRaised .cfgWidth (cwOf (.hpfNew node src imm)) s t) ∧
    ((imm.toNat = 0 ∨ 8 < imm.toNat) →
      (∃ t, exec (.dilNew node src imm) s = .next t ∧ OnlyRaised .cfgChannels (cwOf (.dilNew node src imm)) s t) ∧
      ∃ t, exec (.ilvNew node imm) s = .next t ∧ OnlyRaised .cfgChannels (cwOf (.ilvNew node imm)) s t) ∧
    ((s.streams.node (slotOf node) ≠ .free ∨ sidFormed src = false ∨
        (sidIsPort src = false ∧ node.toNat ≤ (sidSlot src).val) ∨ s.streams.live src = false) →
      (1 ≤ imm.toNat → imm.toNat ≤ 15 →
        (∃ t, exec (.lpfNew node src imm) s = .next t ∧ OnlyRaised .cfgBind (cwOf (.lpfNew node src imm)) s t) ∧
        ∃ t, exec (.hpfNew node src imm) s = .next t ∧ OnlyRaised .cfgBind (cwOf (.hpfNew node src imm)) s t) ∧
      (∃ t, exec (.teeNew node src) s = .next t ∧ OnlyRaised .cfgBind (cwOf (.teeNew node src)) s t) ∧
      (1 ≤ imm.toNat → imm.toNat ≤ 8 →
        ∃ t, exec (.dilNew node src imm) s = .next t ∧ OnlyRaised .cfgBind (cwOf (.dilNew node src imm)) s t)) ∧
    (s.streams.node (slotOf node) ≠ .free → 1 ≤ imm.toNat → imm.toNat ≤ 8 →
      ∃ t, exec (.ilvNew node imm) s = .next t ∧ OnlyRaised .cfgBind (cwOf (.ilvNew node imm)) s t) ∧
    (((∀ x, s.streams.node (slotOf node) ≠ .ilv x) ∨
        (∃ x, s.streams.node (slotOf node) = .ilv x ∧
          (x.c.val ≤ aux.toNat ∨ ∃ k : Fin 8, aux.toNat = k.val ∧ x.src[k] ≠ none)) ∨
        sidFormed src = false ∨ (sidIsPort src = false ∧ node.toNat ≤ (sidSlot src).val) ∨
        s.streams.live src = false) →
      ∃ t, exec (.ilvBind node aux src) s = .next t ∧ OnlyRaised .cfgBind (cwOf (.ilvBind node aux src)) s t)

/-! ### Pulling -/

/-- `NEXT` of an external port completes: a latched port answers `END`; otherwise the environment is asked once, what it
delivers is saturated, a `None` sets the latch; no node and no other port changes (R102, R104). -/
def Obligations.NextOnExternalPort : Prop :=
  ∀ (p : Fin 8) (s : State), s.faulted = false →
    ∃ t, exec (.next (portSid p)) s = .next t ∧ KeepsNodes s t ∧ KeepsPortsBut p s t ∧ t.regs = s.regs ∧
      KeepsBuf s t ∧ KeepsPoints s t ∧ KeepsOutside s t ∧
      (s.streams.xeos[p] = true → t.streams = s.streams ∧ Answered t .ended 0) ∧
      (s.streams.xeos[p] = false → t.streams.xs[p] = s.streams.xs[p].advance ∧
        ((∃ d, s.streams.xs[p].answer p = some d ∧ t.streams.xeos[p] = false ∧
            Answered t .ok (to32 (sat24 (sext32 d)))) ∨
          (s.streams.xs[p].answer p = none ∧ t.streams.xeos[p] = true ∧ Answered t .ended 0)))

/-- A stream id is well formed exactly below `0x88`; from `0x80` it is an external port, below it names node `sid / 8`; the
port is `sid mod 8`. `NEXT` of one that is not well formed or not live raises `CFG_BIND` and pulls nothing (R84, R104). -/
def Obligations.NextBadStreamFaults : Prop :=
  (∀ sid : Sid, sidFormed sid = decide (sid.toNat < 0x88) ∧ sidIsPort sid = decide (0x80 ≤ sid.toNat) ∧
    (sidPort sid).val = sid.toNat % 8 ∧ (sid.toNat < 0x80 → (sidSlot sid).val = sid.toNat / 8)) ∧
  ∀ (sid : Sid) (s : State), s.faulted = false → (sidFormed sid = false ∨ s.streams.live sid = false) →
    ∃ t, exec (.next sid) s = .next t ∧ OnlyRaised .cfgBind (cwOf (.next sid)) s t

/-- In a state whose node table is in order, with unbounded queues, `NEXT` of every usable stream completes: it answers one
stream element, in range, or `END`, and touches neither registers, buffer nor points (R28, R101, R104, R110). -/
def Obligations.NextCompletes : Prop :=
  ∀ (sid : Sid) (s : State), GraphInv s → s.faulted = false → s.params.qdepth = .unbounded → sidFormed sid = true →
    s.streams.live sid = true →
    ∃ t, exec (.next sid) s = .next t ∧ t.regs = s.regs ∧ KeepsBuf s t ∧ KeepsPoints s t ∧ KeepsOutside s t ∧
      (Answered t .ended 0 ∨ ∃ v : Int, IsElement v ∧ Answered t .ok (to32 v))

/-- A `NEXT` touches only what is upstream of the stream it names: a node no stream of which feeds that stream, and a port
that does not feed it, are unchanged; of the registers only `STATUS` and `ERRINFO` can change (by `QUEUE_OVF`); and in a
node table in order upstream means lower-numbered (R29, R91, R100). -/
def Obligations.NextTouchesOnlyUpstream : Prop :=
  ∀ (sid : Sid) (s t : State), s.faulted = false → exec (.next sid) s = .next t →
    (∀ m : Fin 16, (∀ r : Sid, Feeds s.streams sid r → sidIsPort r = false → sidSlot r ≠ m) →
      t.streams.node m = s.streams.node m) ∧
    (∀ p : Fin 8, (∀ r : Sid, Feeds s.streams sid r → sidIsPort r = true → sidPort r ≠ p) →
      t.streams.xeos[p] = s.streams.xeos[p] ∧ t.streams.xs[p] = s.streams.xs[p]) ∧
    (GraphInv s → ∀ m : Fin 16, (sidIsPort sid = true ∨ (sidSlot sid).val < m.val) →
      t.streams.node m = s.streams.node m) ∧
    t.regs = { s.regs with status := t.regs.status, errinfo := t.regs.errinfo } ∧ KeepsBuf s t ∧ KeepsPoints s t ∧
    KeepsOutside s t

/-- Once a `NEXT` of a stream has answered `END`, every later `NEXT` of it, whatever commands but a reset come between,
answers `END`, asks the environment nothing, and changes no state: R103 for pulls by `NEXT`. -/
def Obligations.ExhaustedStreamStaysExhausted : Prop :=
  ∀ (sid : Sid) (s t u : State) (between : List Instr), GraphInv s → s.faulted = false →
    exec (.next sid) s = .next t → Answered t .ended 0 → .reset ∉ between → issue between t = some u →
    u.faulted = false → exec (.next sid) u = .next { u with resp := some ⟨.ended, 0⟩ }

/-- `QUEUE_OVF` of a pull whose element must be queued where there is no room. A tee, on either side, over an external port
or over any origin of which `NEXT` would deliver an element, whose other side is full: the element has been drawn and is
lost, the queues keep what they held. A deinterleaver with no backlog on the port pulled, over any source of which as many
`NEXT` as it has channels would each deliver an element, with another channel full: the frame has been drawn, the channels
before the first full one have their element, the others and the port pulled do not. `STATUS` and `ERRINFO` record the fault
(R106, R110, R151, R246). -/
def Obligations.QueueOverflowFaults : Prop :=
  (∀ (n : Fin 16) (p : Fin 8) (side : Fin 8) (x : TeeNode) (d : Word) (ws : List Word) (below : Nat) (s : State),
    s.faulted = false → s.params.qdepth = .samples below → s.streams.node n = .tee x → x.src = portSid p →
    (side = 0 ∧ x.qa = [] ∧ x.qb.length = below + 1 ∨ side = 1 ∧ x.qb = [] ∧ x.qa.length = below + 1) →
    Behind s p (d :: ws) →
    ∃ t, exec (.next (nodeSid n side)) s = .next t ∧ Overflowed (nodeSid n side) s t ∧ KeepsNodes s t ∧
      KeepsPortsBut p s t ∧ Behind t p ws) ∧
  (∀ (n : Fin 16) (side : Fin 8) (x : TeeNode) (rd : Word) (below : Nat) (s u : State), GraphInv s →
    s.faulted = false → s.params.qdepth = .samples below → s.streams.node n = .tee x →
    (side = 0 ∧ x.qa = [] ∧ x.qb.length = below + 1 ∨ side = 1 ∧ x.qb = [] ∧ x.qa.length = below + 1) →
    exec (.next x.src) s = .next u → Answered u .ok rd →
    ∃ t, exec (.next (nodeSid n side)) s = .next t ∧ Overflowed (nodeSid n side) s t ∧ t.streams = u.streams ∧
      t.streams.node n = .tee x) ∧
  (∀ (n : Fin 16) (c k : Fin 8) (d : DilNode) (frame : List Int) (below : Nat) (s u : State), GraphInv s →
    s.faulted = false → s.params.qdepth = .samples below → s.streams.node n = .dil d → d.done = false →
    c.val < d.c.val → d.q[c] = [] → k.val < d.c.val → k ≠ c → d.q[k].length = below + 1 →
    (∀ j : Fin 8, j.val < k.val → j ≠ c → d.q[j].length < below + 1) →
    collect (List.replicate d.c.val d.src) s = some (frame.map some, u) →
    ∃ t d', exec (.next (nodeSid n c)) s = .next t ∧ Overflowed (nodeSid n c) s t ∧
      t.streams.node n = .dil d' ∧ d'.src = d.src ∧ d'.c = d.c ∧ d'.done = false ∧
      (∀ j : Fin 8, d'.q[j] = if j.val < k.val ∧ j ≠ c then d.q[j] ++ [(frame[j.val]?).getD 0] else d.q[j]) ∧
      KeepsNodesBut n u t ∧ KeepsPorts u t)

/-- A low-pass node fed by an external port with a finite sequence behind it delivers exactly one output per input, each the weighted average of the
saturated input and the output before it, and then `END` (R120, R123, R124). -/
def Obligations.LowPassSequence : Prop :=
  ∀ (n : Fin 16) (p : Fin 8) (w : Width) (prev : Int) (ws : List Word) (k : Nat) (s : State), s.faulted = false →
    IsSample prev → Behind s p ws → s.streams.node n = .lpf ⟨portSid p, w, prev⟩ →
    ∃ t, collect (List.replicate k (nodeSid n 0)) s =
      some ((List.range k).map fun j => (smoothed w prev (samplesOf ws))[j]?, t)

/-- A low-pass and a high-pass node of one width, both started from 0 and fed by two external ports with the same finite
sequence behind them, deliver outputs whose sum is the saturated input at every index (R144). -/
def Obligations.ReconstructionLaw : Prop :=
  ∀ (a b : Fin 16) (p q : Fin 8) (w : Width) (ws : List Word) (s : State), s.faulted = false → p ≠ q →
    Behind s p ws → Behind s q ws → s.streams.node a = .lpf ⟨portSid p, w, 0⟩ →
    s.streams.node b = .hpf ⟨portSid q, w, 0⟩ →
    ∃ lows highs t u, collect (List.replicate ws.length (nodeSid a 0)) s = some (List.map some lows, t) ∧
      collect (List.replicate ws.length (nodeSid b 0)) t = some (List.map some highs, u) ∧
      lows.length = ws.length ∧ highs.length = ws.length ∧ List.zipWith (· + ·) lows highs = samplesOf ws

/-- Tee law, for an external port with a finite sequence behind it as the origin and unbounded queues: whatever the order in
which the two sides are pulled, each side delivers the origin's sequence from its start, element for element, and then `END`
(R106, R107, R109). -/
def Obligations.TeeLaw : Prop :=
  ∀ (n : Fin 16) (p : Fin 8) (ws : List Word) (sides : List Bool) (s : State), s.faulted = false →
    s.params.qdepth = .unbounded → Behind s p ws → s.streams.node n = .tee ⟨portSid p, [], []⟩ →
    ∃ outs t, collect (sides.map fun b => nodeSid n (if b then 1 else 0)) s = some (outs, t) ∧
      ∀ b : Bool, ((sides.zip outs).filter (·.1 == b)).map Prod.snd =
        (List.range (sides.count b)).map fun j => (samplesOf ws)[j]?

/-- Deinterleave law, for an external port with a finite sequence behind it as the source and unbounded queues: whatever the
order in which the ports are pulled, port `k` delivers the elements at positions `k, k+C, k+2C, ...` of the whole frames of the input, and then `END` (R151, R152, R153). -/
def Obligations.DeinterleaveLaw : Prop :=
  ∀ (n : Fin 16) (p : Fin 8) (c : Channels) (ws : List Word) (ports : List (Fin 8)) (s : State), s.faulted = false →
    s.params.qdepth = .unbounded → Behind s p ws →
    s.streams.node n = .dil ⟨portSid p, c, Vector.replicate 8 [], false⟩ → (∀ k ∈ ports, k.val < c.val) →
    ∃ outs t, collect (ports.map (nodeSid n)) s = some (outs, t) ∧
      ∀ k : Fin 8, ((ports.zip outs).filter (·.1 == k)).map Prod.snd =
        (List.range (ports.count k)).map fun j =>
          if j < ws.length / c.val then (samplesOf ws)[j * c.val + k.val]? else none

/-- Round trip: an interleaver whose inputs are bound directly and in order to the ports of a deinterleaver with as many
channels, itself fed by an external port with a finite sequence behind it, delivers the whole frames of the deinterleaver's input, unchanged and in order, and then `END`, whatever the queue depth
(R151, R157, R159). -/
def Obligations.InterleaveRoundTrip : Prop :=
  ∀ (a b : Fin 16) (p : Fin 8) (c : Channels) (x : IlvNode) (ws : List Word) (k : Nat) (s : State), s.faulted = false →
    Behind s p ws → s.streams.node a = .dil ⟨portSid p, c, Vector.replicate 8 [], false⟩ →
    s.streams.node b = .ilv x → x.c = c → x.fv = false → x.done = false →
    (∀ j : Fin 8, j.val < c.val → x.src[j] = some (nodeSid a j)) →
    ∃ t, collect (List.replicate k (nodeSid b 0)) s =
      some ((List.range k).map fun j => ((samplesOf ws).take (ws.length / c.val * c.val))[j]?, t)

/-! ### Numerics -/

/-- `sat24` clamps to the sample domain: the bounds outside it, the value itself inside; `-2^23` is outside (R8). -/
def Obligations.Sat24Clamps : Prop :=
  (∀ z : Int, (z < -8388607 → sat24 z = -8388607) ∧ (8388607 < z → sat24 z = 8388607) ∧
    (-8388607 ≤ z → z ≤ 8388607 → sat24 z = z)) ∧ sat24 (-8388608) = -8388607

/-- The weighted average of two samples is no larger in magnitude than the larger of them (R125). -/
def Obligations.WavgRange : Prop :=
  ∀ (x p : Int) (w : Width), IsSample x → IsSample p → |wavg x p w| ≤ max |x| |p|

/-- With a width of 7 or more the filter stays at 0 for every sample (R127). -/
def Obligations.WideFilterIsSilent : Prop :=
  ∀ (x : Int) (w : Width), IsSample x → 7 ≤ w.val → wavg x 0 w = 0

/-- The two tables hold the binary64 values nearest `10^-w` and `1 - 10^-w`, the second also nearest `1 - RATIO(w)`, and
all of them lie strictly between 0 and 1 (R121). -/
def Obligations.RatioTablesAreRounded : Prop :=
  ∀ w : Width, ratio w = fl64 (1 / 10 ^ w.val) ∧ om w = fl64 (1 - 1 / 10 ^ w.val) ∧ om w = fl64 (1 - ratio w) ∧
    0 < ratio w ∧ ratio w < 1 ∧ 0 < om w ∧ om w < 1

/-- `fl32` rounds to nearest, ties to even: where the result is finite, no finite pattern is nearer, and one of another
value that is as near leaves the result with an even significand (R9). -/
def Obligations.Fl32IsNearest : Prop :=
  ∀ (q : ℚ) (v : Word), isFinite32 (fl32 q) = true → isFinite32 v = true →
    |q - val32 (fl32 q)| ≤ |q - val32 v| ∧
      (|q - val32 (fl32 q)| = |q - val32 v| → val32 v ≠ val32 (fl32 q) → (fl32 q).getLsbD 0 = false)

/-- `fl32` of the value of a finite pattern is the pattern, `-0` excepted, whose value rounds to `+0` (R9, R229). -/
def Obligations.Fl32OfPattern : Prop :=
  ∀ v : Word, isFinite32 v = true → fl32 (val32 v) = if v = 0x80000000 then 0 else v

/-! ### The analyzer -/

/-- A `SPA.RUN` with legal registers over written words completes: with `H = W/2` and `T = ceil(N/H)` it stores 0 points if
`T = 1` and `H*(2*T - 3)` otherwise, counts them in `SPA_NPTS`, answers the count, and changes nothing else
(R171, R173). -/
def Obligations.SpaRunCompletes : Prop :=
  ∀ s : State, s.faulted = false → LegalRun s → RangeWritten s →
    ∃ t, exec .spaRun s = .next t ∧
      (let h := s.regs.spaW.toNat / 2
       let steps := (s.regs.spaN.toNat + h - 1) / h
       t.pts.length = if steps = 1 then 0 else h * (2 * steps - 3)) ∧
      t.pts.length < 2 * s.regs.spaN.toNat ∧ t.regs = { s.regs with spaNpts := BitVec.ofNat 32 t.pts.length } ∧
      Answered t .ok (BitVec.ofNat 32 t.pts.length) ∧ t.streams = s.streams ∧ KeepsBuf s t ∧ t.picks = s.picks ∧
      KeepsOutside s t

/-- The points a `SPA.RUN` stores, in some order and each as often as it arises: one for each time index `i` below `N` that
is a multiple of `W/2` and each shifted bin `k` of its window, of length `L = min(i, W)` (none if `L = 0`), with tag `i`, the
frequency of `k` rounded once, and the magnitude of natural bin `(k + ceil(L/2)) mod L` of the window's own `L` samples
(R171, R172, R176, R177, R179, R180). -/
def Obligations.SpaRunPoints : Prop :=
  ∀ s t : State, s.faulted = false → LegalRun s → RangeWritten s → exec .spaRun s = .next t →
    List.Perm t.pts
      (((List.range s.regs.spaN.toNat).filter fun i => i % (s.regs.spaW.toNat / 2) == 0).flatMap fun i : Nat =>
        let len : Nat := min i s.regs.spaW.toNat
        (List.range len).map fun k : Nat =>
          ⟨BitVec.ofNat 32 i, fl32 (((k : ℚ) - (len / 2 : Nat)) * s.regs.spaR.toNat / len),
            spaMag.bin (windowAt s.buf s.regs.spaW.toNat i) ((k + (len + 1) / 2) % len)⟩)

/-- `SPA.RUN` faults in the order `CFG_WINDOW`, `EMPTY_INPUT`, `BUF_RANGE`, and a fault changes nothing else
(R171, R244). -/
def Obligations.SpaRunFaults : Prop :=
  ∀ s : State, s.faulted = false →
    ((∀ k : Nat, 1 ≤ k → s.regs.spaW.toNat ≠ 2 ^ k) →
      ∃ t, exec .spaRun s = .next t ∧ OnlyRaised .cfgWindow 0x10000000 s t) ∧
    ((∃ k : Nat, 1 ≤ k ∧ s.regs.spaW.toNat = 2 ^ k) →
      (s.regs.spaN = 0 → ∃ t, exec .spaRun s = .next t ∧ OnlyRaised .emptyInput 0x10000000 s t) ∧
      (s.params.bufDepth < s.regs.spaN.toNat →
        ∃ t, exec .spaRun s = .next t ∧ OnlyRaised .bufRange 0x10000000 s t))

/-- THE MODEL'S CHOICE (notes/assumptions/7.md, DEDUCED): `BUF.RD` of a word of the buffer that nothing has written stops by
name, and so does a `SPA.RUN` that reads one, here at the first word of its first window. R276 puts such a read outside the
spec and forbids a model to give the word a value; it does not say that the block stops, and the block raises no fault. -/
def Obligations.UnwrittenWordStops : Prop :=
  (∀ (addr : Addr) (s : State), s.faulted = false → addr.toNat < s.params.bufDepth → s.buf.read addr.toNat = none →
    exec (.bufRd addr) s = .fault (.unwrittenBufWord addr.toNat)) ∧
    ∀ s : State, s.faulted = false → LegalRun s → s.regs.spaW.toNat / 2 < s.regs.spaN.toNat →
      s.buf.read 0 = none → exec .spaRun s = .fault (.unwrittenBufWord 0)

/-- If every analyzed word is 0, every magnitude delivered is exactly `+0`, whatever the implementation's magnitude
numerics (R178). -/
def Obligations.ZeroBufferGivesZeroMagnitudes : Prop :=
  ∀ s t : State, s.faulted = false → LegalRun s → (∀ a : Nat, a < s.regs.spaN.toNat → s.buf.read a = some 0) →
    exec .spaRun s = .next t → ∀ pt ∈ t.pts, pt.mag = 0

/-- `FFTSHIFT` puts natural entry `(k + ceil(L/2)) mod L` at shifted index `k`, so the zero-frequency entry lands at
`floor(L/2)` (R176). -/
def Obligations.FftShiftCentres : Prop :=
  ∀ (α : Type) (v : List α), (fftShift v).length = v.length ∧
    (∀ k : Nat, k < v.length → (fftShift v)[k]? = v[(k + (v.length + 1) / 2) % v.length]?) ∧
    (v ≠ [] → (fftShift v)[v.length / 2]? = v[0]?)

/-- The exact magnitude is the root of the sum of the squares of the two parts of the transform, and at most the sum of the
absolute samples; bin 0 is the absolute sum of the samples; bins `b` and
`L - b` agree; a window of one sample has its absolute value; a window of zeros has magnitude 0 (R175). -/
def Obligations.ExactMagnitudeFacts : Prop :=
  ∀ w : List Int, (∀ b : Nat, exactMag w b = Real.sqrt (dftRe w b ^ 2 + dftIm w b ^ 2)) ∧
    (∀ b : Nat, 0 ≤ exactMag w b ∧ exactMag w b ≤ ((w.map Int.natAbs).sum : Nat)) ∧
    exactMag w 0 = |((w.sum : Int) : ℝ)| ∧ (∀ b : Nat, 1 ≤ b → b < w.length → exactMag w b = exactMag w (w.length - b)) ∧
    (∀ x : Int, w = [x] → exactMag w 0 = |(x : ℝ)|) ∧ ((∀ x ∈ w, x = 0) → ∀ b : Nat, exactMag w b = 0)

/-- A window that is exactly a sinusoid of amplitude `A` at bin `j` has magnitude `A*L/2` in bins `j` and `L - j` and 0 in
every other bin (R184). -/
def Obligations.SinusoidEnergy : Prop :=
  ∀ (w : List Int) (amp phase : ℝ) (j : Nat), 0 ≤ amp → 0 < j → 2 * j < w.length →
    (∀ n : Fin w.length, (w.get n : ℝ) = amp * Real.sin (2 * Real.pi * j * n / w.length + phase)) →
    exactMag w j = amp * w.length / 2 ∧ exactMag w (w.length - j) = amp * w.length / 2 ∧
      ∀ b : Nat, b < w.length → b ≠ j → b ≠ w.length - j → exactMag w b = 0

/-- `SPA.NEXT` completes: with no point left it answers `END` and changes nothing; otherwise some point of the store is
delivered in `PT_IDX`, `PT_FREQ` and `PT_MAG`, removed, and counted off in `SPA_NPTS`, its tag is the answer, and nothing
else changes. Which point it is stays open (R181). -/
def Obligations.SpaNextDelivers : Prop :=
  ∀ s : State, s.faulted = false →
    (s.pts = [] → exec .spaNext s = .next { s with resp := some ⟨.ended, 0⟩ }) ∧
    (s.pts ≠ [] → ∃ t pt, exec .spaNext s = .next t ∧ List.Perm s.pts (pt :: t.pts) ∧
      t.regs = { s.regs with ptIdx := pt.idx, ptFreq := pt.freq, ptMag := pt.mag, spaNpts := s.regs.spaNpts - 1 } ∧
      Answered t .ok pt.idx ∧ t.streams = s.streams ∧ KeepsBuf s t ∧ KeepsOutside s t)

/-! ### The axis generator -/

/-- `AXIS.NEW` with finite operands, a positive step, and neither the difference nor the quotient out of range completes:
`AX_COUNT` is the floor of the rounded quotient of the rounded difference, 0 if that is not positive, `AX_POS` is 0, and
nothing else changes (R201). -/
def Obligations.AxisNewCompletes : Prop :=
  ∀ s : State, s.faulted = false → isFinite32 s.regs.axStart = true → isFinite32 s.regs.axEnd = true →
    isFinite32 s.regs.axStep = true → 0 < val32 s.regs.axStep →
    (let d := fl32 (val32 s.regs.axEnd - val32 s.regs.axStart)
     let q := fl32 (val32 d / val32 s.regs.axStep)
     isInf32 d = false → isInf32 q = false → val32 q < 2 ^ 32 →
      ∃ t, exec .axisNew s = .next t ∧
        (let count : Word := if 0 < val32 q then BitVec.ofNat 32 ⌊val32 q⌋₊ else 0
         t.regs = { s.regs with axCount := count, axPos := 0 } ∧ Answered t .ok count) ∧
        t.streams = s.streams ∧ KeepsBuf s t ∧ KeepsPoints s t ∧ KeepsOutside s t)

/-- `AXIS.NEW` raises `EMPTY_INPUT` for an operand that is not finite, before anything else; then `CFG_AXIS` for a step that
is not positive, a difference or a quotient that overflows, or a quotient of `2^32` or more; a fault changes nothing else
(R201, R244). -/
def Obligations.AxisNewFaults : Prop :=
  ∀ s : State, s.faulted = false →
    let finite := isFinite32 s.regs.axStart = true ∧ isFinite32 s.regs.axEnd = true ∧ isFinite32 s.regs.axStep = true
    let d := fl32 (val32 s.regs.axEnd - val32 s.regs.axStart)
    let q := fl32 (val32 d / val32 s.regs.axStep)
    (¬finite → ∃ t, exec .axisNew s = .next t ∧ OnlyRaised .emptyInput 0x12000000 s t) ∧
      (finite → (val32 s.regs.axStep ≤ 0 ∨ isInf32 d = true ∨ isInf32 q = true ∨ 2 ^ 32 ≤ val32 q) →
        ∃ t, exec .axisNew s = .next t ∧ OnlyRaised .cfgAxis 0x12000000 s t)

/-- `AXIS.NEXT` completes: at the end of the axis it answers `END` and changes nothing; otherwise the term
`fl32(start + fl32(fl32(k)*step))` is the answer and `AX_POS` moves on, or, if a rounding overflows, `CFG_AXIS` is raised
and nothing else changes (R203). -/
def Obligations.AxisNextCompletes : Prop :=
  ∀ s : State, s.faulted = false →
    let p := fl32 (val32 (fl32 (s.regs.axPos.toNat : ℚ)) * val32 s.regs.axStep)
    let v := fl32 (val32 s.regs.axStart + val32 p)
    (s.regs.axCount.toNat ≤ s.regs.axPos.toNat → exec .axisNext s = .next { s with resp := some ⟨.ended, 0⟩ }) ∧
      (s.regs.axPos.toNat < s.regs.axCount.toNat → isInf32 p = false → isInf32 v = false →
        ∃ t, exec .axisNext s = .next t ∧ t.regs = { s.regs with axPos := s.regs.axPos + 1 } ∧ Answered t .ok v ∧
          t.streams = s.streams ∧ KeepsBuf s t ∧ KeepsPoints s t ∧ KeepsOutside s t) ∧
      (s.regs.axPos.toNat < s.regs.axCount.toNat → (isInf32 p = true ∨ isInf32 v = true) →
        ∃ t, exec .axisNext s = .next t ∧ OnlyRaised .cfgAxis 0x13000000 s t)

/-- The terms of an axis with finite operands and a positive step never decrease (R205). -/
def Obligations.AxisTermsNonDecreasing : Prop :=
  ∀ (start step : Word) (j k : Nat) (u v : Word), isFinite32 start = true → isFinite32 step = true → 0 < val32 step →
    j ≤ k → axisTerm start step j = some u → axisTerm start step k = some v →
    isFinite32 u = true ∧ val32 u ≤ val32 v

/-- For a power of two `L` of at least 2 and a positive rate `R` with `L*R <= 2^24`, the axis from `-R/2` to `R/2` in steps
of `R/L` has `L` terms, and term `k` has the bit pattern of the frequency the analyzer attaches to shifted bin `k` of a
window of length `L`; a rate of 0 is left out, since its step of 0 is one that `AXIS.NEW` rejects (R177, R201, R203, R206). -/
def Obligations.AxisAgreesWithAnalyzer : Prop :=
  ∀ (e rate k : Nat), 1 ≤ e → 1 ≤ rate → 2 ^ e * rate ≤ 2 ^ 24 → k < 2 ^ e →
    axisCount (fl32 (-(rate : ℚ) / 2)) (fl32 ((rate : ℚ) / 2)) (fl32 ((rate : ℚ) / (2 ^ e : Nat))) = some (2 ^ e) ∧
      axisTerm (fl32 (-(rate : ℚ) / 2)) (fl32 ((rate : ℚ) / (2 ^ e : Nat))) k = some (fl32 (freq k (2 ^ e) rate))

/-! ### Buffer and registers -/

/-- `BUF.WR` completes below `BUFDEPTH`: the word reads as the saturated data word, every other word reads as before, and
nothing else changes; from `BUFDEPTH` on it raises `BUF_RANGE` and writes nothing (R216). -/
def Obligations.BufWrStores : Prop :=
  ∀ (addr : Addr) (wd : Word) (s : State), s.faulted = false →
    (addr.toNat < s.params.bufDepth →
      ∃ t, exec (.bufWr addr wd) s = .next t ∧ t.buf.read addr.toNat = some (sat24 (sext32 wd)) ∧
        (∀ a : Nat, a ≠ addr.toNat → t.buf.read a = s.buf.read a) ∧ t.streams = s.streams ∧ t.regs = s.regs ∧
        KeepsPoints s t ∧ KeepsOutside s t ∧ Answered t .ok 0) ∧
    (s.params.bufDepth ≤ addr.toNat →
      ∃ t, exec (.bufWr addr wd) s = .next t ∧ OnlyRaised .bufRange (cwOf (.bufWr addr wd)) s t)

/-- `BUF.RD` of a written word completes: the answer is the word, sign-extended, and nothing changes; from `BUFDEPTH` on it
raises `BUF_RANGE` (R217). -/
def Obligations.BufRdReads : Prop :=
  ∀ (addr : Addr) (s : State), s.faulted = false →
    (∀ v : Int, addr.toNat < s.params.bufDepth → s.buf.read addr.toNat = some v →
      exec (.bufRd addr) s = .next { s with resp := some ⟨.ok, to32 v⟩ }) ∧
    (s.params.bufDepth ≤ addr.toNat →
      ∃ t, exec (.bufRd addr) s = .next t ∧ OnlyRaised .bufRange (cwOf (.bufRd addr)) s t)

/-- `REG.WR` of a writable register completes: the register of that number in the order of R33's table holds the data word as
it stands, and every other register is as before, but that writing an axis operand clears `AX_COUNT` (0x0C) and `AX_POS`
(0x0D); every other register number raises `ILLEGAL_CMD` and nothing is written (R33, R204, R218). -/
def Obligations.RegWrWrites : Prop :=
  ∀ (regno : BitVec 8) (wd : Word) (s : State), s.faulted = false →
    (∀ n : RegName, regOf regno = some n → regno.toNat ∈ [2, 3, 4, 9, 10, 11] →
      ∃ t, exec (.regWr regno wd) s = .next t ∧ t.regs.get n = wd ∧
        t.regs.inOrder = (if regno.toNat < 9 then s.regs.inOrder.set regno.toNat wd
          else ((s.regs.inOrder.set regno.toNat wd).set 0x0C 0).set 0x0D 0) ∧
        (9 ≤ regno.toNat → t.regs.axCount = 0 ∧ t.regs.axPos = 0) ∧
        (∀ m : RegName, m ≠ n → (m ≠ .axCount ∧ m ≠ .axPos ∨ regno.toNat < 9) → t.regs.get m = s.regs.get m) ∧
        t.streams = s.streams ∧ KeepsBuf s t ∧ KeepsPoints s t ∧ KeepsOutside s t ∧ Answered t .ok 0) ∧
    (regno.toNat ∈ [2, 3, 4, 9, 10, 11] → ∃ n : RegName, regOf regno = some n) ∧
    (regno.toNat ∉ [2, 3, 4, 9, 10, 11] →
      ∃ t, exec (.regWr regno wd) s = .next t ∧ OnlyRaised .illegalCmd (cwOf (.regWr regno wd)) s t)

/-- `REG.RD` of registers 0x00 to 0x0D completes in every state, the fault state too: the answer is the register of that
number, `STATUS`, `ERRINFO`, `SPA_N`, `SPA_W`, `SPA_R`, `SPA_NPTS`, `PT_IDX`, `PT_FREQ`, `PT_MAG`, `AX_START`, `AX_END`,
`AX_STEP`, `AX_COUNT`, `AX_POS` from 0x00 on, and nothing changes; a higher number raises `ILLEGAL_CMD` outside the fault
state (R33, R219, R247). -/
def Obligations.RegRdReads : Prop :=
  ∀ (regno : BitVec 8) (s : State),
    (∀ v : Word,
      [s.regs.status, s.regs.errinfo, s.regs.spaN, s.regs.spaW, s.regs.spaR, s.regs.spaNpts, s.regs.ptIdx, s.regs.ptFreq,
        s.regs.ptMag, s.regs.axStart, s.regs.axEnd, s.regs.axStep, s.regs.axCount, s.regs.axPos][regno.toNat]? = some v →
      exec (.regRd regno) s = .next { s with resp := some ⟨.ok, v⟩ }) ∧
    [0x00#8, 0x01, 0x02, 0x03, 0x04, 0x05, 0x06, 0x07, 0x08, 0x09, 0x0A, 0x0B, 0x0C, 0x0D].map regOf =
      [some .status, some .errinfo, some .spaN, some .spaW, some .spaR, some .spaNpts, some .ptIdx, some .ptFreq,
        some .ptMag, some .axStart, some .axEnd, some .axStep, some .axCount, some .axPos] ∧
    (∀ n : RegName, regOf regno = some n → exec (.regRd regno) s = .next { s with resp := some ⟨.ok, s.regs.get n⟩ }) ∧
    (regno.toNat ≤ 0x0D → ∃ n : RegName, regOf regno = some n) ∧
    (0x0D < regno.toNat → s.faulted = false →
      ∃ t, exec (.regRd regno) s = .next t ∧ OnlyRaised .illegalCmd (cwOf (.regRd regno)) s t)

/-! ### Invariants of every step -/

/-- Every step keeps the node table in order: sources well formed, live and lower-numbered or external; `PREV` a sample;
queued elements in range, queues within `QDEPTH`; at most one queue of a tee non-empty; `PH` below `C` and 0 while
`FV = 0` (R22 to R28, R100, R108, R125). -/
def Obligations.StepKeepsGraphInvariant : Prop :=
  ∀ s t : State, GraphInv s → step s = .next t → GraphInv t

/-- Every step keeps the buffer in canonical form, inside `BUFDEPTH`, and holding samples only (R48). -/
def Obligations.StepKeepsBufferInvariant : Prop :=
  ∀ s t : State, BufInv s → step s = .next t → BufInv t

/-- Every step keeps the registers in order: `STATUS` and `ERRINFO` both 0 or `STATUS` that of a fault, `AX_POS` at most
`AX_COUNT` with the operands that gave it, `SPA_NPTS` the number of points, every magnitude finite and not negative, every
frequency finite (R34, R35, R39, R42, R47, R49, R204, R229). -/
def Obligations.StepKeepsRegisterInvariant : Prop :=
  ∀ s t : State, BufInv s → StatusInv s → AxisInv s → PointCountInv s → PointValueInv s → step s = .next t →
    StatusInv t ∧ AxisInv t ∧ PointCountInv t ∧ PointValueInv t

/-- Every run from a state in which the invariant holds is safe: however long it is, it goes on to a next state, or stops at
the read of a buffer word that nothing has written; no pull ever meets a dead source (R91, R100), and no command is without a
meaning. Both stops are THE MODEL'S CHOICE: the allowed one at an unwritten word (notes/assumptions/7.md), where R276 has no
stop but puts the read outside the spec, and the one at a dead source (notes/assumptions/8.md), which is ruled out here. -/
def Obligations.EveryRunIsSafe : Prop :=
  ∀ (k : Nat) (s : State), Inv s → SafeRun k s
end

