-- ==== Sys2Proof/Laws/Decode.lean ====
section
/-! SUPPORT. The fields of a packed command word (spec 30_encoding R81). -/

namespace Sys2Proof

theorem cwOp_packN (op : BitVec 8) (node aux : BitVec 4) (src imm : BitVec 8) :
    cwOp (packN op node aux src imm) = op := by
  apply BitVec.eq_of_getLsbD_eq; intro k hk
  simp only [cwOp, packN, BitVec.getLsbD_append, BitVec.getLsbD_extractLsb', hk]; grind

theorem cwNode_packN (op : BitVec 8) (node aux : BitVec 4) (src imm : BitVec 8) :
    cwNode (packN op node aux src imm) = node := by
  apply BitVec.eq_of_getLsbD_eq; intro k hk
  simp only [cwNode, packN, BitVec.getLsbD_append, BitVec.getLsbD_extractLsb', hk]; grind

theorem cwAux_packN (op : BitVec 8) (node aux : BitVec 4) (src imm : BitVec 8) :
    cwAux (packN op node aux src imm) = aux := by
  apply BitVec.eq_of_getLsbD_eq; intro k hk
  simp only [cwAux, packN, BitVec.getLsbD_append, BitVec.getLsbD_extractLsb', hk]; grind

theorem cwSrc_packN (op : BitVec 8) (node aux : BitVec 4) (src imm : BitVec 8) :
    cwSrc (packN op node aux src imm) = src := by
  apply BitVec.eq_of_getLsbD_eq; intro k hk
  simp only [cwSrc, packN, BitVec.getLsbD_append, BitVec.getLsbD_extractLsb', hk]; grind

theorem cwImm_packN (op : BitVec 8) (node aux : BitVec 4) (src imm : BitVec 8) :
    cwImm (packN op node aux src imm) = imm := by
  apply BitVec.eq_of_getLsbD_eq; intro k hk
  simp only [cwImm, packN, BitVec.getLsbD_append, BitVec.getLsbD_extractLsb', hk]; grind

theorem cwOp_packA (op : BitVec 8) (addr : Addr) : cwOp (packA op addr) = op := by
  apply BitVec.eq_of_getLsbD_eq; intro k hk
  simp only [cwOp, packA, BitVec.getLsbD_append, BitVec.getLsbD_extractLsb', hk]; grind

theorem cwAddr_packA (op : BitVec 8) (addr : Addr) : cwAddr (packA op addr) = addr := by
  apply BitVec.eq_of_getLsbD_eq; intro k hk
  simp only [cwAddr, packA, BitVec.getLsbD_append, BitVec.getLsbD_extractLsb', hk]; grind

/-- A command word is put together from its opcode and its address field. -/
theorem packA_fields (cw : Word) : packA (cwOp cw) (cwAddr cw) = cw := by
  apply BitVec.eq_of_getLsbD_eq; intro k hk
  simp only [cwOp, cwAddr, packA, BitVec.getLsbD_append, BitVec.getLsbD_extractLsb']
  grind

/-- A command word is put together from its five fields. -/
theorem packN_fields (cw : Word) : packN (cwOp cw) (cwNode cw) (cwAux cw) (cwSrc cw) (cwImm cw) = cw := by
  apply BitVec.eq_of_getLsbD_eq; intro k hk
  simp only [cwOp, cwNode, cwAux, cwSrc, cwImm, packN, BitVec.getLsbD_append, BitVec.getLsbD_extractLsb']
  grind

/-- A packed command word is a given word exactly when every field is. -/
theorem packN_eq_iff (op : BitVec 8) (node aux : BitVec 4) (src imm : BitVec 8) (cw : Word) :
    packN op node aux src imm = cw ↔
      op = cwOp cw ∧ node = cwNode cw ∧ aux = cwAux cw ∧ src = cwSrc cw ∧ imm = cwImm cw := by
  constructor
  · rintro rfl
    exact ⟨(cwOp_packN ..).symm, (cwNode_packN ..).symm, (cwAux_packN ..).symm, (cwSrc_packN ..).symm,
      (cwImm_packN ..).symm⟩
  · rintro ⟨rfl, rfl, rfl, rfl, rfl⟩
    exact packN_fields cw

/-- Masking a packed command word masks its fields. -/
theorem packN_and (op : BitVec 8) (node aux : BitVec 4) (src imm : BitVec 8) (m : Word) :
    packN op node aux src imm &&& m =
      packN (op &&& cwOp m) (node &&& cwNode m) (aux &&& cwAux m) (src &&& cwSrc m) (imm &&& cwImm m) := by
  conv_lhs => rw [← packN_fields m]
  apply BitVec.eq_of_getLsbD_eq
  intro k hk
  simp only [packN, BitVec.getLsbD_append, BitVec.getLsbD_and]
  grind

/-- A packed command word matches a row exactly when each field does. -/
theorem matches_packN (op : BitVec 8) (node aux : BitVec 4) (src imm : BitVec 8) (r : Row) :
    r.matches (packN op node aux src imm) = true ↔
      op &&& cwOp r.mask = cwOp r.value ∧ node &&& cwNode r.mask = cwNode r.value ∧
        aux &&& cwAux r.mask = cwAux r.value ∧ src &&& cwSrc r.mask = cwSrc r.value ∧
          imm &&& cwImm r.mask = cwImm r.value := by
  rw [Row.matches, beq_iff_eq, packN_and, packN_eq_iff]

/-- An A-format command word is an N-format one whose fields are the parts of the address. -/
theorem packA_eq_packN (op : BitVec 8) (addr : Addr) :
    packA op addr = packN op (addr.extractLsb' 20 4) (addr.extractLsb' 16 4) (addr.extractLsb' 8 8)
      (addr.extractLsb' 0 8) := by
  apply BitVec.eq_of_getLsbD_eq
  intro k hk
  simp only [packA, packN, BitVec.getLsbD_append, BitVec.getLsbD_extractLsb']
  grind

end Sys2Proof
end

