-- ==== Sys2Proof/Laws/Float.lean ====
section
/-! SUPPORT. What the rounding functions of Machine/Float.lean compute (spec 00_scope R7, R9). -/

namespace Sys2Proof.Machine

/-- `scale2 m e` is `m * 2^e`. -/
theorem scale2_eq (m e : Int) : scale2 m e = (m : ℚ) * (2 : ℚ) ^ e := by
  unfold scale2
  split
  · rename_i h
    obtain ⟨k, rfl⟩ := Int.eq_ofNat_of_zero_le h
    simp
  · rename_i h
    obtain ⟨k, hk⟩ := Int.eq_ofNat_of_zero_le (show 0 ≤ -e by omega)
    have he : e = -(k : Int) := by omega
    subst he
    simp [Rat.mkRat_eq_divInt, Rat.divInt_eq_div, div_eq_mul_inv]

/-- `rne` is a nearest natural number: twice the distance is at most the divisor, and exactly the divisor only where the
result is even. -/
theorem rne_spec (n d : Nat) (hd : 0 < d) :
    2 * n ≤ d * (2 * rne n d + 1) ∧ d * (2 * rne n d) ≤ 2 * n + d ∧
      ((2 * n = d * (2 * rne n d + 1) ∨ d * (2 * rne n d) = 2 * n + d) → rne n d % 2 = 0) := by
  have hn : d * (n / d) + n % d = n := Nat.div_add_mod n d
  have hr : n % d < d := Nat.mod_lt n hd
  generalize n / d = q at *
  generalize n % d = r at *
  subst hn
  have hq : (d * q + r) / d = q := by
    rw [Nat.mul_add_div hd, Nat.div_eq_of_lt hr, Nat.add_zero]
  have hm : (d * q + r) % d = r := by rw [Nat.mul_add_mod, Nat.mod_eq_of_lt hr]
  unfold rne
  simp only [hq, hm]
  split
  · refine ⟨?_, ?_, ?_⟩
    · nlinarith
    · nlinarith
    · rintro (h | h)
      · have : 2 * r = d := by nlinarith
        omega
      · have : 2 * r + d = 0 := by nlinarith
        omega
  · split
    · refine ⟨by nlinarith, by nlinarith, ?_⟩
      rintro (h | h)
      · have : 2 * r = 3 * d := by nlinarith
        omega
      · have : 2 * r = d := by nlinarith
        omega
    · have h2 : 2 * r = d := by omega
      rcases Nat.mod_two_eq_zero_or_one q with h | h
      · rw [h]
        exact ⟨by nlinarith, by nlinarith, fun _ => by omega⟩
      · rw [h]
        exact ⟨by nlinarith, by nlinarith, fun _ => by omega⟩

/-- `floorLog2 n d` is the exponent of the binade `n / d` lies in. -/
theorem floorLog2_spec (n d : Nat) (hn : 0 < n) (hd : 0 < d) :
    (2 : ℚ) ^ floorLog2 n d ≤ (n : ℚ) / d ∧ (n : ℚ) / d < (2 : ℚ) ^ (floorLog2 n d + 1) := by
  have hd' : (0 : ℚ) < d := by exact_mod_cast hd
  have key : ∀ k : Int, ((if 0 ≤ k then decide (d * 2 ^ k.toNat ≤ n) else decide (d ≤ n * 2 ^ (-k).toNat)) = true ↔
      (2 : ℚ) ^ k ≤ (n : ℚ) / d) := by
    intro k
    rw [le_div_iff₀ hd']
    split
    · rename_i h
      obtain ⟨j, rfl⟩ := Int.eq_ofNat_of_zero_le h
      simp only [decide_eq_true_eq, Int.toNat_natCast, zpow_natCast]
      rw [mul_comm]
      exact_mod_cast Iff.rfl
    · rename_i h
      obtain ⟨j, hj⟩ := Int.eq_ofNat_of_zero_le (show 0 ≤ -k by omega)
      have hk : k = -(j : Int) := by omega
      subst hk
      have h2 : (0 : ℚ) < 2 ^ j := by positivity
      simp only [decide_eq_true_eq, neg_neg, Int.toNat_natCast, zpow_neg, zpow_natCast]
      rw [inv_mul_le_iff₀ h2, mul_comm]
      exact_mod_cast Iff.rfl
  have l1 := Nat.log2_self_le (Nat.pos_iff_ne_zero.1 hn)
  have l2 := @Nat.lt_log2_self n
  have l3 := Nat.log2_self_le (Nat.pos_iff_ne_zero.1 hd)
  have l4 := @Nat.lt_log2_self d
  have lo : (2 : ℚ) ^ ((n.log2 : Int) - d.log2 - 1) ≤ (n : ℚ) / d := by
    rw [le_div_iff₀ hd', zpow_sub₀ two_ne_zero, zpow_sub₀ two_ne_zero, zpow_natCast, zpow_natCast, zpow_one]
    have h1 : (2 : ℚ) ^ n.log2 ≤ n := by exact_mod_cast l1
    have h4 : (d : ℚ) ≤ 2 ^ d.log2 * 2 := by rw [← pow_succ]; exact_mod_cast l4.le
    have hp : (0 : ℚ) < 2 ^ d.log2 := by positivity
    rw [div_div, div_mul_eq_mul_div, div_le_iff₀ (by positivity)]
    have := mul_le_mul h1 h4 hd'.le (by positivity)
    linarith
  have hi : (n : ℚ) / d < (2 : ℚ) ^ ((n.log2 : Int) - d.log2 + 1) := by
    rw [div_lt_iff₀ hd', zpow_add₀ two_ne_zero, zpow_sub₀ two_ne_zero, zpow_natCast, zpow_natCast, zpow_one]
    have h2 : (n : ℚ) < 2 ^ n.log2 * 2 := by rw [← pow_succ]; exact_mod_cast l2
    have h3 : (2 : ℚ) ^ d.log2 ≤ d := by exact_mod_cast l3
    have hp : (0 : ℚ) < 2 ^ d.log2 := by positivity
    rw [div_mul_eq_mul_div, div_mul_eq_mul_div, lt_div_iff₀ hp]
    calc (n : ℚ) * 2 ^ d.log2 ≤ n * d := by
          exact mul_le_mul_of_nonneg_left h3 (by positivity)
      _ < 2 ^ n.log2 * 2 * d := by exact mul_lt_mul_of_pos_right h2 hd'
  unfold floorLog2
  simp only
  generalize (n.log2 : Int) - d.log2 = k at *
  by_cases h : (2 : ℚ) ^ k ≤ (n : ℚ) / d
  · rw [if_pos ((key k).2 h)]
    exact ⟨h, hi⟩
  · rw [if_neg fun hc => h ((key k).1 hc), sub_add_cancel]
    exact ⟨lo, not_le.1 h⟩

end Sys2Proof.Machine
end

