-- ==== Sys2Proof/Laws/State.lean ====
section
/-! SUPPORT. One lemma per field per update of the state, true by definition, so that no proof unfolds a record update; and
the same for the updates of the node table and of the control registers. -/

namespace Sys2Proof.Machine

variable (s : State)

/-! ### `State.respond` -/

@[simp] theorem State.respond_streams (st : RespStatus) (rd : Word) : (s.respond st rd).streams = s.streams := rfl
@[simp] theorem State.respond_regs (st : RespStatus) (rd : Word) : (s.respond st rd).regs = s.regs := rfl
@[simp] theorem State.respond_buf (st : RespStatus) (rd : Word) : (s.respond st rd).buf = s.buf := rfl
@[simp] theorem State.respond_pts (st : RespStatus) (rd : Word) : (s.respond st rd).pts = s.pts := rfl
@[simp] theorem State.respond_resp (st : RespStatus) (rd : Word) : (s.respond st rd).resp = some ⟨st, rd⟩ := rfl
@[simp] theorem State.respond_port (st : RespStatus) (rd : Word) : (s.respond st rd).port = s.port := rfl
@[simp] theorem State.respond_params (st : RespStatus) (rd : Word) : (s.respond st rd).params = s.params := rfl
@[simp] theorem State.respond_laterRuns (st : RespStatus) (rd : Word) :
    (s.respond st rd).laterRuns = s.laterRuns := rfl
@[simp] theorem State.respond_run (st : RespStatus) (rd : Word) : (s.respond st rd).run = s.run := rfl
@[simp] theorem State.respond_picks (st : RespStatus) (rd : Word) : (s.respond st rd).picks = s.picks := rfl

/-! ### `State.ok` -/

@[simp] theorem State.ok_streams (rd : Word) : (s.ok rd).streams = s.streams := rfl
@[simp] theorem State.ok_regs (rd : Word) : (s.ok rd).regs = s.regs := rfl
@[simp] theorem State.ok_buf (rd : Word) : (s.ok rd).buf = s.buf := rfl
@[simp] theorem State.ok_pts (rd : Word) : (s.ok rd).pts = s.pts := rfl
@[simp] theorem State.ok_resp (rd : Word) : (s.ok rd).resp = some ⟨.ok, rd⟩ := rfl
@[simp] theorem State.ok_port (rd : Word) : (s.ok rd).port = s.port := rfl
@[simp] theorem State.ok_params (rd : Word) : (s.ok rd).params = s.params := rfl
@[simp] theorem State.ok_laterRuns (rd : Word) : (s.ok rd).laterRuns = s.laterRuns := rfl
@[simp] theorem State.ok_run (rd : Word) : (s.ok rd).run = s.run := rfl
@[simp] theorem State.ok_picks (rd : Word) : (s.ok rd).picks = s.picks := rfl

/-! ### `State.ended` -/

@[simp] theorem State.ended_streams : s.ended.streams = s.streams := rfl
@[simp] theorem State.ended_regs : s.ended.regs = s.regs := rfl
@[simp] theorem State.ended_buf : s.ended.buf = s.buf := rfl
@[simp] theorem State.ended_pts : s.ended.pts = s.pts := rfl
@[simp] theorem State.ended_resp : s.ended.resp = some ⟨.ended, 0⟩ := rfl
@[simp] theorem State.ended_port : s.ended.port = s.port := rfl
@[simp] theorem State.ended_params : s.ended.params = s.params := rfl
@[simp] theorem State.ended_laterRuns : s.ended.laterRuns = s.laterRuns := rfl
@[simp] theorem State.ended_run : s.ended.run = s.run := rfl
@[simp] theorem State.ended_picks : s.ended.picks = s.picks := rfl

/-! ### `State.setStreams` -/

@[simp] theorem State.setStreams_streams (g : Streams) : (s.setStreams g).streams = g := rfl
@[simp] theorem State.setStreams_regs (g : Streams) : (s.setStreams g).regs = s.regs := rfl
@[simp] theorem State.setStreams_buf (g : Streams) : (s.setStreams g).buf = s.buf := rfl
@[simp] theorem State.setStreams_pts (g : Streams) : (s.setStreams g).pts = s.pts := rfl
@[simp] theorem State.setStreams_resp (g : Streams) : (s.setStreams g).resp = s.resp := rfl
@[simp] theorem State.setStreams_port (g : Streams) : (s.setStreams g).port = s.port := rfl
@[simp] theorem State.setStreams_params (g : Streams) : (s.setStreams g).params = s.params := rfl
@[simp] theorem State.setStreams_laterRuns (g : Streams) : (s.setStreams g).laterRuns = s.laterRuns := rfl
@[simp] theorem State.setStreams_run (g : Streams) : (s.setStreams g).run = s.run := rfl
@[simp] theorem State.setStreams_picks (g : Streams) : (s.setStreams g).picks = s.picks := rfl

/-! ### `State.setRegs` -/

@[simp] theorem State.setRegs_streams (r : Regs) : (s.setRegs r).streams = s.streams := rfl
@[simp] theorem State.setRegs_regs (r : Regs) : (s.setRegs r).regs = r := rfl
@[simp] theorem State.setRegs_buf (r : Regs) : (s.setRegs r).buf = s.buf := rfl
@[simp] theorem State.setRegs_pts (r : Regs) : (s.setRegs r).pts = s.pts := rfl
@[simp] theorem State.setRegs_resp (r : Regs) : (s.setRegs r).resp = s.resp := rfl
@[simp] theorem State.setRegs_port (r : Regs) : (s.setRegs r).port = s.port := rfl
@[simp] theorem State.setRegs_params (r : Regs) : (s.setRegs r).params = s.params := rfl
@[simp] theorem State.setRegs_laterRuns (r : Regs) : (s.setRegs r).laterRuns = s.laterRuns := rfl
@[simp] theorem State.setRegs_run (r : Regs) : (s.setRegs r).run = s.run := rfl
@[simp] theorem State.setRegs_picks (r : Regs) : (s.setRegs r).picks = s.picks := rfl

/-! ### `State.setNode` -/

@[simp] theorem State.setNode_streams (n : Fin 16) (x : Node) : (s.setNode n x).streams = s.streams.setNode n x := rfl
@[simp] theorem State.setNode_regs (n : Fin 16) (x : Node) : (s.setNode n x).regs = s.regs := rfl
@[simp] theorem State.setNode_buf (n : Fin 16) (x : Node) : (s.setNode n x).buf = s.buf := rfl
@[simp] theorem State.setNode_pts (n : Fin 16) (x : Node) : (s.setNode n x).pts = s.pts := rfl
@[simp] theorem State.setNode_resp (n : Fin 16) (x : Node) : (s.setNode n x).resp = s.resp := rfl
@[simp] theorem State.setNode_port (n : Fin 16) (x : Node) : (s.setNode n x).port = s.port := rfl
@[simp] theorem State.setNode_params (n : Fin 16) (x : Node) : (s.setNode n x).params = s.params := rfl
@[simp] theorem State.setNode_laterRuns (n : Fin 16) (x : Node) : (s.setNode n x).laterRuns = s.laterRuns := rfl
@[simp] theorem State.setNode_run (n : Fin 16) (x : Node) : (s.setNode n x).run = s.run := rfl
@[simp] theorem State.setNode_picks (n : Fin 16) (x : Node) : (s.setNode n x).picks = s.picks := rfl

/-! ### `State.raise` -/

@[simp] theorem State.raise_streams (e : Cause) (cw : Word) : (s.raise e cw).streams = s.streams := rfl
@[simp] theorem State.raise_regs (e : Cause) (cw : Word) :
    (s.raise e cw).regs = { s.regs with status := statusOf e, errinfo := cw } := rfl
@[simp] theorem State.raise_buf (e : Cause) (cw : Word) : (s.raise e cw).buf = s.buf := rfl
@[simp] theorem State.raise_pts (e : Cause) (cw : Word) : (s.raise e cw).pts = s.pts := rfl
@[simp] theorem State.raise_resp (e : Cause) (cw : Word) :
    (s.raise e cw).resp = some ⟨.fault, e.code.zeroExtend 32⟩ := rfl
@[simp] theorem State.raise_port (e : Cause) (cw : Word) : (s.raise e cw).port = s.port := rfl
@[simp] theorem State.raise_params (e : Cause) (cw : Word) : (s.raise e cw).params = s.params := rfl
@[simp] theorem State.raise_laterRuns (e : Cause) (cw : Word) : (s.raise e cw).laterRuns = s.laterRuns := rfl
@[simp] theorem State.raise_run (e : Cause) (cw : Word) : (s.raise e cw).run = s.run := rfl
@[simp] theorem State.raise_picks (e : Cause) (cw : Word) : (s.raise e cw).picks = s.picks := rfl

/-! ### `State.refuse` -/

@[simp] theorem State.refuse_streams : s.refuse.streams = s.streams := rfl
@[simp] theorem State.refuse_regs : s.refuse.regs = s.regs := rfl
@[simp] theorem State.refuse_buf : s.refuse.buf = s.buf := rfl
@[simp] theorem State.refuse_pts : s.refuse.pts = s.pts := rfl
@[simp] theorem State.refuse_resp : s.refuse.resp = some ⟨.refused, s.regs.status⟩ := rfl
@[simp] theorem State.refuse_port : s.refuse.port = s.port := rfl
@[simp] theorem State.refuse_params : s.refuse.params = s.params := rfl
@[simp] theorem State.refuse_laterRuns : s.refuse.laterRuns = s.laterRuns := rfl
@[simp] theorem State.refuse_run : s.refuse.run = s.run := rfl
@[simp] theorem State.refuse_picks : s.refuse.picks = s.picks := rfl

/-! ### `State.softReset` -/

@[simp] theorem State.softReset_streams : s.softReset.streams = Streams.reset s.nextRunPorts := rfl
@[simp] theorem State.softReset_regs : s.softReset.regs = Regs.reset := rfl
@[simp] theorem State.softReset_buf : s.softReset.buf = s.buf := rfl
@[simp] theorem State.softReset_pts : s.softReset.pts = [] := rfl
@[simp] theorem State.softReset_resp : s.softReset.resp = s.resp := rfl
@[simp] theorem State.softReset_port : s.softReset.port = s.port := rfl
@[simp] theorem State.softReset_params : s.softReset.params = s.params := rfl
@[simp] theorem State.softReset_laterRuns : s.softReset.laterRuns = s.laterRuns.tail := rfl
@[simp] theorem State.softReset_run : s.softReset.run = s.run + 1 := rfl
@[simp] theorem State.softReset_picks : s.softReset.picks = s.picks := rfl

/-! ### `State.hardReset` -/

@[simp] theorem State.hardReset_streams : s.hardReset.streams = Streams.reset s.nextRunPorts := rfl
@[simp] theorem State.hardReset_regs : s.hardReset.regs = Regs.reset := rfl
@[simp] theorem State.hardReset_buf : s.hardReset.buf = [] := rfl
@[simp] theorem State.hardReset_pts : s.hardReset.pts = [] := rfl
@[simp] theorem State.hardReset_resp : s.hardReset.resp = none := rfl
@[simp] theorem State.hardReset_port : s.hardReset.port = s.port := rfl
@[simp] theorem State.hardReset_params : s.hardReset.params = s.params := rfl
@[simp] theorem State.hardReset_laterRuns : s.hardReset.laterRuns = s.laterRuns.tail := rfl
@[simp] theorem State.hardReset_run : s.hardReset.run = s.run + 1 := rfl
@[simp] theorem State.hardReset_picks : s.hardReset.picks = s.picks := rfl

/-! ### `State.storePoints` -/

@[simp] theorem State.storePoints_streams (l : List Point) : (s.storePoints l).streams = s.streams := rfl
@[simp] theorem State.storePoints_regs (l : List Point) :
    (s.storePoints l).regs = { s.regs with spaNpts := BitVec.ofNat 32 l.length } := rfl
@[simp] theorem State.storePoints_buf (l : List Point) : (s.storePoints l).buf = s.buf := rfl
@[simp] theorem State.storePoints_pts (l : List Point) : (s.storePoints l).pts = l := rfl
@[simp] theorem State.storePoints_resp (l : List Point) :
    (s.storePoints l).resp = some ⟨.ok, BitVec.ofNat 32 l.length⟩ := rfl
@[simp] theorem State.storePoints_port (l : List Point) : (s.storePoints l).port = s.port := rfl
@[simp] theorem State.storePoints_params (l : List Point) : (s.storePoints l).params = s.params := rfl
@[simp] theorem State.storePoints_laterRuns (l : List Point) : (s.storePoints l).laterRuns = s.laterRuns := rfl
@[simp] theorem State.storePoints_run (l : List Point) : (s.storePoints l).run = s.run := rfl
@[simp] theorem State.storePoints_picks (l : List Point) : (s.storePoints l).picks = s.picks := rfl

/-! ### `State.deliver` -/

@[simp] theorem State.deliver_streams (j : Nat) (p : Point) : (s.deliver j p).streams = s.streams := rfl
@[simp] theorem State.deliver_regs (j : Nat) (p : Point) :
    (s.deliver j p).regs = { s.regs with ptIdx := p.idx, ptFreq := p.freq, ptMag := p.mag, spaNpts := s.regs.spaNpts - 1 } := rfl
@[simp] theorem State.deliver_buf (j : Nat) (p : Point) : (s.deliver j p).buf = s.buf := rfl
@[simp] theorem State.deliver_pts (j : Nat) (p : Point) : (s.deliver j p).pts = s.pts.eraseIdx j := rfl
@[simp] theorem State.deliver_resp (j : Nat) (p : Point) : (s.deliver j p).resp = some ⟨.ok, p.idx⟩ := rfl
@[simp] theorem State.deliver_port (j : Nat) (p : Point) : (s.deliver j p).port = s.port := rfl
@[simp] theorem State.deliver_params (j : Nat) (p : Point) : (s.deliver j p).params = s.params := rfl
@[simp] theorem State.deliver_laterRuns (j : Nat) (p : Point) : (s.deliver j p).laterRuns = s.laterRuns := rfl
@[simp] theorem State.deliver_run (j : Nat) (p : Point) : (s.deliver j p).run = s.run := rfl
@[simp] theorem State.deliver_picks (j : Nat) (p : Point) : (s.deliver j p).picks = s.picks + 1 := rfl

/-! ### `State.present` -/

@[simp] theorem State.present_streams (cw wd : Word) : (s.present cw wd).streams = s.streams := rfl
@[simp] theorem State.present_regs (cw wd : Word) : (s.present cw wd).regs = s.regs := rfl
@[simp] theorem State.present_buf (cw wd : Word) : (s.present cw wd).buf = s.buf := rfl
@[simp] theorem State.present_pts (cw wd : Word) : (s.present cw wd).pts = s.pts := rfl
@[simp] theorem State.present_resp (cw wd : Word) : (s.present cw wd).resp = s.resp := rfl
@[simp] theorem State.present_port (cw wd : Word) : (s.present cw wd).port = .command cw wd :: s.port := rfl
@[simp] theorem State.present_params (cw wd : Word) : (s.present cw wd).params = s.params := rfl
@[simp] theorem State.present_laterRuns (cw wd : Word) : (s.present cw wd).laterRuns = s.laterRuns := rfl
@[simp] theorem State.present_run (cw wd : Word) : (s.present cw wd).run = s.run := rfl
@[simp] theorem State.present_picks (cw wd : Word) : (s.present cw wd).picks = s.picks := rfl

/-! ### The node table -/

variable (g : Streams)

@[simp] theorem Streams.setNode_xeos (n : Fin 16) (x : Node) : (g.setNode n x).xeos = g.xeos := rfl
@[simp] theorem Streams.setNode_xs (n : Fin 16) (x : Node) : (g.setNode n x).xs = g.xs := rfl

@[simp] theorem Streams.node_setNode_same (n : Fin 16) (x : Node) : (g.setNode n x).node n = x := by
  simp [Streams.node, Streams.setNode]

theorem Streams.node_setNode_other {n m : Fin 16} (x : Node) (h : m ≠ n) : (g.setNode n x).node m = g.node m := by
  have h' : n.val ≠ m.val := fun e => h (Fin.ext e.symm)
  simp [Streams.node, Streams.setNode, h']

/-- Which node a slot holds after a write. -/
theorem Streams.node_setNode (n m : Fin 16) (x : Node) :
    (g.setNode n x).node m = if m = n then x else g.node m := by
  split
  · subst m; exact g.node_setNode_same n x
  · exact g.node_setNode_other x ‹_›

@[simp] theorem Streams.asked_nodes (p : Fin 8) : (g.asked p).nodes = g.nodes := rfl
@[simp] theorem Streams.asked_node (p : Fin 8) (n : Fin 16) : (g.asked p).node n = g.node n := rfl

@[simp] theorem Streams.reset_node (xs : Vector XSeq 8) (n : Fin 16) : (Streams.reset xs).node n = .free := by
  simp [Streams.node, Streams.reset]

@[simp] theorem Streams.reset_xeos (xs : Vector XSeq 8) (p : Fin 8) : (Streams.reset xs).xeos[p] = false := by
  simp [Streams.reset]

/-! ### The control registers -/

@[simp] theorem Regs.get_set_same (r : Regs) (n : RegName) (v : Word) : (r.set n v).get n = v := by
  cases n <;> rfl

theorem Regs.get_set_other (r : Regs) {n m : RegName} (v : Word) (h : m ≠ n) : (r.set n v).get m = r.get m := by
  cases n <;> cases m <;> first | rfl | exact absurd rfl h

end Sys2Proof.Machine
end

