-- ==== Sys2Proof/Laws/Memory.lean ====
section
/-! SUPPORT. The buffer: read after write, a write elsewhere, and the canonical form every operation keeps (spec 20_memory
R60, R66). -/

namespace Sys2Proof.Machine

/-- A read of the address just written gives the value written. -/
@[simp] theorem Buffer.read_write_same (b : Buffer) (a : Nat) (v : Int) : (Buffer.write b a v).read a = some v := by
  induction b with
  | nil => simp [Buffer.write, Buffer.read]
  | cons c rest ih =>
    obtain ⟨k, w⟩ := c
    unfold Buffer.write
    split
    · simp [Buffer.read]
    · split
      · simp [Buffer.read]
      · simp [Buffer.read, *]

/-- A write leaves every other address alone. -/
theorem Buffer.read_write_other (b : Buffer) {a c : Nat} (v : Int) (h : c ≠ a) :
    (Buffer.write b a v).read c = b.read c := by
  induction b with
  | nil => simp [Buffer.write, Buffer.read, h]
  | cons x rest ih =>
    obtain ⟨k, w⟩ := x
    unfold Buffer.write
    split
    · simp [Buffer.read, h]
    · split
      · simp_all [Buffer.read]
      · simp [Buffer.read, ih]

/-- The cells of a buffer after a write: the new one and old ones. -/
theorem Buffer.mem_write (b : Buffer) (a : Nat) (v : Int) (x : BufCell) (h : x ∈ Buffer.write b a v) :
    x = (a, v) ∨ x ∈ b := by
  induction b with
  | nil => simpa [Buffer.write] using h
  | cons c rest ih =>
    obtain ⟨k, w⟩ := c
    unfold Buffer.write at h
    split at h
    · simpa using h
    · split at h
      · rcases List.mem_cons.1 h with h | h
        · exact .inl h
        · exact .inr (List.mem_cons_of_mem _ h)
      · rcases List.mem_cons.1 h with h | h
        · exact .inr (by simp [h])
        · exact (ih h).imp_right (List.mem_cons_of_mem _)

/-- A write keeps the canonical form. -/
theorem Buffer.wf_write (b : Buffer) (a : Nat) (v : Int) (h : b.wf) : (Buffer.write b a v).wf := by
  induction b with
  | nil => simp [Buffer.wf, Buffer.write]
  | cons c rest ih =>
    obtain ⟨k, w⟩ := c
    simp only [Buffer.wf, List.map_cons, List.pairwise_cons] at h
    obtain ⟨hk, hr⟩ := h
    unfold Buffer.write
    split
    · rename_i hak
      simp only [Buffer.wf, List.map_cons, List.pairwise_cons]
      refine ⟨fun x hx => ?_, hk, hr⟩
      rcases List.mem_cons.1 hx with rfl | hx
      · exact hak
      · exact hak.trans (hk x hx)
    · split
      · subst a; exact List.pairwise_cons.2 ⟨hk, hr⟩
      · rename_i h1 h2
        refine List.pairwise_cons.2 ⟨fun x hx => ?_, ih hr⟩
        obtain ⟨y, hy, rfl⟩ := List.mem_map.1 hx
        rcases Buffer.mem_write rest a v y hy with rfl | hy
        · simp only; omega
        · exact hk _ (List.mem_map_of_mem hy)

/-- A word that is read is listed. -/
theorem Buffer.mem_of_read {b : Buffer} {a : Nat} {v : Int} (h : b.read a = some v) : (a, v) ∈ b := by
  induction b with
  | nil => simp [Buffer.read] at h
  | cons c rest ih =>
    obtain ⟨k, w⟩ := c
    unfold Buffer.read at h
    split at h
    · subst a; simp_all
    · exact List.mem_cons_of_mem _ (ih h)

/-- The buffer after reset is in canonical form. -/
theorem reset_buf_wf : State.reset.buf.wf := List.Pairwise.nil

/-- What `readRange` answers when it answers a window: the words of the range, in order. -/
theorem readRange_ok {b : Buffer} {lo len : Nat} {w : List Int} (h : readRange b lo len = .ok w) :
    w.length = len ∧ ∀ k, k < len → b.read (lo + k) = w[k]? := by
  induction len generalizing lo w with
  | zero => cases h; simp
  | succ n ih =>
    unfold readRange at h
    split at h
    · cases h
    · rename_i v hv
      cases hr : readRange b (lo + 1) n with
      | error a => rw [hr] at h; cases h
      | ok u =>
        rw [hr] at h
        cases h
        obtain ⟨hl, hg⟩ := ih hr
        refine ⟨by simp [hl], fun k hk => ?_⟩
        cases k with
        | zero => simpa using hv
        | succ j =>
          have := hg j (by omega)
          rw [show lo + (j + 1) = lo + 1 + j by omega, this]
          simp

/-- `readRange` answers a window whenever every word of the range has been written. -/
theorem readRange_total {b : Buffer} {lo len : Nat} (h : ∀ k, k < len → b.read (lo + k) ≠ none) :
    ∃ w, readRange b lo len = .ok w := by
  induction len generalizing lo with
  | zero => exact ⟨[], rfl⟩
  | succ n ih =>
    obtain ⟨w, hw⟩ := @ih (lo + 1) fun k hk => by
      have := h (k + 1) (by omega)
      rwa [show lo + (k + 1) = lo + 1 + k by omega] at this
    cases hv : b.read lo with
    | none => exact absurd hv (by simpa using h 0 (by omega))
    | some v => exact ⟨v :: w, by simp [readRange, hv, hw, Except.map]⟩

end Sys2Proof.Machine
end

