-- ==== Sys2Proof/Laws/Ops.lean ====
section
/-! SUPPORT. For each shared operation, what it can do, said once: acceptance and refusal of a command, faults, the node
creations, the responses, and the step. -/

namespace Sys2Proof.Machine

open Sys2Proof.Config

/-! ### Acceptance -/

/-- In the fault state a command is refused. -/
theorem accept_of_faulted {s : State} (run : State → Host.Outcome State Fault Refusal) (h : s.faulted = true) :
    s.accept run = .next s.refuse := by simp [State.accept, h]

/-- Outside the fault state a command's own rule runs. -/
theorem accept_of_normal {s : State} (run : State → Host.Outcome State Fault Refusal) (h : s.faulted = false) :
    s.accept run = run s := by simp [State.accept, h]

/-- If an accepted or refused command ends in a next state, it was refused in the fault state or its rule ran. -/
theorem accept_next {s t : State} {run : State → Host.Outcome State Fault Refusal} (h : s.accept run = .next t) :
    (s.faulted = true ∧ t = s.refuse) ∨ (s.faulted = false ∧ run s = .next t) := by
  cases hf : s.faulted with
  | true => rw [accept_of_faulted run hf] at h; cases h; exact .inl ⟨rfl, rfl⟩
  | false => rw [accept_of_normal run hf] at h; exact .inr ⟨rfl, h⟩

/-- A fault taken is a next state, the one `raise` gives. -/
@[simp] theorem fail_eq (s : State) (e : Cause) (i : Instr) : s.fail e i = .next (s.raise e (cwOf i)) := rfl

/-! ### The status word -/

/-- Every fault sets `STATUS.FAULT`. -/
@[simp] theorem statusFault_statusOf (e : Cause) : statusFault (statusOf e) = true := by cases e <;> decide

/-- `STATUS.ERR` is the code of the fault. -/
@[simp] theorem statusErr_statusOf (e : Cause) : statusErr (statusOf e) = e.code := by cases e <;> decide

/-- Different faults have different status words. -/
theorem statusOf_injective {e f : Cause} (h : statusOf e = statusOf f) : e = f := by
  cases e <;> cases f <;> first | rfl | (exact absurd h (by decide))

@[simp] theorem raise_faulted (s : State) (e : Cause) (cw : Word) : (s.raise e cw).faulted = true := by
  simp [State.faulted]

@[simp] theorem softReset_faulted (s : State) : s.softReset.faulted = false := by
  simp [State.faulted, Regs.reset, statusFault]

@[simp] theorem respond_faulted (s : State) (st : RespStatus) (rd : Word) : (s.respond st rd).faulted = s.faulted := rfl
@[simp] theorem ok_faulted (s : State) (rd : Word) : (s.ok rd).faulted = s.faulted := rfl
@[simp] theorem refuse_faulted (s : State) : s.refuse.faulted = s.faulted := rfl
@[simp] theorem setStreams_faulted (s : State) (g : Streams) : (s.setStreams g).faulted = s.faulted := rfl
@[simp] theorem setNode_faulted (s : State) (n : Fin 16) (x : Node) : (s.setNode n x).faulted = s.faulted := rfl
@[simp] theorem present_faulted (s : State) (cw wd : Word) : (s.present cw wd).faulted = s.faulted := rfl

/-! ### Operands -/

/-- A saturated value is a sample. -/
theorem sat24_range (z : Int) : -smax ≤ sat24 z ∧ sat24 z ≤ smax := by
  unfold sat24 smax; split <;> [skip; split] <;> omega

/-- A sample is unchanged by saturation. -/
theorem sat24_of_sample {z : Int} (h : -smax ≤ z ∧ z ≤ smax) : sat24 z = z := by
  unfold sat24; rw [if_neg (by omega), if_neg (by omega)]

/-- The static check of a stream id is the one the commands make. -/
theorem formed_eq_sidFormed : ∀ sid : Sid, sid.formed = sidFormed sid := by decide

/-- An `IMM` in range gives its width. -/
theorem widthOf_eq_some {imm : BitVec 8} (h : 1 ≤ imm.toNat ∧ imm.toNat ≤ 15) : widthOf imm = some ⟨imm.toNat, h⟩ :=
  dif_pos h

/-- An `IMM` out of range gives no width. -/
theorem widthOf_eq_none {imm : BitVec 8} (h : ¬(1 ≤ imm.toNat ∧ imm.toNat ≤ 15)) : widthOf imm = none := dif_neg h

/-- An `IMM` in range gives its channel count. -/
theorem channelsOf_eq_some {imm : BitVec 8} (h : 1 ≤ imm.toNat ∧ imm.toNat ≤ 8) :
    channelsOf imm = some ⟨imm.toNat, h⟩ := dif_pos h

/-- An `IMM` out of range gives no channel count. -/
theorem channelsOf_eq_none {imm : BitVec 8} (h : ¬(1 ≤ imm.toNat ∧ imm.toNat ≤ 8)) : channelsOf imm = none :=
  dif_neg h

/-! ### Creating a node -/

/-- What a filter creation can do: `CFG_WIDTH`, then `CFG_BIND`, else the node. -/
theorem newFilter_next {mk : FilterNode → Node} {i : Instr} {node : BitVec 4} {src : Sid} {imm : BitVec 8} {s t : State}
    (h : newFilter mk i node src imm s = .next t) :
    (widthOf imm = none ∧ t = s.raise .cfgWidth (cwOf i)) ∨
      ∃ w, widthOf imm = some w ∧
        ((s.streams.checkNew (slotOf node) src = false ∧ t = s.raise .cfgBind (cwOf i)) ∨
          (s.streams.checkNew (slotOf node) src = true ∧ t = (s.setNode (slotOf node) (mk ⟨src, w, 0⟩)).ok 0)) := by
  unfold newFilter at h
  split at h
  · cases h; exact .inl ⟨‹_›, rfl⟩
  · split at h
    · cases h; exact .inr ⟨_, ‹_›, .inr ⟨‹_›, rfl⟩⟩
    · rename_i hc; cases h; exact .inr ⟨_, ‹_›, .inl ⟨by simpa using hc, rfl⟩⟩

/-- `CheckNew` passes exactly when the slot is free and `CheckSrc` passes. -/
theorem checkNew_iff (g : Streams) (n : Fin 16) (src : Sid) :
    g.checkNew n src = true ↔ g.node n = .free ∧ g.checkSrc n src = true := by
  unfold Streams.checkNew Node.isFree
  cases h : g.node n <;> simp [Node.typeCode]

/-- `CheckSrc` passes exactly when the source is well formed, external or lower-numbered, and live. -/
theorem checkSrc_iff (g : Streams) (n : Fin 16) (src : Sid) :
    g.checkSrc n src = true ↔
      sidFormed src = true ∧ (sidIsPort src = true ∨ (sidSlot src).val < n.val) ∧ g.live src = true := by
  simp [Streams.checkSrc, and_assoc]

/-! ### The step -/

/-- With no input presented the block holds its state. -/
theorem step_idle {s : State} (h : s.port = []) : step s = .next s := by simp [step, serve, h]

/-- A transaction is served. -/
theorem step_command {s : State} {cw wd : Word} {rest : List HostInput} (h : s.port = .command cw wd :: rest) :
    step s = transact cw wd { s with port := rest } := by simp [step, serve, h]

/-- The hard reset input resets. -/
theorem step_hardReset {s : State} {rest : List HostInput} (h : s.port = .hardReset :: rest) :
    step s = .next ({ s with port := rest } : State).hardReset := by simp [step, serve, h]

/-- What a step can do. -/
theorem step_cases (s : State) :
    (s.port = [] ∧ step s = .next s) ∨
      (∃ rest, s.port = .hardReset :: rest ∧ step s = .next ({ s with port := rest } : State).hardReset) ∨
      (∃ cw wd rest i, s.port = .command cw wd :: rest ∧ decode cw wd = .ok i ∧
        step s = exec i { s with port := rest }) ∨
      (∃ cw wd rest e, s.port = .command cw wd :: rest ∧ decode cw wd = .error e ∧
        step s = .next (if s.faulted then ({ s with port := rest } : State).refuse
          else ({ s with port := rest } : State).raise .illegalCmd cw)) := by
  cases hp : s.port with
  | nil => exact .inl ⟨rfl, step_idle hp⟩
  | cons x rest =>
    cases x with
    | hardReset => exact .inr (.inl ⟨rest, rfl, step_hardReset hp⟩)
    | command cw wd =>
      refine .inr (.inr ?_)
      cases hd : decode cw wd with
      | ok i => exact .inl ⟨cw, wd, rest, i, rfl, hd, by rw [step_command hp]; simp [transact, hd]⟩
      | error e =>
        refine .inr ⟨cw, wd, rest, e, rfl, hd, ?_⟩
        rw [step_command hp]
        have hs : ({ s with port := rest } : State).faulted = s.faulted := rfl
        cases hf : s.faulted with
        | true => simp [transact, hd, accept_of_faulted _ (hs.trans hf)]
        | false => simp [transact, hd, accept_of_normal _ (hs.trans hf)]

end Sys2Proof.Machine
end

