-- ==== Sys2Proof/Laws/PerInstr.lean ====
section
/-! SUPPORT. Laws stated of every command, one lemma per command (LAWS.json). -/

namespace Sys2Proof.Laws.EncodeMatchesRow

/-- The command word the encoder writes matches the row of the opcode map that has the command's mnemonic (R83, R86). -/
def Statement (i : Instr) : Prop := ∃ r ∈ opcodeMap, r.mnemonic = i.mnemonic ∧ r.matches (cwOf i) = true

theorem lpfNew (node : BitVec 4) (src : Sid) (imm : BitVec 8) : Statement (.lpfNew node src imm) :=
  ⟨⟨"LPF.NEW", 0x01000000, 0xFF0F0000⟩, by simp [opcodeMap], rfl,
    (matches_packN ..).2 (by simp [cwOp, cwNode, cwAux, cwSrc, cwImm])⟩

theorem hpfNew (node : BitVec 4) (src : Sid) (imm : BitVec 8) : Statement (.hpfNew node src imm) :=
  ⟨⟨"HPF.NEW", 0x02000000, 0xFF0F0000⟩, by simp [opcodeMap], rfl,
    (matches_packN ..).2 (by simp [cwOp, cwNode, cwAux, cwSrc, cwImm])⟩

theorem teeNew (node : BitVec 4) (src : Sid) : Statement (.teeNew node src) :=
  ⟨⟨"TEE.NEW", 0x03000000, 0xFF0F00FF⟩, by simp [opcodeMap], rfl,
    (matches_packN ..).2 (by simp [cwOp, cwNode, cwAux, cwSrc, cwImm])⟩

theorem dilNew (node : BitVec 4) (src : Sid) (imm : BitVec 8) : Statement (.dilNew node src imm) :=
  ⟨⟨"DIL.NEW", 0x04000000, 0xFF0F0000⟩, by simp [opcodeMap], rfl,
    (matches_packN ..).2 (by simp [cwOp, cwNode, cwAux, cwSrc, cwImm])⟩

theorem ilvNew (node : BitVec 4) (imm : BitVec 8) : Statement (.ilvNew node imm) :=
  ⟨⟨"ILV.NEW", 0x05000000, 0xFF0FFF00⟩, by simp [opcodeMap], rfl,
    (matches_packN ..).2 (by simp [cwOp, cwNode, cwAux, cwSrc, cwImm])⟩

theorem ilvBind (node aux : BitVec 4) (src : Sid) : Statement (.ilvBind node aux src) :=
  ⟨⟨"ILV.BIND", 0x06000000, 0xFF0000FF⟩, by simp [opcodeMap], rfl,
    (matches_packN ..).2 (by simp [cwOp, cwNode, cwAux, cwSrc, cwImm])⟩

theorem next (sid : Sid) : Statement (.next sid) :=
  ⟨⟨"NEXT", 0x08000000, 0xFFFF00FF⟩, by simp [opcodeMap], rfl,
    (matches_packN ..).2 (by simp [cwOp, cwNode, cwAux, cwSrc, cwImm])⟩

theorem spaRun : Statement .spaRun := ⟨⟨"SPA.RUN", 0x10000000, 0xFFFFFFFF⟩, by simp [opcodeMap], rfl, by decide⟩

theorem spaNext : Statement .spaNext := ⟨⟨"SPA.NEXT", 0x11000000, 0xFFFFFFFF⟩, by simp [opcodeMap], rfl, by decide⟩

theorem axisNew : Statement .axisNew := ⟨⟨"AXIS.NEW", 0x12000000, 0xFFFFFFFF⟩, by simp [opcodeMap], rfl, by decide⟩

theorem axisNext : Statement .axisNext :=
  ⟨⟨"AXIS.NEXT", 0x13000000, 0xFFFFFFFF⟩, by simp [opcodeMap], rfl, by decide⟩

theorem bufWr (addr : Addr) (wd : Word) : Statement (.bufWr addr wd) :=
  ⟨⟨"BUF.WR", 0x18000000, 0xFF000000⟩, by simp [opcodeMap], rfl, by
    show Row.matches _ (packA _ addr) = true
    rw [packA_eq_packN]; exact (matches_packN ..).2 (by simp [cwOp, cwNode, cwAux, cwSrc, cwImm])⟩

theorem bufRd (addr : Addr) : Statement (.bufRd addr) :=
  ⟨⟨"BUF.RD", 0x19000000, 0xFF000000⟩, by simp [opcodeMap], rfl, by
    show Row.matches _ (packA _ addr) = true
    rw [packA_eq_packN]; exact (matches_packN ..).2 (by simp [cwOp, cwNode, cwAux, cwSrc, cwImm])⟩

theorem regWr (regno : BitVec 8) (wd : Word) : Statement (.regWr regno wd) :=
  ⟨⟨"REG.WR", 0x20000000, 0xFFFFFF00⟩, by simp [opcodeMap], rfl,
    (matches_packN ..).2 (by simp [cwOp, cwNode, cwAux, cwSrc, cwImm])⟩

theorem regRd (regno : BitVec 8) : Statement (.regRd regno) :=
  ⟨⟨"REG.RD", 0x21000000, 0xFFFFFF00⟩, by simp [opcodeMap], rfl,
    (matches_packN ..).2 (by simp [cwOp, cwNode, cwAux, cwSrc, cwImm])⟩

theorem reset : Statement .reset := ⟨⟨"RESET", 0x3F000000, 0xFFFFFFFF⟩, by simp [opcodeMap], rfl, by decide⟩

end Sys2Proof.Laws.EncodeMatchesRow
end

