-- ==== Sys2Proof/Laws/Pull.lean ====
section
/-! SUPPORT. What the pulls can do, said once each (spec 40_stream_tee R101 to R106; 41_lowpass R123; 42_highpass R141;
43_interleave R151, R157). -/

namespace Sys2Proof.Machine

open Sys2Proof.Config

/-- A property of the streams a pull leaves behind. -/
def Pulled.Leaves (P : Streams → Prop) : Pulled → Prop
  | .answer _ g => P g
  | .overflow g => P g
  | .dead => True

/-- A property of the streams a frame fetch leaves behind. -/
def Fetched.Leaves (P : Streams → Prop) : Fetched → Prop
  | .full _ g => P g
  | .ended _ g => P g
  | .overflow _ g => P g
  | .dead => True

/-! ### External ports -/

/-- A latched port answers `None` and changes nothing. -/
theorem xpull_latched {p : Fin 8} {g : Streams} (h : g.xeos[p] = true) : xpull p g = .answer none g := by
  simp [xpull, h]

/-- A port that is not latched asks the environment once. -/
theorem xpull_open {p : Fin 8} {g : Streams} (h : g.xeos[p] = false) :
    xpull p g = .answer ((g.xs[p].answer p).map fun d => sat24 (sext32 d)) (g.asked p) := by
  simp [xpull, h]

/-- A placed word is the environment's answer, and the cursor moves past it. -/
theorem answer_of_words {x : XSeq} {d : Word} {rest : List Word} (p : Fin 8) (h : x.words = d :: rest) :
    x.answer p = some d ∧ x.advance = { x with words := rest } := by
  simp [XSeq.answer, XSeq.advance, h]

/-- A finite sequence that is used up answers `None`. -/
theorem answer_of_ended {x : XSeq} (p : Fin 8) (h : x.words = []) (ht : x.tail = .ends) :
    x.answer p = none ∧ x.advance = x := by
  simp [XSeq.answer, XSeq.advance, h, ht]

/-! ### Frames -/

/-- A fetch leaves behind what every pull of it leaves behind. -/
theorem fetchFrame_leaves {P : Streams → Prop} {pull : Sid → Streams → Pulled} {sids : List Sid} {taken : List Int}
    {g : Streams} (hp : ∀ sid ∈ sids, ∀ g, P g → (pull sid g).Leaves P) (h : P g) :
    (fetchFrame pull sids taken g).Leaves P := by
  induction sids generalizing taken g with
  | nil => exact h
  | cons sid rest ih =>
    have h1 := hp sid (by simp) g h
    unfold fetchFrame
    split <;> rename_i heq <;> rw [heq] at h1
    · exact ih (fun x hx => hp x (List.mem_cons_of_mem _ hx)) h1
    · exact h1
    · exact h1
    · trivial

/-- A complete frame has one element for each stream, after those already taken. -/
theorem fetchFrame_full_length {pull : Sid → Streams → Pulled} {sids : List Sid} {taken frame : List Int}
    {g g' : Streams} (h : fetchFrame pull sids taken g = .full frame g') :
    frame.length = taken.length + sids.length := by
  induction sids generalizing taken g with
  | nil => cases h; simp
  | cons sid rest ih =>
    unfold fetchFrame at h
    split at h
    · rw [ih h]; simp; omega
    · cases h
    · cases h
    · cases h

/-- Queueing a frame leaves channel `c` alone. -/
theorem queueOthers_self {depth : QueueDepth} {c : Fin 8} {l : List (Fin 8 × Int)} {q : Vector (List Int) 8} :
    (queueOthers depth c l q).2[c] = q[c] := by
  induction l generalizing q with
  | nil => rfl
  | cons x rest ih =>
    obtain ⟨k, v⟩ := x
    unfold queueOthers
    split
    · exact ih
    · split
      · rfl
      · rename_i hk _
        rw [ih]
        have : k.val ≠ c.val := fun e => hk (Fin.ext e)
        simp [this]

/-! ### Nodes -/

/-- What a low-pass pull can do. -/
theorem pullLpf_cases (pull : Sid → Streams → Pulled) (n : Fin 16) (f : FilterNode) (g : Streams) :
    (∃ u g', pull f.src g = .answer (some u) g' ∧
      pullLpf pull n f g = .answer (some (f.lowpass u)) (g'.setNode n (.lpf { f with prev := f.lowpass u }))) ∨
      ((∀ u g', pull f.src g ≠ .answer (some u) g') ∧ pullLpf pull n f g = pull f.src g) := by
  unfold pullLpf
  cases h : pull f.src g with
  | answer r g' =>
    cases r with
    | none => exact .inr ⟨(by simp), rfl⟩
    | some u => exact .inl ⟨u, g', rfl, rfl⟩
  | overflow g' => exact .inr ⟨(by simp), rfl⟩
  | dead => exact .inr ⟨(by simp), rfl⟩

/-- What a high-pass pull can do. -/
theorem pullHpf_cases (pull : Sid → Streams → Pulled) (n : Fin 16) (f : FilterNode) (g : Streams) :
    (∃ u g', pull f.src g = .answer (some u) g' ∧
      pullHpf pull n f g =
        .answer (some (sat24 u - f.lowpass u)) (g'.setNode n (.hpf { f with prev := f.lowpass u }))) ∨
      ((∀ u g', pull f.src g ≠ .answer (some u) g') ∧ pullHpf pull n f g = pull f.src g) := by
  unfold pullHpf
  cases h : pull f.src g with
  | answer r g' =>
    cases r with
    | none => exact .inr ⟨(by simp), rfl⟩
    | some u => exact .inl ⟨u, g', rfl, rfl⟩
  | overflow g' => exact .inr ⟨(by simp), rfl⟩
  | dead => exact .inr ⟨(by simp), rfl⟩

/-- What a tee pull can do: deliver the backlog; deliver and queue an element of the origin; overflow; or pass on what the
origin answers. -/
theorem pullTee_cases (depth : QueueDepth) (pull : Sid → Streams → Pulled) (n : Fin 16) (side : Fin 8) (t : TeeNode)
    (g : Streams) :
    (∃ v rest, t.own side = v :: rest ∧
      pullTee depth pull n side t g = .answer (some v) (g.setNode n (.tee (t.setOwn side rest)))) ∨
      (t.own side = [] ∧ ∃ v g', pull t.src g = .answer (some v) g' ∧ queueFull depth (t.other side) = true ∧
        pullTee depth pull n side t g = .overflow g') ∨
      (t.own side = [] ∧ ∃ v g', pull t.src g = .answer (some v) g' ∧ queueFull depth (t.other side) = false ∧
        pullTee depth pull n side t g =
          .answer (some v) (g'.setNode n (.tee (t.setOther side (t.other side ++ [v]))))) ∨
      (t.own side = [] ∧ (∀ v g', pull t.src g ≠ .answer (some v) g') ∧
        pullTee depth pull n side t g = pull t.src g) := by
  unfold pullTee
  cases ho : t.own side with
  | cons v rest => exact .inl ⟨v, rest, rfl, rfl⟩
  | nil =>
    refine .inr ?_
    cases h : pull t.src g with
    | answer r g' =>
      cases r with
      | none => exact .inr (.inr ⟨rfl, (by simp), rfl⟩)
      | some v =>
        cases hq : queueFull depth (t.other side) with
        | true => exact .inl ⟨rfl, v, g', rfl, rfl, by simp⟩
        | false => exact .inr (.inl ⟨rfl, v, g', rfl, rfl, by simp⟩)
    | overflow g' => exact .inr (.inr ⟨rfl, (by simp), rfl⟩)
    | dead => exact .inr (.inr ⟨rfl, (by simp), rfl⟩)

/-! ### The recursion -/

/-- A pull of an external port, with any fuel left. -/
theorem pullWithin_port (depth : QueueDepth) (fuel : Nat) {sid : Sid} (g : Streams) (h : sidIsPort sid = true) :
    pullWithin depth (fuel + 1) sid g = xpull (sidPort sid) g := by simp [pullWithin, h]

/-- A pull of a node's port, with any fuel left. -/
theorem pullWithin_node (depth : QueueDepth) (fuel : Nat) {sid : Sid} (g : Streams) (h : sidIsPort sid = false) :
    pullWithin depth (fuel + 1) sid g =
      pullNode depth (pullWithin depth fuel) (sidSlot sid) (sidPort sid) g := by simp [pullWithin, h]

/-- Induction over nested pulls: a property of pulls that holds of a source that cannot be pulled, of the external ports,
and of a node's port whenever it holds of the nested pulls, holds of every pull. -/
theorem pullWithin_induction {depth : QueueDepth} {P : Nat → Sid → Streams → Pulled → Prop}
    (dead : ∀ sid g, P 0 sid g .dead)
    (port : ∀ fuel sid g, sidIsPort sid = true → P (fuel + 1) sid g (xpull (sidPort sid) g))
    (node : ∀ fuel sid g, sidIsPort sid = false → (∀ sid g, P fuel sid g (pullWithin depth fuel sid g)) →
      P (fuel + 1) sid g (pullNode depth (pullWithin depth fuel) (sidSlot sid) (sidPort sid) g))
    (fuel : Nat) (sid : Sid) (g : Streams) : P fuel sid g (pullWithin depth fuel sid g) := by
  induction fuel generalizing sid g with
  | zero => exact dead sid g
  | succ fuel ih =>
    cases h : sidIsPort sid with
    | true => rw [pullWithin_port depth fuel g h]; exact port fuel sid g h
    | false => rw [pullWithin_node depth fuel g h]; exact node fuel sid g h ih

/-! ### `NEXT` -/

/-- If a `NEXT` ends in a next state, its pull answered or overflowed. -/
theorem finishNext_next {i : Instr} {s t : State} {p : Pulled} (h : finishNext i s p = .next t) :
    (∃ r g, p = .answer r g ∧
      t = (s.setStreams g).respond (if r.isSome then .ok else .ended) (r.elim 0 to32)) ∨
      ∃ g, p = .overflow g ∧ t = (s.setStreams g).raise .queueOvf (cwOf i) := by
  unfold finishNext at h
  split at h
  · cases h; exact .inl ⟨_, _, rfl, rfl⟩
  · cases h; exact .inr ⟨_, rfl, rfl⟩
  · cases h

end Sys2Proof.Machine
end

