-- ==== Sys2Proof/Laws/Spectrum.lean ====
section
/-! SUPPORT. The contract of the magnitude numerics can be met with every tolerance the spec admits, and the reference
instance meets it (spec 44_spectral_analyzer R178; 00_scope R5; 90_conflicts C16). -/

namespace Sys2Proof.Config

open Sys2Proof.Machine

/-! ### Patterns and magnitudes -/

/-- The fields of the pattern of a normal number with sign bit 0 (R9). -/
theorem normal_fields {e f : Nat} (he : e < 255) (hf : f < 2 ^ 23) :
    expField32 (BitVec.ofNat 32 (e * 2 ^ 23 + f)) = e ∧ fracField32 (BitVec.ofNat 32 (e * 2 ^ 23 + f)) = f ∧
      (BitVec.ofNat 32 (e * 2 ^ 23 + f)).getLsbD 31 = false := by
  have ht : (BitVec.ofNat 32 (e * 2 ^ 23 + f)).toNat = e * 2 ^ 23 + f := by
    rw [BitVec.toNat_ofNat, Nat.mod_eq_of_lt (by omega)]
  refine ⟨?_, ?_, ?_⟩
  · rw [expField32, BitVec.extractLsb'_toNat, ht, Nat.shiftRight_eq_div_pow]
    omega
  · rw [fracField32, BitVec.extractLsb'_toNat, ht, Nat.shiftRight_eq_div_pow]
    omega
  · rw [BitVec.getLsbD, ht]
    exact Nat.testBit_lt_two_pow (by omega)

/-- The value of a normal pattern with sign bit 0, and that it is a magnitude (R9, R42). -/
theorem normal_value {e f : Nat} (h1 : 1 ≤ e) (he : e < 255) (hf : f < 2 ^ 23) :
    isMagnitude (BitVec.ofNat 32 (e * 2 ^ 23 + f)) = true ∧
      val32 (BitVec.ofNat 32 (e * 2 ^ 23 + f)) = ((2 ^ 23 + f : Nat) : ℚ) * (2 : ℚ) ^ ((e : Int) - 150) := by
  obtain ⟨hx, hr, hs⟩ := normal_fields he hf
  have h0 : e ≠ 0 := by omega
  refine ⟨?_, ?_⟩
  · simp only [isMagnitude, isFinite32, hx, hs, Bool.not_false, Bool.and_true, bne_iff_ne]
    omega
  · simp only [val32, hx, hr, hs, if_neg h0, scale2_eq]
    simp

theorem zero_is_magnitude : isMagnitude (0 : Word) = true ∧ val32 (0 : Word) = 0 := by decide +kernel

/-- Every real from 0 up to `2^48` has a magnitude pattern within `2^-24` of it, relative to the larger of it and 1. -/
theorem exists_magnitude_near {x : ℝ} (h0 : 0 ≤ x) (h48 : x ≤ 2 ^ 48) :
    ∃ v : Word, isMagnitude v = true ∧ |((val32 v : ℚ) : ℝ) - x| ≤ (2 : ℝ) ^ (-24 : Int) * max x 1 := by
  by_cases hs : x < (2 : ℝ) ^ (-24 : Int)
  · refine ⟨0, zero_is_magnitude.1, ?_⟩
    rw [zero_is_magnitude.2, Rat.cast_zero, zero_sub, abs_neg, abs_of_nonneg h0]
    have := le_max_right x 1
    nlinarith [zpow_pos (two_pos : (0 : ℝ) < 2) (-24)]
  have hx : 0 < x := (zpow_pos two_pos _).trans_le (not_lt.1 hs)
  -- the binade of `x`, and its significand `y` in `[2^23, 2^24)`
  set e : Int := Int.log 2 x
  have lo : (2 : ℝ) ^ e ≤ x := by simpa using Int.zpow_log_le_self (b := 2) (by norm_num) hx
  have hi : x < (2 : ℝ) ^ (e + 1) := by simpa using Int.lt_zpow_succ_log_self (b := 2) (by norm_num) x
  have he1 : -24 ≤ e := by
    have := (zpow_lt_zpow_iff_right₀ (one_lt_two : (1 : ℝ) < 2)).1 ((not_lt.1 hs).trans_lt hi)
    omega
  have he2 : e ≤ 48 := by
    have h : (2 : ℝ) ^ e ≤ (2 : ℝ) ^ (48 : Int) := lo.trans (by exact_mod_cast h48)
    exact (zpow_le_zpow_iff_right₀ one_lt_two).1 h
  set u : ℝ := (2 : ℝ) ^ (e - 23)
  have hu : 0 < u := zpow_pos two_pos _
  have hu23 : (2 : ℝ) ^ e = 2 ^ 23 * u := by
    rw [show e = 23 + (e - 23) by ring, zpow_add₀ two_ne_zero]
    simp [u]
  have hu24 : (2 : ℝ) ^ (e + 1) = 2 ^ 24 * u := by
    rw [zpow_add_one₀ two_ne_zero, hu23]
    ring
  -- the significand rounded to a natural number
  obtain ⟨m, hm⟩ : ∃ m : Nat, |(m : ℝ) * u - x| ≤ u / 2 ∧ 2 ^ 23 ≤ m ∧ m ≤ 2 ^ 24 := by
    have hr := abs_sub_round (x / u)
    have l1 : (2 : ℝ) ^ 23 ≤ x / u := by rw [le_div_iff₀ hu, ← hu23]; exact lo
    have l2 : x / u < (2 : ℝ) ^ 24 := by rw [div_lt_iff₀ hu, ← hu24]; exact hi
    have b := abs_le.1 hr
    have m1 : (2 ^ 23 : Int) ≤ round (x / u) := by
      have : ((2 ^ 23 : Int) : ℝ) < ((round (x / u) + 1 : Int) : ℝ) := by push_cast; linarith
      have := Int.cast_lt.1 this
      omega
    have m2 : round (x / u) ≤ (2 ^ 24 : Int) := by
      have : ((round (x / u) : Int) : ℝ) < ((2 ^ 24 + 1 : Int) : ℝ) := by push_cast; linarith
      have := Int.cast_lt.1 this
      omega
    obtain ⟨m, hm⟩ := Int.eq_ofNat_of_zero_le ((by norm_num : (0 : Int) ≤ 2 ^ 23).trans m1)
    rw [hm] at hr m1 m2
    rw [Int.cast_natCast] at hr
    refine ⟨m, ?_, by exact_mod_cast m1, by exact_mod_cast m2⟩
    have : (m : ℝ) * u - x = -(x / u - m) * u := by field_simp; ring
    rw [this, abs_mul, abs_neg, abs_of_pos hu]
    have := mul_le_mul_of_nonneg_right hr hu.le
    linarith
  have herr : u / 2 ≤ (2 : ℝ) ^ (-24 : Int) * max x 1 := by
    have h1 : u / 2 = (2 : ℝ) ^ (-24 : Int) * (2 ^ 23 * u) := by norm_num; ring
    rw [h1, ← hu23]
    exact mul_le_mul_of_nonneg_left (lo.trans (le_max_left x 1)) (zpow_pos two_pos _).le
  obtain ⟨k, hk⟩ := Int.eq_ofNat_of_zero_le (show 0 ≤ e + 127 by omega)
  have hke : e = (k : Int) - 127 := by omega
  rcases hm.2.2.lt_or_eq with hlt | heq
  · obtain ⟨hmag, hval⟩ := normal_value (e := k) (f := m - 2 ^ 23) (by omega) (by omega) (by omega)
    refine ⟨_, hmag, le_trans (le_of_eq ?_) (hm.1.trans herr)⟩
    rw [hval, Nat.add_sub_cancel' hm.2.1]
    push_cast
    rw [show ((k : Int) - 150) = e - 23 by omega]
  · obtain ⟨hmag, hval⟩ := normal_value (e := k + 1) (f := 0) (by omega) (by omega) (by omega)
    refine ⟨_, hmag, le_trans (le_of_eq ?_) (hm.1.trans herr)⟩
    rw [hval, heq, show (((k + 1 : Nat) : Int) - 150) = e - 23 + 1 by omega, zpow_add_one₀ two_ne_zero]
    push_cast
    congr 2
    ring

/-! ### Windows -/

/-- Every sample of a window contributes at most `SMAX`, so the scale of the accuracy bound is below `2^47` (R178 (c)). -/
theorem absSum_le {w : List Int} (h : IsWindow w) : absSum w ≤ 2 ^ 47 := by
  have hs : absSum w ≤ w.length * 8388607 := by
    have hx := h.2.2
    clear h
    unfold absSum
    induction w with
    | nil => simp
    | cons a t ih =>
      have ha : a.natAbs ≤ 8388607 := by
        have := hx a (by simp)
        simp only [smax] at this
        omega
      have ht := ih fun x hm => hx x (by simp [hm])
      simp only [List.map_cons, List.sum_cons, List.length_cons]
      omega
  have := h.2.1
  omega

/-- The exact magnitude of every bin of a window has a magnitude pattern within `2^-24` of it on the scale of R178 (c). -/
theorem exists_accurate {w : List Int} (h : IsWindow w) (b : Nat) :
    ∃ v : Word, isMagnitude v = true ∧
      |((val32 v : ℚ) : ℝ) - exactMag w b| ≤ (2 : ℝ) ^ (-24 : Int) * absSum w := by
  have h0 : 0 ≤ exactMag w b := Real.sqrt_nonneg _
  have hle := exactMag_le_absSum w b
  rcases Nat.eq_zero_or_pos (absSum w) with hz | hp
  · refine ⟨0, zero_is_magnitude.1, ?_⟩
    rw [hz, Nat.cast_zero] at hle
    rw [zero_is_magnitude.2, hz, le_antisymm hle h0]
    simp
  · have h47 : ((absSum w : Nat) : ℝ) ≤ 2 ^ 47 := by exact_mod_cast absSum_le h
    obtain ⟨v, hv, hd⟩ := exists_magnitude_near h0 (by linarith : exactMag w b ≤ 2 ^ 48)
    refine ⟨v, hv, hd.trans (mul_le_mul_of_nonneg_left (max_le hle ?_) (zpow_pos two_pos _).le)⟩
    exact_mod_cast hp

/-! ### The contract -/

/-- Magnitudes that are correctly rounded, as those of the reference instance `fl32(MAG(w)[b])` of R178 are: no magnitude
pattern is nearer to the exact magnitude. -/
def CorrectlyRounded (bin : List Int → Nat → Word) : Prop :=
  ∀ w b, IsWindow w → b < w.length → isMagnitude (bin w b) = true ∧
    ∀ v : Word, isMagnitude v = true →
      |((val32 (bin w b) : ℚ) : ℝ) - exactMag w b| ≤ |((val32 v : ℚ) : ℝ) - exactMag w b|

/-- Correctly rounded magnitudes are an instance of the contract for every tolerance of at least `2^-24`: the reference
instance is admissible for every admissible `EPS_MAG` (R178, C16). -/
theorem correctlyRounded_admissible {bin : List Int → Nat → Word} (h : CorrectlyRounded bin) {eps : ℝ}
    (heps : (2 : ℝ) ^ (-24 : Int) ≤ eps) : ∃ m : SpaMag, m.eps = eps ∧ m.bin = bin :=
  ⟨{ eps := eps, bin := bin, eps_ge := heps
     finite_nonneg := fun w b hw hb => (h w b hw hb).1
     accurate := fun w b hw hb => by
      obtain ⟨v, hv, hd⟩ := exists_accurate hw b
      exact (((h w b hw hb).2 v hv).trans hd).trans (mul_le_mul_of_nonneg_right heps (Nat.cast_nonneg _)) },
    rfl, rfl⟩

/-- There are correctly rounded magnitudes: among finitely many patterns one is nearest. -/
theorem exists_correctlyRounded : ∃ bin, CorrectlyRounded bin := by
  have hne : ∃ v : Word, isMagnitude v = true := ⟨0, zero_is_magnitude.1⟩
  have key : ∀ (w : List Int) (b : Nat), ∃ v : Word, isMagnitude v = true ∧ ∀ v' : Word, isMagnitude v' = true →
      |((val32 v : ℚ) : ℝ) - exactMag w b| ≤ |((val32 v' : ℚ) : ℝ) - exactMag w b| := fun w b =>
    Set.exists_min_image {v : Word | isMagnitude v = true} (fun v => |((val32 v : ℚ) : ℝ) - exactMag w b|)
      (Set.toFinite _) hne
  choose bin hbin using key
  exact ⟨bin, fun w b _ _ => hbin w b⟩

/-- No tolerance the spec admits is shut out (R5, R178). -/
theorem exists_spaMag {eps : ℝ} (heps : (2 : ℝ) ^ (-24 : Int) ≤ eps) : ∃ m : SpaMag, m.eps = eps := by
  obtain ⟨bin, hbin⟩ := exists_correctlyRounded
  obtain ⟨m, hm, -⟩ := correctlyRounded_admissible hbin heps
  exact ⟨m, hm⟩

end Sys2Proof.Config
end

