-- ==== Sys2Proof/Tests/Slice0.lean ====
section
/-! SUPPORT. Tests: ill-formed terms, words written out from the encoding tables, single steps with the results of
spec/95_test_vectors.md, and for every statement that has hypotheses a concrete state and operands that meet them. -/

namespace Sys2Proof.Tests

open Sys2Proof Sys2Proof.Machine Sys2Proof.Config

/-! ### Well-formedness: one ill-formed term for each check (R84, R87, R100, R122, R150, R155, R218, R219) -/

theorem test_wellFormed_refuses_width :
    (Instr.lpfNew 0 0x80 0).wellFormed = false ∧ (Instr.lpfNew 0 0x80 16).wellFormed = false ∧
      (Instr.hpfNew 0 0x80 255).wellFormed = false ∧ (Instr.lpfNew 0 0x80 15).wellFormed = true := by decide

theorem test_wellFormed_refuses_channels :
    (Instr.dilNew 0 0x80 0).wellFormed = false ∧ (Instr.dilNew 0 0x80 9).wellFormed = false ∧
      (Instr.ilvNew 0 9).wellFormed = false ∧ (Instr.ilvNew 0 8).wellFormed = true := by decide

theorem test_wellFormed_refuses_sid :
    (Instr.next 0x88).wellFormed = false ∧ (Instr.next 0xFF).wellFormed = false ∧
      (Instr.teeNew 0 0x90).wellFormed = false ∧ (Instr.next 0x87).wellFormed = true := by decide

theorem test_wellFormed_refuses_feedback :
    (Instr.teeNew 0 0x00).wellFormed = false ∧ (Instr.dilNew 2 0x28 1).wellFormed = false ∧
      (Instr.ilvBind 1 0 0x08).wellFormed = false ∧ (Instr.teeNew 2 0x08).wellFormed = true := by decide

theorem test_wellFormed_refuses_index_and_register :
    (Instr.ilvBind 1 8 0x80).wellFormed = false ∧ (Instr.ilvBind 1 7 0x80).wellFormed = true ∧
      (Instr.regWr 0 5).wellFormed = false ∧ (Instr.regRd 0x0E).wellFormed = false ∧
      (Instr.regRd 0x0D).wellFormed = true := by decide

/-! ### Decoding: every constructor from a word written out bit by bit (R81, R86; 95_test_vectors 2.1) -/

theorem test_decode_node_commands :
    decode 0b0000_0001_1111_0000_1000_0111_0000_1111#32 0 = .ok (.lpfNew 15 0x87 15) ∧
      decode 0b0000_0010_0011_0000_0000_0001_0000_0010#32 0 = .ok (.hpfNew 3 0x01 2) ∧
      decode 0b0000_0011_0001_0000_1000_0000_0000_0000#32 0 = .ok (.teeNew 1 0x80) ∧
      decode 0b0000_0100_0000_0000_1000_0000_0000_0011#32 0 = .ok (.dilNew 0 0x80 3) ∧
      decode 0b0000_0101_0011_0000_0000_0000_0000_0010#32 0 = .ok (.ilvNew 3 2) ∧
      decode 0b0000_0110_0011_0001_0001_0000_0000_0000#32 0 = .ok (.ilvBind 3 1 0x10) := by decide

theorem test_decode_stream_and_operandless_commands :
    decode 0b0000_1000_0000_0000_0111_1111_0000_0000#32 0 = .ok (.next 0x7F) ∧
      decode 0b0001_0000_0000_0000_0000_0000_0000_0000#32 0 = .ok .spaRun ∧
      decode 0b0001_0001_0000_0000_0000_0000_0000_0000#32 0 = .ok .spaNext ∧
      decode 0b0001_0010_0000_0000_0000_0000_0000_0000#32 0 = .ok .axisNew ∧
      decode 0b0001_0011_0000_0000_0000_0000_0000_0000#32 0 = .ok .axisNext ∧
      decode 0b0011_1111_0000_0000_0000_0000_0000_0000#32 0 = .ok .reset := by decide

theorem test_decode_buffer_and_register_commands :
    decode 0b0001_1000_0000_0000_0000_0000_0000_0111#32 0xFFFFFF9C = .ok (.bufWr 7 0xFFFFFF9C) ∧
      decode 0b0001_1001_1111_1111_1111_1111_1111_1111#32 0 = .ok (.bufRd 0xFFFFFF) ∧
      decode 0b0010_0000_0000_0000_0000_0000_0000_1011#32 0x3DCCCCCD = .ok (.regWr 0x0B 0x3DCCCCCD) ∧
      decode 0b0010_0001_0000_0000_0000_0000_0000_1101#32 0 = .ok (.regRd 0x0D) := by decide

/-- The words the spec lists as matching no row, for their opcode. -/
theorem test_decode_refuses_opcodes :
    [0x00000000, 0xFFFFFFFF, 0x07000000, 0x09000000, 0x0F000000, 0x14000000, 0x17000000, 0x1A000000, 0x1F000000,
      0x22000000, 0x3E000000, 0x40000000, 0x80000000].all
        (fun cw : Word => decode cw 0 == .error (.unknownOpcode (cwOp cw))) = true := by decide

/-- The words the spec lists as matching no row, for a field that must be zero. -/
theorem test_decode_refuses_nonzero_fields :
    [(0x01110001#32, "LPF.NEW"), (0x03008001#32, "TEE.NEW"), (0x05008002#32, "ILV.NEW"), (0x06108001#32, "ILV.BIND"),
      (0x08008001#32, "NEXT"), (0x08018000#32, "NEXT"), (0x10000001#32, "SPA.RUN"), (0x11800000#32, "SPA.NEXT"),
      (0x12000100#32, "AXIS.NEW"), (0x13000001#32, "AXIS.NEXT"), (0x20000100#32, "REG.WR"), (0x21010000#32, "REG.RD"),
      (0x3F000001#32, "RESET"), (0x3F800000#32, "RESET")].all
        (fun r => decode r.1 0 == .error (.nonzeroField r.2)) = true := by decide

/-- Stream ids as the spec decodes them (R84). -/
theorem test_sid_fields :
    (sidIsPort 0x87, sidPort 0x87, sidFormed 0x87) = (true, 7, true) ∧
      (sidIsPort 0x0B, sidSlot 0x0B, sidPort 0x0B) = (false, 1, 3) ∧ (sidSlot 0x7F, sidPort 0x7F) = (15, 7) ∧
      sidFormed 0x88 = false ∧ (List.finRange 8).map portSid = [0x80, 0x81, 0x82, 0x83, 0x84, 0x85, 0x86, 0x87] ∧
      nodeSid 3 0 = 0x18 ∧ nodeSid 1 3 = 0x0B := by decide

/-! ### A small machine -/

/-- `BUFDEPTH` = 16, the queue depth given, every port exhausted after the words given for it. -/
def machine (depth : QueueDepth) (words : Fin 8 → List Word) : State :=
  { State.reset with streams := Streams.reset (Vector.ofFn fun p => ⟨words p, .ends⟩), params := ⟨⟨15, by decide⟩, depth⟩ }

/-- `QDEPTH` = 1 and no sample behind any port. -/
def base : State := machine (.samples 0) fun _ => []

/-- The same with unbounded queues and the words given behind ports 0 and 1. -/
def fed (words : List Word) : State := machine .unbounded fun p => if p.val < 2 then words else []

/-- The machine in the fault state. -/
def failed : State := { base with regs := { base.regs with status := 0x41, errinfo := 0x08000000 } }

def narrow : Width := ⟨1, by decide⟩
def widest : Width := ⟨15, by decide⟩
def two : Channels := ⟨2, by decide⟩
def eight : Channels := ⟨8, by decide⟩

/-- A deinterleaver with two channels in slot 0 and a complete interleaver of its ports in slot 3. -/
def stereo (s : State) : State :=
  (s.setNode 0 (.dil ⟨0x80, two, Vector.replicate 8 [], false⟩)).setNode 3
    (.ilv ⟨two, #v[some 0x00, some 0x01, none, none, none, none, none, none], Vector.replicate 8 0, 0, false, false⟩)

/-- The state after a command, and whether there is one. -/
def after (i : Instr) (s : State) : State := match exec i s with | .next t => t | _ => s
def completes (i : Instr) (s : State) : Bool := match exec i s with | .next _ => true | _ => false

theorem exec_eq_after {i : Instr} {s : State} (h : completes i s = true) : exec i s = .next (after i s) := by
  unfold completes at h
  unfold after
  cases he : exec i s <;> simp_all

/-- The response to a command. -/
def answer (i : Instr) (s : State) : Option Response := if completes i s then (after i s).resp else none

/-- A command faults with `code`, recording itself. -/
def faultsWith (e : Cause) (i : Instr) (s : State) : Bool :=
  answer i s == some ⟨.fault, e.code.zeroExtend 32⟩ && (after i s).regs.status == 1 + 16 * e.code.zeroExtend 32 &&
    (after i s).regs.errinfo == cwOf i && decide ((after i s).streams = s.streams)

/-! ### Single steps (results of 95_test_vectors) -/

theorem test_lpfNew : answer (.lpfNew 0 0x80 15) base = some ⟨.ok, 0⟩ ∧
    (after (.lpfNew 0 0x80 15) base).streams.node 0 = .lpf ⟨0x80, widest, 0⟩ := by decide

theorem test_lpfNew_faults : faultsWith .cfgWidth (.lpfNew 0 0x08 0) base = true ∧
    faultsWith .cfgBind (.lpfNew 0 0x00 1) base = true ∧ faultsWith .cfgBind (.lpfNew 1 0x00 1) base = true ∧
    faultsWith .cfgBind (.lpfNew 0 0x88 1) base = true := by decide

theorem test_hpfNew : answer (.hpfNew 2 0x01 2) (stereo base) = some ⟨.ok, 0⟩ ∧
    faultsWith .cfgWidth (.hpfNew 0 0x80 0) base = true := by decide

theorem test_teeNew : (after (.teeNew 1 0x80) base).streams.node 1 = .tee ⟨0x80, [], []⟩ ∧
    faultsWith .cfgBind (.teeNew 0 0x80) (stereo base) = true := by decide

theorem test_dilNew : (after (.dilNew 0 0x80 2) base).streams.node 0 = .dil ⟨0x80, two, Vector.replicate 8 [], false⟩ ∧
    faultsWith .cfgChannels (.dilNew 0 0x80 9) base = true := by decide

theorem test_ilvNew : answer (.ilvNew 3 2) base = some ⟨.ok, 0⟩ ∧
    faultsWith .cfgChannels (.ilvNew 3 0) base = true ∧ faultsWith .cfgBind (.ilvNew 3 2) (stereo base) = true := by decide

theorem test_ilvBind : answer (.ilvBind 3 1 0x81) (after (.ilvNew 3 2) base) = some ⟨.ok, 0⟩ ∧
    faultsWith .cfgBind (.ilvBind 3 2 0x81) (after (.ilvNew 3 2) base) = true ∧
    faultsWith .cfgBind (.ilvBind 3 1 0x81) (stereo base) = true := by decide

/-- `WAVG(-33, 7, 1)` = 2, where exact arithmetic gives 3; and the high-pass output outside 24 bits (R126, R143). -/
theorem test_next_filters :
    answer (.next 0x10) ((fed [to32 (-33)]).setNode 2 (.lpf ⟨0x80, narrow, 7⟩)) = some ⟨.ok, 2⟩ ∧
      answer (.next 0x10) ((fed [0x80000000]).setNode 2 (.hpf ⟨0x80, narrow, 8388000⟩)) =
        some ⟨.ok, to32 (-15098946)⟩ := by decide +kernel

/-- A tee whose other side is full (VT5), and a stereo pair whose second frame is cut short (R106, R151, R157). -/
theorem test_next_graphs :
    answer (.next 0x00) ((machine (.samples 1) fun _ => [3, 4]).setNode 0 (.tee ⟨0x80, [], [1, 2]⟩)) = some ⟨.fault, 9⟩ ∧
      answer (.next 0x18) (stereo (fed [5, 6, 7])) = some ⟨.ok, 5⟩ ∧
      answer (.next 0x18) (stereo (fed [7])) = some ⟨.ended, 0⟩ := by decide

/-- The machine with the three words of VAW2 and its registers. -/
def vaw2 : State :=
  { base with buf := [(0, 3), (1, -4), (2, 5)], regs := { base.regs with spaN := 3, spaW := 2 } }

theorem test_spaRun : answer .spaRun vaw2 = some ⟨.ok, 3⟩ ∧
    (after .spaRun vaw2).pts.map (fun p => (p.idx, p.freq)) = [(1, 0), (2, 0xC6AC4400), (2, 0)] := by decide +kernel

/-- VAW13, VAW14 and VAW8: the order of the checks. -/
theorem test_spaRun_faults : faultsWith .cfgWindow .spaRun base = true ∧
    faultsWith .bufRange .spaRun { base with regs := { base.regs with spaN := 17, spaW := 4 } } = true ∧
    faultsWith .emptyInput .spaRun { base with regs := { base.regs with spaW := 4 } } = true := by decide +kernel

theorem test_spaNext : answer .spaNext base = some ⟨.ended, 0⟩ := by decide

/-- VX1 and VX27. -/
theorem test_axisNew :
    answer .axisNew { base with regs := { base.regs with axEnd := 0x3E99999A, axStep := 0x3DCCCCCD } } = some ⟨.ok, 3⟩ ∧
      faultsWith .emptyInput .axisNew { base with regs := { base.regs with axStart := 0x7FC00000 } } = true := by
  decide +kernel

/-- VX36 and VX34. -/
theorem test_axisNext :
    answer .axisNext { base with regs := { base.regs with axStep := 0x3DCCCCCD, axCount := 9, axPos := 7 } } =
        some ⟨.ok, 0x3F333333⟩ ∧
      faultsWith .cfgAxis .axisNext
        { base with regs := { base.regs with axEnd := 0x7F7FFFFF, axStep := 0x737FFEA4, axCount := 16777564,
                                             axPos := 16777563 } } = true := by
  decide +kernel

theorem test_bufWr : (after (.bufWr 7 0xFFFFFF9C) base).buf.read 7 = some (-100) ∧
    (after (.bufWr 15 0xFF800000) base).buf.read 15 = some (-8388607) ∧
    faultsWith .bufRange (.bufWr 16 0) base = true := by decide

theorem test_bufRd : answer (.bufRd 1) vaw2 = some ⟨.ok, 0xFFFFFFFC⟩ ∧ faultsWith .bufRange (.bufRd 16) base = true := by
  decide

/-- VX33, and a write of a read-only register. -/
theorem test_regWr :
    (after (.regWr 0x0A 0x7FC00000) { base with regs := { base.regs with axCount := 3, axPos := 1 } }).regs =
        { base.regs with axEnd := 0x7FC00000 } ∧
      faultsWith .illegalCmd (.regWr 0 0) base = true := by decide

theorem test_regRd : answer (.regRd 4) base = some ⟨.ok, 0xAC44⟩ ∧ answer (.regRd 1) failed = some ⟨.ok, 0x08000000⟩ ∧
    answer (.regRd 0x0E) failed = some ⟨.refused, 0x41⟩ := by decide

theorem test_reset : answer .reset failed = some ⟨.ok, 0⟩ ∧ (after .reset vaw2).buf = vaw2.buf ∧
    (after .reset vaw2).regs = Regs.reset := by decide

/-- The examples of `FFTSHIFT` (S3, S4). -/
theorem test_fftShift : fftShift [0, 1, 2] = [2, 0, 1] ∧
    fftShift [0, 1, 2, 3, 4, -5, -4, -3, -2, -1] = [-5, -4, -3, -2, -1, 0, 1, 2, 3, 4] := by decide

/-- The next step after reset serves the transaction placed for it: `BUF.WR 7, -100` leaves nothing presented. -/
theorem test_withFetchWord : decodeTableWord 64 (0x18000007 + 2 ^ 32 * 0xFFFFFF9C) = some (.bufWr 7 0xFFFFFF9C) ∧
    (match step (base.withFetchWord 64 (0x18000007 + 2 ^ 32 * 0xFFFFFF9C)) with
      | .next t => (t.buf.read 7, t.port)
      | _ => (none, base.port)) = (some (-100), []) := by decide

/-! ### Witnesses: states and operands that meet the hypotheses of a statement together

Each is named after its statement; where a statement has several clauses there is one for each, at a boundary value. -/

def queueCheck (depth : QueueDepth) (q : List Int) : Bool :=
  (match depth with | .samples below => decide (q.length ≤ below + 1) | .unbounded => true) &&
    q.all fun v => decide (IsElement v)

def nodeCheck (depth : QueueDepth) (g : Streams) (n : Fin 16) : Node → Bool
  | .free => true
  | .lpf f => g.checkSrc n f.src && decide (IsSample f.prev)
  | .hpf f => g.checkSrc n f.src && decide (IsSample f.prev)
  | .tee t => g.checkSrc n t.src && queueCheck depth t.qa && queueCheck depth t.qb && decide (t.qa = [] ∨ t.qb = [])
  | .dil d => g.checkSrc n d.src &&
      (List.finRange 8).all fun k => queueCheck depth d.q[k] && decide (d.c.val ≤ k.val → d.q[k] = [])
  | .ilv x =>
    ((List.finRange 8).all fun k =>
        (match x.src[k] with | some sid => decide (k.val < x.c.val) && g.checkSrc n sid | none => true) &&
          decide (IsElement x.f[k])) && decide (x.ph.toNat < x.c.val) && decide (x.fv = false → x.ph = 0)

theorem queueOk_of_check {depth : QueueDepth} {q : List Int} (h : queueCheck depth q = true) : QueueOk depth q := by
  cases depth <;> simpa [queueCheck, QueueOk] using h

theorem nodeOk_of_check {depth : QueueDepth} {g : Streams} {n : Fin 16} {x : Node} (h : nodeCheck depth g n x = true) :
    NodeOk depth g n x := by
  cases x with
  | free => trivial
  | lpf f => simpa [nodeCheck, NodeOk] using h
  | hpf f => simpa [nodeCheck, NodeOk] using h
  | tee t =>
    simp only [nodeCheck, Bool.and_eq_true, decide_eq_true_eq] at h
    exact ⟨h.1.1.1, queueOk_of_check h.1.1.2, queueOk_of_check h.1.2, h.2⟩
  | dil d =>
    simp only [nodeCheck, Bool.and_eq_true, List.all_eq_true, decide_eq_true_eq] at h
    exact ⟨h.1, fun k => ⟨queueOk_of_check (h.2 k (List.mem_finRange k)).1, (h.2 k (List.mem_finRange k)).2⟩⟩
  | ilv x =>
    simp only [nodeCheck, Bool.and_eq_true, List.all_eq_true, decide_eq_true_eq] at h
    refine ⟨fun k sid hk => ?_, fun k => (h.1.1 k (List.mem_finRange k)).2, h.1.2, h.2⟩
    have := (h.1.1 k (List.mem_finRange k)).1
    rw [hk] at this
    simpa using this

theorem graphInv_of_check {s : State}
    (h : ((List.finRange 16).all fun n => nodeCheck s.params.qdepth s.streams n (s.streams.node n)) = true) :
    GraphInv s := fun n => nodeOk_of_check (List.all_eq_true.1 h n (List.mem_finRange n))

/-- A low-pass filter of width 1 on port 0 in slot 2, and a tee of it in slot 15. -/
def filtered (s : State) : State := (s.setNode 2 (.lpf ⟨0x80, narrow, 7⟩)).setNode 15 (.tee ⟨0x10, [], []⟩)

theorem graphInv_base : GraphInv base := graphInv_of_check (by decide)
theorem graphInv_stereo : GraphInv (stereo (fed [5, 6, 7])) := graphInv_of_check (by decide)
theorem graphInv_filtered : GraphInv (filtered (fed [5])) := graphInv_of_check (by decide)

theorem witness_EncodeAfterDecode : decode 0x20000003 4 = .ok (.regWr 3 4) := by decide

theorem witness_DecodeAgreesWithOpcodeMap : decode 0x03F08700 0 = .ok (.teeNew 15 0x87) ∧
    ∃ r ∈ opcodeMap, ∃ q ∈ opcodeMap, r.matches 0x3F000000 = true ∧ q.matches 0x3F000000 = true := by decide

theorem witness_StepServesTransaction : (base.present 0x08008000 0).port = .command 0x08008000 0 :: [] ∧
    decode 0x08008000 0 = .ok (.next 0x80) := by decide

theorem not_decoded {cw wd : Word} {e : DecodeError} (h : decode cw wd = .error e) : ∀ i, decode cw wd ≠ .ok i := by
  simp [h]

theorem witness_IllegalWordFaults :
    (base.present 0x00000000 0).port = .command 0x00000000 0 :: [] ∧ (∀ i, decode 0x00000000 0 ≠ .ok i) ∧
      (base.present 0x00000000 0).faulted = false ∧
      (failed.present 0x3F000001 0).port = .command 0x3F000001 0 :: [] ∧ (∀ i, decode 0x3F000001 0 ≠ .ok i) ∧
      (failed.present 0x3F000001 0).faulted = true :=
  ⟨rfl, not_decoded (e := .unknownOpcode 0) (by decide), by decide, rfl,
    not_decoded (e := .nonzeroField "RESET") (by decide), by decide⟩

theorem witness_HardResetAndIdle : ({ vaw2 with port := [.hardReset] } : State).port = .hardReset :: [] ∧
    vaw2.port = [] := by decide

/-- `REG.RD` of register 0x0E, of register 0x0D, and `RESET`. -/
theorem witness_FaultStateRefuses : (failed.present 0x2100000E 0).faulted = true ∧
    (failed.present 0x2100000E 0).port = .command 0x2100000E 0 :: [] ∧ (0x2100000E : Word) ≠ 0x3F000000 ∧
    (∀ regno : BitVec 8, regno.toNat ≤ 0x0D → (0x2100000E : Word) ≠ 0x21000000 + regno.zeroExtend 32) ∧
    (failed.present 0x2100000D 0).port = .command 0x2100000D 0 :: [] ∧ failed.regs.inOrder[(0x0D#8).toNat]? = some 0 ∧
    (0x2100000D : Word) = 0x21000000 + (0x0D#8).zeroExtend 32 ∧
    (failed.present 0x3F000000 0).port = .command 0x3F000000 0 :: [] := by decide

theorem witness_FaultStateLeftOnlyByReset : (failed.present 0x3F000001 0).faulted = true ∧
    step (failed.present 0x3F000001 0) = .next failed.refuse ∧
    (∀ rest, (failed.present 0x3F000001 0).port ≠ .hardReset :: rest) ∧
    (∀ wd rest, (failed.present 0x3F000001 0).port ≠ .command 0x3F000000 wd :: rest) ∧
    (∃ wd rest, (failed.present 0x3F000000 0).port = .command 0x3F000000 wd :: rest) ∧
    ∃ rest, ({ failed with port := [.hardReset] } : State).port = .hardReset :: rest :=
  ⟨by decide, rfl, by simp [State.present], by simp [State.present], ⟨0, [], rfl⟩, ⟨[], rfl⟩⟩

theorem witness_StatusWrittenOnlyByFaults : base.faulted = false ∧
    exec (.regWr 5 0) base = .next (after (.regWr 5 0) base) ∧ exec .spaNext base = .next (after .spaNext base) :=
  ⟨by decide, exec_eq_after (by decide), exec_eq_after (by decide)⟩

theorem witness_FaultsArePrecise_and_FaultCausesPerCommand : base.faulted = false ∧
    exec (.next 0) base = .next (after (.next 0) base) ∧ (after (.next 0) base).faulted = true ∧
    (after (.next 0) base).regs.status ≠ 0x91 :=
  ⟨by decide, exec_eq_after (by decide), by decide, by decide⟩

theorem witness_FilterNewCreates :
    (base.faulted = false ∧ (1#8).toNat = narrow.val ∧ base.streams.node (slotOf 0) = .free ∧ sidFormed 0x80 = true ∧
      sidIsPort 0x80 = true ∧ base.streams.live 0x80 = true) ∧
    ((stereo base).faulted = false ∧ (15#8).toNat = widest.val ∧ (stereo base).streams.node (slotOf 4) = .free ∧
      sidFormed 0x18 = true ∧ (sidSlot 0x18).val < (4#4).toNat ∧ (stereo base).streams.live 0x18 = true) := by decide

theorem witness_TeeNewCreates : (stereo base).faulted = false ∧ (stereo base).streams.node (slotOf 15) = .free ∧
    sidFormed 0x01 = true ∧ (sidSlot 0x01).val < (15#4).toNat ∧ (stereo base).streams.live 0x01 = true := by decide

theorem witness_DilNewCreates : base.faulted = false ∧ (8#8).toNat = eight.val ∧
    base.streams.node (slotOf 0) = .free ∧ sidFormed 0x87 = true ∧ sidIsPort 0x87 = true ∧
    base.streams.live 0x87 = true := by decide

theorem witness_IlvNewCreates : base.faulted = false ∧ (8#8).toNat = eight.val ∧
    base.streams.node (slotOf 15) = .free := by decide

/-- An interleaver with nothing bound in slot 3. -/
def unbound : IlvNode := ⟨two, Vector.replicate 8 none, Vector.replicate 8 0, 0, false, false⟩

theorem witness_IlvBindBinds : (base.setNode 3 (.ilv unbound)).faulted = false ∧
    (base.setNode 3 (.ilv unbound)).streams.node (slotOf 3) = .ilv unbound ∧ (1#4).toNat = (1 : Fin 8).val ∧
    (1 : Fin 8).val < unbound.c.val ∧ unbound.src[(1 : Fin 8)] = none ∧ sidFormed 0x81 = true ∧
    sidIsPort 0x81 = true ∧ (base.setNode 3 (.ilv unbound)).streams.live 0x81 = true := by decide

/-- Widths 0 and 16, counts 0 and 9, a used slot, a source that is not well formed, that is the slot itself, that is not
live; an interleaver used up in each way `ILV.BIND` can meet. -/
theorem witness_NodeCommandsFault : base.faulted = false ∧ (0#8).toNat = 0 ∧ 15 < (16#8).toNat ∧ 8 < (9#8).toNat ∧
    (stereo base).faulted = false ∧ (stereo base).streams.node (slotOf 3) ≠ .free ∧ sidFormed 0x88 = false ∧
    (sidIsPort 0x28 = false ∧ (5#4).toNat ≤ (sidSlot 0x28).val) ∧ (stereo base).streams.live 0x02 = false ∧
    1 ≤ (1#8).toNat ∧ (8#8).toNat ≤ 8 ∧ (15#8).toNat ≤ 15 ∧
    (base.setNode 3 (.ilv unbound)).streams.node (slotOf 3) = .ilv unbound ∧ unbound.c.val ≤ (2#4).toNat ∧
    ({ unbound with src := unbound.src.set 1 (some 0x80) } : IlvNode).src[(1 : Fin 8)] ≠ none := by decide

theorem witness_NodeCommandsFault_noInterleaver : ∀ x, base.streams.node (slotOf 3) ≠ .ilv x := by
  have h : base.streams.node (slotOf 3) = .free := by decide
  exact fun x hx => by cases h.symm.trans hx

theorem witness_NextOnExternalPort : (fed [5]).faulted = false ∧ (fed [5]).streams.xeos[(1 : Fin 8)] = false ∧
    (fed [5]).streams.xs[(1 : Fin 8)].answer 1 = some 5 ∧ (fed []).streams.xs[(7 : Fin 8)].answer 7 = none ∧
    (after (.next 0x87) base).faulted = false ∧ (after (.next 0x87) base).streams.xeos[(7 : Fin 8)] = true := by decide

/-- The last id of a port and the first one not formed; the last of a node and the first of a port. -/
theorem witness_NextBadStreamFaults_ids : sidFormed 0x87 = true ∧ sidFormed 0x88 = false ∧ sidIsPort 0x7F = false ∧
    sidIsPort 0x80 = true ∧ (0x7F#8).toNat < 0x80 := by decide

theorem witness_NextBadStreamFaults : base.faulted = false ∧ sidFormed 0x88 = false ∧ base.streams.live 0x00 = false ∧
    (stereo base).streams.live 0x02 = false := by decide

theorem witness_NextCompletes : GraphInv (stereo (fed [5, 6, 7])) ∧ (stereo (fed [5, 6, 7])).faulted = false ∧
    (stereo (fed [5, 6, 7])).params.qdepth = .unbounded ∧ sidFormed 0x18 = true ∧
    (stereo (fed [5, 6, 7])).streams.live 0x18 = true := ⟨graphInv_stereo, by decide⟩

/-- Pulling the low-pass filter in slot 2 leaves the tee above it and port 7 alone. -/
theorem witness_NextTouchesOnlyUpstream : (filtered (fed [5])).faulted = false ∧
    exec (.next 0x10) (filtered (fed [5])) = .next (after (.next 0x10) (filtered (fed [5]))) ∧
    (∀ r : Sid, Feeds (filtered (fed [5])).streams 0x10 r → sidIsPort r = false → sidSlot r ≠ 15) ∧
    (∀ r : Sid, Feeds (filtered (fed [5])).streams 0x10 r → sidIsPort r = true → sidPort r ≠ 7) ∧
    GraphInv (filtered (fed [5])) ∧ (sidSlot 0x10).val < (15 : Fin 16).val := by
  have hf : ∀ r : Sid, Feeds (filtered (fed [5])).streams 0x10 r → r = 0x10 ∨ r = 0x80 := by
    intro r hr
    induction hr with
    | self => exact .inl rfl
    | source mid src _ hp hm ih =>
      obtain rfl | rfl := ih
      · have hs : ((filtered (fed [5])).streams.node (sidSlot 0x10)).sources = [0x80] := by decide
        rw [hs] at hm
        exact .inr (by simpa using hm)
      · exact absurd hp (by decide)
  refine ⟨by decide, exec_eq_after (by decide +kernel), fun r hr _ => ?_, fun r hr hp => ?_, graphInv_filtered, by decide⟩
  · obtain rfl | rfl := hf r hr <;> decide
  · obtain rfl | rfl := hf r hr
    · exact absurd hp (by decide)
    · decide

/-- A stereo pair that has ended, then a node is created and the other port is pulled. -/
theorem witness_ExhaustedStreamStaysExhausted : GraphInv (stereo (fed [7])) ∧ (stereo (fed [7])).faulted = false ∧
    exec (.next 0x18) (stereo (fed [7])) = .next (after (.next 0x18) (stereo (fed [7]))) ∧
    Answered (after (.next 0x18) (stereo (fed [7]))) .ended 0 ∧ Instr.reset ∉ [Instr.teeNew 5 0x18, .next 0x81] ∧
    issue [.teeNew 5 0x18, .next 0x81] (after (.next 0x18) (stereo (fed [7]))) =
      some (after (.next 0x81) (after (.teeNew 5 0x18) (after (.next 0x18) (stereo (fed [7]))))) ∧
    (after (.next 0x81) (after (.teeNew 5 0x18) (after (.next 0x18) (stereo (fed [7]))))).faulted = false :=
  ⟨graphInv_of_check (by decide), by decide, exec_eq_after (by decide), by decide, by decide, by decide, by decide⟩

/-- A machine with `QDEPTH` = 2, in slot 15 a tee of port 0 with the queues given. -/
def lagging (qa qb : List Int) : State :=
  (machine (.samples 1) fun _ => [3, 4]).setNode 15 (.tee ⟨portSid 0, qa, qb⟩)

/-- Side A two elements ahead, then side B. -/
theorem witness_QueueOverflowFaults_port :
    ((lagging [] [1, 2]).faulted = false ∧ (lagging [] [1, 2]).params.qdepth = .samples 1 ∧
      (lagging [] [1, 2]).streams.node 15 = .tee ⟨portSid 0, [], [1, 2]⟩ ∧ ([1, 2] : List Int).length = 1 + 1 ∧
      Behind (lagging [] [1, 2]) 0 (3 :: [4])) ∧
    ((lagging [1, 2] []).streams.node 15 = .tee ⟨portSid 0, [1, 2], []⟩ ∧ Behind (lagging [1, 2] []) 0 (3 :: [4])) := by
  decide

/-- A machine with `QDEPTH` = 1: in slot 2 a low-pass filter, in slot 3 a tee of it with the queues given, in slot 4 a
deinterleaver of port 1 with three channels, of which channel 2 lags. -/
def crowded (qa qb : List Int) : State :=
  (((machine (.samples 0) fun _ => [3, 4, 5]).setNode 2 (.lpf ⟨0x80, narrow, 7⟩)).setNode 3 (.tee ⟨0x10, qa, qb⟩)).setNode 4
    (.dil ⟨0x81, ⟨3, by decide⟩, #v[[], [], [9], [], [], [], [], []], false⟩)

theorem witness_QueueOverflowFaults_origin :
    (GraphInv (crowded [] [8]) ∧ (crowded [] [8]).faulted = false ∧ (crowded [] [8]).params.qdepth = .samples 0 ∧
      (crowded [] [8]).streams.node 3 = .tee ⟨0x10, [], [8]⟩ ∧ ([8] : List Int).length = 0 + 1 ∧
      exec (.next 0x10) (crowded [] [8]) = .next (after (.next 0x10) (crowded [] [8])) ∧
      Answered (after (.next 0x10) (crowded [] [8])) .ok 6) ∧
    (GraphInv (crowded [8] []) ∧ (crowded [8] []).streams.node 3 = .tee ⟨0x10, [8], []⟩ ∧
      exec (.next 0x10) (crowded [8] []) = .next (after (.next 0x10) (crowded [8] [])) ∧
      Answered (after (.next 0x10) (crowded [8] [])) .ok 6) :=
  ⟨⟨graphInv_of_check (by decide), by decide, by decide, by decide, by decide, exec_eq_after (by decide +kernel),
      by decide +kernel⟩,
    graphInv_of_check (by decide), by decide, exec_eq_after (by decide +kernel), by decide +kernel⟩

/-- Channel 1 is pulled, channel 0 has room, channel 2 is full. -/
theorem witness_QueueOverflowFaults_deinterleaver :
    GraphInv (crowded [] []) ∧ (crowded [] []).faulted = false ∧ (crowded [] []).params.qdepth = .samples 0 ∧
      ∃ d : DilNode, (crowded [] []).streams.node 4 = .dil d ∧ d.done = false ∧ (1 : Fin 8).val < d.c.val ∧
        d.q[(1 : Fin 8)] = [] ∧ (2 : Fin 8).val < d.c.val ∧ (2 : Fin 8) ≠ 1 ∧ d.q[(2 : Fin 8)].length = 0 + 1 ∧
        (∀ j : Fin 8, j.val < (2 : Fin 8).val → j ≠ 1 → d.q[j].length < 0 + 1) ∧
        (collect (List.replicate d.c.val d.src) (crowded [] [])).map Prod.fst = some ([3, 4, 5].map some) :=
  ⟨graphInv_of_check (by decide), by decide, by decide,
    ⟨0x81, ⟨3, by decide⟩, #v[[], [], [9], [], [], [], [], []], false⟩, by decide⟩

theorem witness_LowPassSequence : (filtered (fed [5])).faulted = false ∧ IsSample 7 ∧ Behind (filtered (fed [5])) 0 [5] ∧
    (filtered (fed [5])).streams.node 2 = .lpf ⟨portSid 0, narrow, 7⟩ := by decide

/-- A low-pass filter on port 0 and a high-pass filter on port 1, both of width 1. -/
def crossover : State :=
  ((fed [5, 0x80000000]).setNode 0 (.lpf ⟨0x80, narrow, 0⟩)).setNode 1 (.hpf ⟨0x81, narrow, 0⟩)

theorem witness_ReconstructionLaw : crossover.faulted = false ∧ (0 : Fin 8) ≠ 1 ∧ Behind crossover 0 [5, 0x80000000] ∧
    Behind crossover 1 [5, 0x80000000] ∧ crossover.streams.node 0 = .lpf ⟨portSid 0, narrow, 0⟩ ∧
    crossover.streams.node 1 = .hpf ⟨portSid 1, narrow, 0⟩ := by decide

theorem witness_TeeLaw : ((fed [5, 6]).setNode 0 (.tee ⟨portSid 0, [], []⟩)).faulted = false ∧
    ((fed [5, 6]).setNode 0 (.tee ⟨portSid 0, [], []⟩)).params.qdepth = .unbounded ∧
    Behind ((fed [5, 6]).setNode 0 (.tee ⟨portSid 0, [], []⟩)) 0 [5, 6] ∧
    ((fed [5, 6]).setNode 0 (.tee ⟨portSid 0, [], []⟩)).streams.node 0 = .tee ⟨portSid 0, [], []⟩ := by decide

theorem witness_DeinterleaveLaw : (stereo (fed [5, 6, 7])).faulted = false ∧
    (stereo (fed [5, 6, 7])).params.qdepth = .unbounded ∧ Behind (stereo (fed [5, 6, 7])) 0 [5, 6, 7] ∧
    (stereo (fed [5, 6, 7])).streams.node 0 = .dil ⟨portSid 0, two, Vector.replicate 8 [], false⟩ ∧
    ∀ k ∈ [(1 : Fin 8), 0, 1], k.val < two.val := by decide

/-- The interleaver of `stereo`. -/
def merger : IlvNode :=
  ⟨two, #v[some 0x00, some 0x01, none, none, none, none, none, none], Vector.replicate 8 0, 0, false, false⟩

theorem witness_InterleaveRoundTrip : (stereo (fed [5, 6, 7])).faulted = false ∧ Behind (stereo (fed [5, 6, 7])) 0 [5, 6, 7] ∧
    (stereo (fed [5, 6, 7])).streams.node 0 = .dil ⟨portSid 0, two, Vector.replicate 8 [], false⟩ ∧
    (stereo (fed [5, 6, 7])).streams.node 3 = .ilv merger ∧ merger.c = two ∧ merger.fv = false ∧ merger.done = false ∧
    ∀ j : Fin 8, j.val < two.val → merger.src[j] = some (nodeSid 0 j) := by decide

theorem witness_WavgRange_and_WideFilterIsSilent : IsSample 8388607 ∧ IsSample (-8388607) ∧
    7 ≤ (⟨7, by decide⟩ : Width).val := by decide

/-- A value that is not a pattern's, and a tie between 1 and its successor, which goes to the even 1. -/
theorem witness_Fl32IsNearest : isFinite32 (fl32 (1 / 3)) = true ∧ isFinite32 0x3F800001 = true ∧
    |1 + 1 / 2 ^ 24 - val32 (fl32 (1 + 1 / 2 ^ 24))| = |(1 + 1 / 2 ^ 24 : ℚ) - val32 0x3F800001| ∧
    val32 0x3F800001 ≠ val32 (fl32 (1 + 1 / 2 ^ 24)) := by decide +kernel

theorem witness_Fl32OfPattern : isFinite32 0x80000000 = true ∧ isFinite32 0x7F7FFFFF = true := by decide

/-- All sixteen words written; `N` = 16 with `W` = 2^31, `N` = 16 with `W` = 4, and `N` = 1 with `W` = 2. -/
def loaded (n width : Word) : State :=
  { base with buf := (List.range 16).map (fun a : Nat => (a, (0 : Int))), regs := { base.regs with spaN := n, spaW := width } }

theorem witness_SpaRunCompletes :
    ((loaded 16 0x80000000).faulted = false ∧ LegalRun (loaded 16 0x80000000) ∧ RangeWritten (loaded 16 0x80000000)) ∧
      ((loaded 1 2).faulted = false ∧ LegalRun (loaded 1 2) ∧ RangeWritten (loaded 1 2)) :=
  ⟨⟨by decide, ⟨⟨31, by decide⟩, by decide⟩, by decide⟩, ⟨by decide, ⟨⟨1, by decide⟩, by decide⟩, by decide⟩⟩

theorem witness_SpaRunPoints_and_ZeroBufferGivesZeroMagnitudes :
    (loaded 16 4).faulted = false ∧ LegalRun (loaded 16 4) ∧ RangeWritten (loaded 16 4) ∧
      (∀ a : Nat, a < (loaded 16 4).regs.spaN.toNat → (loaded 16 4).buf.read a = some 0) ∧
      exec .spaRun (loaded 16 4) = .next (after .spaRun (loaded 16 4)) :=
  ⟨by decide, ⟨⟨2, by decide⟩, by decide⟩, by decide, by decide, exec_eq_after (by decide +kernel)⟩

theorem not_two_pow {n : Nat} (h : ∀ k : Fin 32, 1 ≤ k.val → n ≠ 2 ^ k.val) (hn : n < 2 ^ 32) :
    ∀ k : Nat, 1 ≤ k → n ≠ 2 ^ k := by
  intro k hk he
  have : k < 32 := (Nat.pow_lt_pow_iff_right (by decide : 1 < 2)).1 (he ▸ hn)
  exact h ⟨k, this⟩ hk he

/-- Window sizes 0, 1 and 3; then `N` = 0 and `N` = `BUFDEPTH` + 1 with `W` = 2. -/
theorem witness_SpaRunFaults : (loaded 0 0).faulted = false ∧
    (∀ k : Nat, 1 ≤ k → (loaded 0 0).regs.spaW.toNat ≠ 2 ^ k) ∧
    (∀ k : Nat, 1 ≤ k → (loaded 16 1).regs.spaW.toNat ≠ 2 ^ k) ∧
    (∀ k : Nat, 1 ≤ k → (loaded 16 3).regs.spaW.toNat ≠ 2 ^ k) ∧
    (∃ k : Nat, 1 ≤ k ∧ (loaded 0 2).regs.spaW.toNat = 2 ^ k) ∧ (loaded 0 2).regs.spaN = 0 ∧
    (∃ k : Nat, 1 ≤ k ∧ (loaded 17 2).regs.spaW.toNat = 2 ^ k) ∧
    (loaded 17 2).params.bufDepth < (loaded 17 2).regs.spaN.toNat :=
  ⟨by decide, not_two_pow (by decide) (by decide), not_two_pow (by decide) (by decide), not_two_pow (by decide) (by decide),
    ⟨1, by decide⟩, by decide, ⟨1, by decide⟩, by decide⟩

/-- No word written: the last word of the buffer, and a run with one window. -/
def unwritten : State := { base with regs := { base.regs with spaN := 2, spaW := 2 } }

theorem witness_UnwrittenWordStops : base.faulted = false ∧ (15#24).toNat < base.params.bufDepth ∧
    base.buf.read (15#24).toNat = none ∧ unwritten.faulted = false ∧ LegalRun unwritten ∧
    unwritten.regs.spaW.toNat / 2 < unwritten.regs.spaN.toNat ∧ unwritten.buf.read 0 = none :=
  ⟨by decide, by decide, by decide, by decide, ⟨⟨1, by decide⟩, by decide⟩, by decide, by decide⟩

theorem witness_FftShiftCentres : (0 : Nat) < [5, 6, 7].length ∧ [5, 6, 7] ≠ [] ∧ 2 < [5, 6, 7].length := by decide

theorem witness_ExactMagnitudeFacts : 1 ≤ 3 ∧ 3 < [4, -5, 6, 7].length ∧ [-3] = [(-3 : Int)] ∧
    ∀ x ∈ [0, (0 : Int)], x = 0 := by decide

/-- The spec's example of R184: `w = [0, 1, 0, -1]` is a sine of amplitude 1 at bin 1. -/
theorem witness_SinusoidEnergy : (0 : ℝ) ≤ 1 ∧ 0 < 1 ∧ 2 * 1 < [0, 1, 0, (-1 : Int)].length ∧
    ∀ n : Fin [0, 1, 0, (-1 : Int)].length, (([0, 1, 0, (-1 : Int)].get n : Int) : ℝ) =
      1 * Real.sin (2 * Real.pi * ((1 : Nat) : ℝ) * n / ([0, 1, 0, (-1 : Int)].length : Nat) + 0) := by
  refine ⟨by norm_num, by norm_num, by decide, fun n => ?_⟩
  have h1 : (2 * Real.pi / 4 : ℝ) = Real.pi / 2 := by ring
  have h2 : (2 * Real.pi * 2 / 4 : ℝ) = Real.pi := by ring
  have h3 : (2 * Real.pi * 3 / 4 : ℝ) = Real.pi / 2 + Real.pi := by ring
  fin_cases n
  · simp
  · simp [h1]
  · simp [h2]
  · simp [h3, Real.sin_add]

/-- A store with one point. -/
def stocked : State := { base with pts := [⟨2, 0, 0x40400000⟩], regs := { base.regs with spaNpts := 1 } }

theorem witness_SpaNextDelivers : base.faulted = false ∧ base.pts = [] ∧ stocked.faulted = false ∧ stocked.pts ≠ [] := by
  decide

/-- The axis registers at three patterns, with a count and a position. -/
def axis (start stop step count pos : Word) : State :=
  { base with regs := { base.regs with axStart := start, axEnd := stop, axStep := step, axCount := count, axPos := pos } }

/-- VX17, the largest legal quotient. -/
theorem witness_AxisNewCompletes : (axis 0 0x4F7FFFFF 0x3F800000 0 0).faulted = false ∧ isFinite32 0 = true ∧
    isFinite32 0x4F7FFFFF = true ∧ isFinite32 0x3F800000 = true ∧ 0 < val32 0x3F800000 ∧
    isInf32 (fl32 (val32 0x4F7FFFFF - val32 0)) = false ∧
    isInf32 (fl32 (val32 (fl32 (val32 0x4F7FFFFF - val32 0)) / val32 0x3F800000)) = false ∧
    val32 (fl32 (val32 (fl32 (val32 0x4F7FFFFF - val32 0)) / val32 0x3F800000)) < 2 ^ 32 := by decide +kernel

/-- An operand of each kind that is rejected: NaN; step -0; a difference, a quotient that overflows; a quotient of 2^32. -/
theorem witness_AxisNewFaults : base.faulted = false ∧ isFinite32 0x7FC00001 = false ∧ val32 0x80000000 ≤ 0 ∧
    isInf32 (fl32 (val32 0x7F61B1E6 - val32 0xFF61B1E6)) = true ∧
    isInf32 (fl32 (val32 (fl32 (val32 0x3F800000 - val32 0)) / val32 0x00000001)) = true ∧
    2 ^ 32 ≤ val32 (fl32 (val32 (fl32 (val32 0x4F800000 - val32 0)) / val32 0x3F800000)) := by decide +kernel

/-- An axis that has ended, one at its last term, and VX34, whose last term overflows. -/
theorem witness_AxisNextCompletes :
    ((axis 0 0 0 0 0).faulted = false ∧ (axis 0 0 0 0 0).regs.axCount.toNat ≤ (axis 0 0 0 0 0).regs.axPos.toNat) ∧
      ((axis 0 0x3E99999A 0x3DCCCCCD 3 2).regs.axPos.toNat < (axis 0 0x3E99999A 0x3DCCCCCD 3 2).regs.axCount.toNat ∧
        axisTerm 0 0x3DCCCCCD 2 = some 0x3E4CCCCD) ∧
      (axis 0 0x7F7FFFFF 0x737FFEA4 16777564 16777563).regs.axPos.toNat <
          (axis 0 0x7F7FFFFF 0x737FFEA4 16777564 16777563).regs.axCount.toNat ∧
        isInf32 (fl32 (val32 (fl32 (16777563 : Nat)) * val32 0x737FFEA4)) = true := by decide +kernel

theorem witness_AxisTermsNonDecreasing : isFinite32 0x494E7E00 = true ∧ isFinite32 0x3BF70211 = true ∧
    0 < val32 0x3BF70211 ∧ 46 ≤ 48 ∧ axisTerm 0x494E7E00 0x3BF70211 46 = some 0x494E7E06 ∧
    axisTerm 0x494E7E00 0x3BF70211 48 = some 0x494E7E06 := by decide +kernel

theorem witness_AxisAgreesWithAnalyzer : (1 ≤ 1 ∧ 1 ≤ 2 ^ 23 ∧ 2 ^ 1 * 2 ^ 23 ≤ 2 ^ 24 ∧ 1 < 2 ^ 1) ∧
    (1 ≤ 24 ∧ 1 ≤ 1 ∧ 2 ^ 24 * 1 ≤ 2 ^ 24 ∧ 2 ^ 24 - 1 < 2 ^ 24) := by decide

theorem witness_BufWrStores : base.faulted = false ∧ (15#24).toNat < base.params.bufDepth ∧
    base.params.bufDepth ≤ (16#24).toNat := by decide

theorem witness_BufRdReads : vaw2.faulted = false ∧ (2#24).toNat < vaw2.params.bufDepth ∧
    vaw2.buf.read (2#24).toNat = some 5 ∧ vaw2.params.bufDepth ≤ (0xFFFFFF#24).toNat := by decide

theorem witness_RegWrWrites : base.faulted = false ∧ regOf 2 = some .spaN ∧ regOf 0x0B = some .axStep ∧ regOf 4 = some .spaR ∧ (4#8).toNat ∈ [2, 3, 4, 9, 10, 11] ∧
    regOf 9 = some .axStart ∧ 9 ≤ (9#8).toNat ∧ RegName.axEnd ≠ .axStart ∧ (8#8).toNat ∉ [2, 3, 4, 9, 10, 11] ∧
    (0xFF#8).toNat ∉ [2, 3, 4, 9, 10, 11] := by decide

theorem witness_RegRdReads : base.regs.inOrder[(0x00#8).toNat]? = some 0 ∧
    base.regs.inOrder[(0x04#8).toNat]? = some 0xAC44 ∧ base.regs.inOrder[(0x0D#8).toNat]? = some 0 ∧ regOf 0 = some .status ∧ regOf 0x0D = some .axPos ∧ (0x0D#8).toNat ≤ 0x0D ∧
    0x0D < (0x0E#8).toNat ∧ base.faulted = false := by decide

/-- The state after a step, and whether there is one. -/
def stepped (s : State) : State := match step s with | .next t => t | _ => s
def stepCompletes (s : State) : Bool := match step s with | .next _ => true | _ => false

theorem step_eq_stepped {s : State} (h : stepCompletes s = true) : step s = .next (stepped s) := by
  unfold stepCompletes at h
  unfold stepped
  cases he : step s <;> simp_all

theorem witness_StepKeepsGraphInvariant : GraphInv ((stereo (fed [5, 6, 7])).present 0x08001800 0) ∧
    step ((stereo (fed [5, 6, 7])).present 0x08001800 0) =
      .next (stepped ((stereo (fed [5, 6, 7])).present 0x08001800 0)) :=
  ⟨graphInv_of_check (by decide), step_eq_stepped (by decide)⟩

theorem witness_StepKeepsBufferInvariant : BufInv (vaw2.present 0x18000000 9) ∧
    step (vaw2.present 0x18000000 9) = .next (stepped (vaw2.present 0x18000000 9)) :=
  ⟨⟨by decide, by decide⟩, step_eq_stepped (by decide)⟩

/-- A register write that ends an axis. -/
def endingAxis : State := (axis 0 0x3E99999A 0x3DCCCCCD 3 1).present 0x2000000A 0

theorem witness_StepKeepsRegisterInvariant :
    BufInv endingAxis ∧ StatusInv endingAxis ∧ AxisInv endingAxis ∧ PointCountInv endingAxis ∧
      PointValueInv endingAxis ∧ step endingAxis = .next (stepped endingAxis) :=
  ⟨⟨by decide, by decide⟩, .inl (by decide), ⟨by decide, fun _ => by decide +kernel⟩, rfl,
    ⟨by decide, by decide⟩, step_eq_stepped (by decide)⟩

theorem inv_stereo : Inv (stereo (fed [5, 6, 7])) :=
  ⟨graphInv_stereo, ⟨by decide, by decide⟩, .inl (by decide), ⟨by decide, fun h => absurd (by decide) h⟩, rfl,
    ⟨by decide, by decide⟩⟩

theorem witness_EveryRunIsSafe : Inv (stereo (fed [5, 6, 7])) := inv_stereo

end Sys2Proof.Tests
end

section
/-! PROOFS. The step of a decoded transaction, saturation, and binary32 rounding (spec 00_scope R8, R9, R12; 30_encoding
R83; 47_numeric_laws R229). -/

namespace Sys2Proof.Proofs

open Sys2Proof Sys2Proof.Machine Sys2Proof.Config

/-! ### The step and saturation -/

/-- A transaction whose words decode is the decoded command. -/
theorem transact_of_decode {cw wd : Word} {i : Instr} (h : decode cw wd = .ok i) (s : State) :
    transact cw wd s = exec i s := by simp [transact, h]

/-- Settles O5: a presented transaction is served, and serving a decoded one is its command's meaning. -/
theorem stepServesTransaction : Obligations.StepServesTransaction := by
  intro s cw wd rest i hport hdec
  rw [step_command hport, transact_of_decode hdec]

theorem sat24_below {z : Int} (h : z < -smax) : sat24 z = -smax := if_pos h

theorem sat24_above {z : Int} (h : smax < z) : sat24 z = smax := by
  unfold sat24 smax at *
  rw [if_neg (by omega), if_pos h]

/-- Settles O33, one lemma for each of the three ranges; `-2^23` is in the lowest. -/
theorem sat24Clamps : Obligations.Sat24Clamps :=
  ⟨fun _ => ⟨sat24_below, sat24_above, fun hl hu => sat24_of_sample ⟨hl, hu⟩⟩, sat24_below (by decide)⟩

/-! ### Rounding to `p + 1` significant bits -/

/-- The integer of magnitude `m` with the sign given. -/
def withSign (neg : Bool) (m : Nat) : Int := if neg then -(m : Int) else m

/-- With the sign of `t`, a magnitude is as far from `t` as it is from `|t|` without. -/
theorem abs_sub_withSign (t : ℚ) (m : Nat) : |t - (withSign (decide (t < 0)) m : ℚ)| = |(|t| - m)| := by
  by_cases h : t < 0
  · have hs : (withSign (decide (t < 0)) m : ℚ) = -m := by simp [withSign, h]
    rw [hs, abs_of_neg h, ← abs_neg]
    ring_nf
  · rw [abs_of_nonneg (not_lt.1 h)]
    simp [withSign, h]

theorem abs_withSign (neg : Bool) (m : Nat) : |(withSign neg m : ℚ)| = m := by
  cases neg <;> simp [withSign]

/-- `m` units of `2^u` are `|q|` rounded to `p + 1` bits, ties to even, no unit being below `2^emin` (R9); distances are
counted in units. -/
structure Rounds (p : Nat) (emin : Int) (q : ℚ) (m : Nat) (u : Int) : Prop where
  emin_le : emin ≤ u
  near : 2 * |(|q| / 2 ^ u - m)| ≤ 1
  even_of_tie : 2 * |(|q| / 2 ^ u - m)| = 1 → m % 2 = 0
  lt_binade : |q| / 2 ^ u < 2 ^ (p + 1)
  binade_le : u = emin ∨ 2 ^ p ≤ |q| / 2 ^ u

/-- `rne` is within half of the quotient, and at half only where it is even. -/
theorem rne_near (n d : Nat) (hd : 0 < d) :
    2 * |(n : ℚ) / d - rne n d| ≤ 1 ∧ (2 * |(n : ℚ) / d - rne n d| = 1 → rne n d % 2 = 0) := by
  obtain ⟨hlo, hhi, htie⟩ := rne_spec n d hd
  generalize rne n d = r at *
  have hd' : (0 : ℚ) < d := by exact_mod_cast hd
  have hx : (n : ℚ) = n / d * d := (div_mul_cancel₀ _ hd'.ne').symm
  have hlo' : (2 * n : ℚ) ≤ d * (2 * r + 1) := by exact_mod_cast hlo
  have hhi' : (d * (2 * r) : ℚ) ≤ 2 * n + d := by exact_mod_cast hhi
  generalize (n : ℚ) / d = x at *
  refine ⟨?_, fun h => htie ?_⟩
  · have h1 : x - r ≤ 1 / 2 := le_of_mul_le_mul_right (by linarith) hd'
    have h2 : -(1 / 2) ≤ x - r := le_of_mul_le_mul_right (by linarith) hd'
    linarith [abs_le.2 ⟨h2, h1⟩]
  · rcases abs_choice (x - r) with ha | ha <;> rw [ha] at h
    · left
      have : (2 * n : ℚ) = d * (2 * r + 1) := by rw [hx]; linear_combination (d : ℚ) * h
      exact_mod_cast this
    · right
      have : (d * (2 * r) : ℚ) = 2 * n + d := by rw [hx]; linear_combination (d : ℚ) * h
      exact_mod_cast this

/-- Rounding in units of `2^u`, whichever side of the quotient the power of two is multiplied into. -/
theorem rne_unit_near (n d : Nat) (hd : 0 < d) (u : Int) :
    let m := if 0 ≤ u then rne n (d * 2 ^ u.toNat) else rne (n * 2 ^ (-u).toNat) d
    2 * |(n : ℚ) / d / 2 ^ u - m| ≤ 1 ∧ (2 * |(n : ℚ) / d / 2 ^ u - m| = 1 → m % 2 = 0) := by
  intro m
  by_cases hu : 0 ≤ u
  · obtain ⟨k, rfl⟩ := Int.eq_ofNat_of_zero_le hu
    have hx : (n : ℚ) / d / 2 ^ (k : Int) = (n : ℚ) / (d * 2 ^ k : Nat) := by push_cast; rw [zpow_natCast, div_div]
    rw [hx, show m = rne n (d * 2 ^ k) from if_pos hu]
    exact rne_near n _ (by positivity)
  · obtain ⟨k, hk⟩ := Int.eq_ofNat_of_zero_le (show 0 ≤ -u by omega)
    have hx : (n : ℚ) / d / 2 ^ u = ((n * 2 ^ k : Nat) : ℚ) / d := by
      rw [show u = -(k : Int) by omega, zpow_neg, zpow_natCast]; push_cast; field_simp
    rw [hx, show m = rne (n * 2 ^ k) d by simp [m, if_neg hu, hk]]
    exact rne_near _ d hd

/-- A value that reaches the binade of the unit `2^u` and stays below the end of that of `2^v` orders the units. -/
theorem unit_le_of_binade {p : Nat} {u v : Int} {x : ℚ} (hlo : 2 ^ p * 2 ^ u ≤ x) (hhi : x < 2 ^ (p + 1) * 2 ^ v) :
    u ≤ v := by
  have h : (2 : ℚ) ^ ((p : Int) + u) < 2 ^ (((p + 1 : Nat) : Int) + v) := by
    rw [zpow_add₀ two_ne_zero, zpow_add₀ two_ne_zero, zpow_natCast, zpow_natCast]
    exact hlo.trans_lt hhi
  have := (zpow_lt_zpow_iff_right₀ (one_lt_two : (1 : ℚ) < 2)).1 h
  push_cast at this
  omega

/-- What `quantise` computes (R9): the significand and the unit of the rounded magnitude. -/
theorem quantise_rounds (p : Nat) (emin : Int) (q : ℚ) :
    Rounds p emin q (quantise (p + 1) emin q).1 (quantise (p + 1) emin q).2 := by
  by_cases h0 : q.num.natAbs = 0
  · obtain rfl : q = 0 := by simpa using h0
    simp only [quantise, if_pos h0]
    exact ⟨le_rfl, by simp, by simp, by simp, .inl rfl⟩
  have habs : |q| = (q.num.natAbs : ℚ) / q.den := by
    conv_lhs => rw [← Rat.num_div_den q]
    rw [abs_div, Nat.abs_cast, Nat.cast_natAbs, Int.cast_abs]
  obtain ⟨hlo, hhi⟩ := floorLog2_spec q.num.natAbs q.den (Nat.pos_of_ne_zero h0) q.pos
  have hnear := rne_unit_near q.num.natAbs q.den q.pos
    (max (floorLog2 q.num.natAbs q.den - (((p + 1 : Nat) : Int) - 1)) emin)
  rw [← habs] at hlo hhi hnear
  simp only [quantise, if_neg h0]
  generalize floorLog2 q.num.natAbs q.den = k at *
  have hu : max (k - (((p + 1 : Nat) : Int) - 1)) emin = max (k - p) emin := by push_cast; ring_nf
  rw [hu] at hnear ⊢
  have hone : (1 : ℚ) ≤ 2 := one_le_two
  refine ⟨le_max_right _ _, hnear.1, hnear.2, ?_, ?_⟩
  · rw [div_lt_iff₀ (zpow_pos two_pos _), ← zpow_natCast, ← zpow_add₀ two_ne_zero]
    refine hhi.trans_le (zpow_le_zpow_right₀ hone ?_)
    push_cast
    omega
  · rcases le_total (k - p) emin with h | h
    · exact .inl (max_eq_right h)
    · right
      rw [max_eq_left h, le_div_iff₀ (zpow_pos two_pos _), ← zpow_natCast, ← zpow_add₀ two_ne_zero]
      simpa using hlo

section
variable {p : Nat} {emin : Int} {q : ℚ} {m : Nat} {u : Int}

/-- Rounding up reaches the next binade at most. -/
theorem Rounds.le_pow (h : Rounds p emin q m u) : m ≤ 2 ^ (p + 1) := by
  have hm : (m : ℚ) < ((2 ^ (p + 1) + 1 : Nat) : ℚ) := by
    push_cast
    linarith [neg_abs_le (|q| / 2 ^ u - m), h.near, h.lt_binade]
  have := Nat.cast_lt.1 hm
  omega

/-- Above the least unit the significand has its leading bit. -/
theorem Rounds.pow_le (h : Rounds p emin q m u) : u = emin ∨ 2 ^ p ≤ m := by
  refine h.binade_le.imp_right fun hb => ?_
  have hm : ((2 ^ p : Nat) : ℚ) < ((m + 1 : Nat) : ℚ) := by
    push_cast
    linarith [le_abs_self (|q| / 2 ^ u - m), h.near]
  have := Nat.cast_lt.1 hm
  omega

/-- The rounded value with the sign of `q` is as near to `q` as the magnitude is to `|q|`. -/
theorem Rounds.abs_sub_eq :
    |q / 2 ^ u - (withSign (decide (q < 0)) m : ℚ)| = |(|q| / 2 ^ u - m)| := by
  have hpos : (0 : ℚ) < 2 ^ u := zpow_pos two_pos u
  have hneg : q / 2 ^ u < 0 ↔ q < 0 := by rw [div_lt_iff₀ hpos, zero_mul]
  have := abs_sub_withSign (q / 2 ^ u) m
  rwa [abs_div, abs_of_pos hpos, decide_eq_decide.2 hneg] at this

/-- A magnitude of `m` units of `2^u`, in the normal form of the format, is rounded to itself. -/
theorem Rounds.unique {m' : Nat} {u' : Int} (h : Rounds p emin q m u) (hq : |q| = m' * 2 ^ u') (he : emin ≤ u')
    (hlt : m' < 2 ^ (p + 1)) (hle : u' = emin ∨ 2 ^ p ≤ m') : m = m' ∧ u = u' := by
  have hpos : ∀ k : Int, (0 : ℚ) < 2 ^ k := fun k => zpow_pos two_pos k
  have hu : u = u' := by
    refine le_antisymm ?_ ?_
    · rcases h.binade_le with rfl | hb
      · exact he
      · have hlt' : (m' : ℚ) < 2 ^ (p + 1) := by exact_mod_cast hlt
        rw [hq, le_div_iff₀ (hpos u)] at hb
        exact unit_le_of_binade hb (mul_lt_mul_of_pos_right hlt' (hpos u'))
    · rcases hle with rfl | hb
      · exact h.emin_le
      · have hb' : (2 : ℚ) ^ p ≤ m' := by exact_mod_cast hb
        have hl := h.lt_binade
        rw [hq, div_lt_iff₀ (hpos u)] at hl
        exact unit_le_of_binade (mul_le_mul_of_nonneg_right hb' (hpos u').le) hl
  subst hu
  have hn := h.near
  rw [hq, mul_div_cancel_right₀ _ (zpow_pos two_pos u).ne'] at hn
  have hint : 2 * |(m' : Int) - m| ≤ 1 := by exact_mod_cast hn
  have hz : (m' : Int) - m = 0 := abs_eq_zero.1 (by have := abs_nonneg ((m' : Int) - m); omega)
  exact ⟨by omega, rfl⟩

end

/-- An integer within half of `t` is a nearest integer to `t`, and another is as near only at a distance of half. -/
theorem nearest_integer {t : ℚ} {a : Int} (h : 2 * |t - a| ≤ 1) {b : Int} (hb : b ≠ a) : 1 ≤ 2 * |t - b| := by
  have hab : (1 : ℚ) ≤ |(a : ℚ) - b| := by exact_mod_cast Int.one_le_abs (sub_ne_zero.2 hb.symm)
  have htri : |(a : ℚ) - b| ≤ |t - a| + |t - b| := by
    rw [abs_sub_comm t a]
    exact abs_sub_le _ _ _
  linarith

/-- An integer within half of `t` is strictly nearer than any value below an integer bound that `|t|` reaches. -/
theorem nearer_than_below {t : ℚ} {a : Int} (h : 2 * |t - a| ≤ 1) {B : Nat} (hB : (B : ℚ) ≤ |t|) {y : ℚ}
    (hy : |y| < B) : |t - a| < |t - y| := by
  have hbound : |t - (withSign (decide (t < 0)) B : ℚ)| = |t| - B := by
    rw [abs_sub_withSign, abs_of_nonneg (sub_nonneg.2 hB)]
  have hle : |t - a| ≤ |t| - B := by
    rw [← hbound]
    by_cases hb : withSign (decide (t < 0)) B = a
    · rw [hb]
    · linarith [nearest_integer h hb]
  linarith [abs_sub_abs_le_abs_sub t y]

/-! ### Binary32 patterns -/

/-- The significand of a binary32 pattern, with its leading bit (R9). -/
def sig32 (w : Word) : Nat := if expField32 w = 0 then fracField32 w else 2 ^ 23 + fracField32 w

/-- The exponent of a binary32 pattern's unit (R9). -/
def unit32 (w : Word) : Int := (if expField32 w = 0 then 1 else (expField32 w : Int)) - 150

theorem val32_eq (w : Word) : val32 w = (withSign (w.getLsbD 31) (sig32 w) : ℚ) * 2 ^ unit32 w := by
  simp only [val32, scale2_eq, withSign, sig32, unit32]

theorem abs_val32 (w : Word) : |val32 w| = (sig32 w : ℚ) * 2 ^ unit32 w := by
  rw [val32_eq, abs_mul, abs_withSign, abs_of_pos (zpow_pos two_pos _)]

theorem expField32_eq (w : Word) : expField32 w = w.toNat / 2 ^ 23 % 2 ^ 8 := by
  rw [expField32, BitVec.extractLsb'_toNat, Nat.shiftRight_eq_div_pow]

theorem fracField32_eq (w : Word) : fracField32 w = w.toNat % 2 ^ 23 := by
  rw [fracField32, BitVec.extractLsb'_toNat, Nat.shiftRight_zero]

theorem unit32_ge (w : Word) : -149 ≤ unit32 w := by
  unfold unit32
  split <;> omega

theorem sig32_lt (w : Word) : sig32 w < 2 ^ 24 := by
  have := fracField32_eq w
  unfold sig32
  split <;> omega

/-- Above the least unit the significand of a pattern has its leading bit. -/
theorem sig32_normal (w : Word) : unit32 w = -149 ∨ 2 ^ 23 ≤ sig32 w := by
  unfold unit32 sig32
  split <;> omega

/-- The pattern with the sign and the lower 31 bits given. -/
def pattern (neg : Bool) (c : Nat) : Word := BitVec.ofNat 32 (c + if neg then 2 ^ 31 else 0)

/-- The lower 31 bits for `m` units of `2^u`: a carry out of the fraction counts the exponent up. -/
def code (m : Nat) (u : Int) : Nat := (u + 149).toNat * 2 ^ 23 + m

theorem toNat_pattern (neg : Bool) {c : Nat} (hc : c < 2 ^ 31) :
    (pattern neg c).toNat = c + if neg then 2 ^ 31 else 0 := by
  rw [pattern, BitVec.toNat_ofNat, Nat.mod_eq_of_lt (by split <;> omega)]

theorem getLsbD_31_eq (w : Word) : w.getLsbD 31 = decide (2 ^ 31 ≤ w.toNat) := by
  rw [← BitVec.msb_eq_getLsbD_last, BitVec.msb_eq_decide]

theorem getLsbD_31_pattern (neg : Bool) {c : Nat} (hc : c < 2 ^ 31) : (pattern neg c).getLsbD 31 = neg := by
  rw [getLsbD_31_eq, toNat_pattern neg hc]
  cases neg with
  | false => simp; omega
  | true => simp

theorem expField32_pattern (neg : Bool) {c : Nat} (hc : c < 2 ^ 31) : expField32 (pattern neg c) = c / 2 ^ 23 := by
  rw [expField32_eq, toNat_pattern neg hc]
  split <;> omega

theorem fracField32_pattern (neg : Bool) {c : Nat} (hc : c < 2 ^ 31) : fracField32 (pattern neg c) = c % 2 ^ 23 := by
  rw [fracField32_eq, toNat_pattern neg hc]
  split <;> omega

theorem getLsbD_0_pattern (neg : Bool) {c : Nat} (hc : c < 2 ^ 31) (heven : c % 2 = 0) :
    (pattern neg c).getLsbD 0 = false := by
  rw [BitVec.getLsbD, toNat_pattern neg hc, Nat.testBit_zero]
  cases neg <;> simp <;> omega

/-- A pattern is its sign and the code of its significand and unit. -/
theorem pattern_of_fields (w : Word) : pattern (w.getLsbD 31) (code (sig32 w) (unit32 w)) = w := by
  have hw := w.isLt
  have hc : code (sig32 w) (unit32 w) = w.toNat % 2 ^ 31 := by
    unfold code sig32 unit32
    rw [expField32_eq, fracField32_eq]
    split <;> omega
  rw [hc]
  refine BitVec.eq_of_toNat_eq ?_
  rw [toNat_pattern _ (by omega), getLsbD_31_eq]
  simp only [decide_eq_true_eq]
  split <;> omega

/-- The only pattern with the sign bit set and significand 0 is that of `-0`. -/
theorem eq_negZero_of_sig32 {w : Word} (hs : w.getLsbD 31 = true) (hz : sig32 w = 0) : w = 0x80000000 := by
  have hu : unit32 w = -149 := (sig32_normal w).resolve_right (by omega)
  rw [← pattern_of_fields w, hs, hz, hu]
  rfl

/-- A finite pattern is below the infinity's. -/
theorem code_lt_of_finite {w : Word} (h : isFinite32 w = true) : code (sig32 w) (unit32 w) < 0x7F800000 := by
  have he : expField32 w ≠ 255 := by simpa [isFinite32] using h
  have := expField32_eq w
  have := fracField32_eq w
  unfold code sig32 unit32
  split <;> omega

/-- The value of the pattern for `m` units of `2^u`; at `m = 2^24` the carry has doubled the unit. -/
theorem val32_pattern_code (neg : Bool) {m : Nat} {u : Int} (hu : -149 ≤ u) (hm : m ≤ 2 ^ 24)
    (hn : u = -149 ∨ 2 ^ 23 ≤ m) (hc : code m u < 2 ^ 31) :
    val32 (pattern neg (code m u)) = (withSign neg m : ℚ) * 2 ^ u := by
  have he := expField32_pattern neg hc
  have hf := fracField32_pattern neg hc
  rw [val32_eq, getLsbD_31_pattern neg hc]
  rcases hm.lt_or_eq with hlt | rfl
  · have hs : sig32 (pattern neg (code m u)) = m := by
      rw [sig32, he, hf, code]
      split <;> omega
    have hx : unit32 (pattern neg (code m u)) = u := by
      rw [unit32, he, code]
      split <;> omega
    rw [hs, hx]
  · have hs : sig32 (pattern neg (code (2 ^ 24) u)) = 2 ^ 23 := by
      rw [sig32, he, hf, code]
      split <;> omega
    have hx : unit32 (pattern neg (code (2 ^ 24) u)) = u + 1 := by
      rw [unit32, he, code]
      split <;> omega
    rw [hs, hx, zpow_add_one₀ two_ne_zero]
    cases neg <;> simp [withSign] <;> ring

/-- A pattern whose unit is no smaller than `2^u` is a whole number of these. -/
theorem val32_on_grid {w : Word} {u : Int} (h : u ≤ unit32 w) : ∃ j : Int, val32 w / 2 ^ u = j := by
  obtain ⟨k, hk⟩ := Int.eq_ofNat_of_zero_le (sub_nonneg.2 h)
  refine ⟨withSign (w.getLsbD 31) (sig32 w) * 2 ^ k, ?_⟩
  rw [val32_eq, show unit32 w = u + k by omega, zpow_add₀ two_ne_zero, zpow_natCast]
  push_cast
  field_simp

/-- A pattern whose unit is smaller than `2^u` lies below the binade of that unit. -/
theorem abs_val32_lt {w : Word} {u : Int} (h : unit32 w < u) : |val32 w / 2 ^ u| < ((2 ^ 23 : Nat) : ℚ) := by
  have hsig : (sig32 w : ℚ) < 2 ^ 24 := by exact_mod_cast sig32_lt w
  have hunit : (2 : ℚ) ^ (unit32 w + 1) ≤ 2 ^ u := zpow_le_zpow_right₀ one_le_two (by omega)
  rw [zpow_add_one₀ two_ne_zero] at hunit
  rw [abs_div, abs_val32, abs_of_pos (zpow_pos two_pos u), div_lt_iff₀ (zpow_pos two_pos u)]
  calc (sig32 w : ℚ) * 2 ^ unit32 w < 2 ^ 24 * 2 ^ unit32 w := mul_lt_mul_of_pos_right hsig (zpow_pos two_pos _)
    _ = 2 ^ 23 * (2 ^ unit32 w * 2) := by ring
    _ ≤ ((2 ^ 23 : Nat) : ℚ) * 2 ^ u := by push_cast; linarith

/-! ### `fl32` -/

/-- `fl32` is the pattern of the quantised magnitude, or the infinity, with the sign of the value. -/
theorem fl32_eq (q : ℚ) :
    fl32 q = pattern (decide (q < 0))
      (min 0x7F800000 (code (quantise 24 (-149) q).1 (quantise 24 (-149) q).2)) := by
  simp only [fl32, pattern, code, Rat.num_neg, decide_eq_true_eq, min_def]

/-- A finite `fl32 q` is the pattern of a correct rounding of `q`. -/
theorem fl32_finite {q : ℚ} (h : isFinite32 (fl32 q) = true) :
    ∃ m u, Rounds 23 (-149) q m u ∧ code m u < 0x7F800000 ∧ fl32 q = pattern (decide (q < 0)) (code m u) := by
  refine ⟨_, _, quantise_rounds 23 (-149) q, ?_⟩
  rw [fl32_eq] at h ⊢
  by_cases hc : code (quantise 24 (-149) q).1 (quantise 24 (-149) q).2 < 0x7F800000
  · exact ⟨hc, by rw [min_eq_right hc.le]⟩
  · rw [min_eq_left (not_lt.1 hc), isFinite32, expField32_pattern _ (by decide)] at h
    exact absurd h (by decide)

/-- Counted in units of the rounding of `q`, no pattern is nearer to `q` than the rounding, and one of another value is
as near only where the significand is even: it is an integer too, or lies below the binade of `q` and is farther. -/
theorem Rounds.nearest {q : ℚ} {m : Nat} {u : Int} (h : Rounds 23 (-149) q m u) (v : Word) :
    |q / 2 ^ u - (withSign (decide (q < 0)) m : ℚ)| ≤ |q / 2 ^ u - val32 v / 2 ^ u| ∧
      (|q / 2 ^ u - (withSign (decide (q < 0)) m : ℚ)| = |q / 2 ^ u - val32 v / 2 ^ u| →
        val32 v / 2 ^ u ≠ (withSign (decide (q < 0)) m : ℚ) → m % 2 = 0) := by
  have hnear := h.near
  have htie := h.even_of_tie
  rw [← Rounds.abs_sub_eq] at hnear htie
  by_cases hgrid : u ≤ unit32 v
  · obtain ⟨j, hj⟩ := val32_on_grid hgrid
    rw [hj]
    by_cases hjm : j = withSign (decide (q < 0)) m
    · rw [hjm]
      exact ⟨le_rfl, fun _ hne => absurd rfl hne⟩
    · have hfar := nearest_integer hnear hjm
      exact ⟨by linarith, fun heq _ => htie (by linarith)⟩
  · have hu := unit32_ge v
    have hbin : ((2 ^ 23 : Nat) : ℚ) ≤ |q / 2 ^ u| := by
      rw [abs_div, abs_of_pos (zpow_pos two_pos u : (0 : ℚ) < 2 ^ u)]
      exact_mod_cast h.binade_le.resolve_left (by omega)
    have hlt := nearer_than_below hnear hbin (abs_val32_lt (not_le.1 hgrid))
    exact ⟨hlt.le, fun heq _ => absurd heq hlt.ne⟩

/-- Settles O37: `Rounds.nearest`, with the distances in units of the result turned into distances. -/
theorem fl32IsNearest : Obligations.Fl32IsNearest := by
  intro q v hq _
  obtain ⟨m, u, hr, hc, hfl⟩ := fl32_finite hq
  have hpos : (0 : ℚ) < 2 ^ u := zpow_pos two_pos u
  have hres : val32 (fl32 q) / 2 ^ u = (withSign (decide (q < 0)) m : ℚ) := by
    rw [hfl, val32_pattern_code _ hr.emin_le hr.le_pow hr.pow_le (by omega), mul_div_cancel_right₀ _ hpos.ne']
  have hunits : ∀ y : ℚ, |q - y| = |q / 2 ^ u - y / 2 ^ u| * 2 ^ u := fun y => by
    rw [← sub_div, abs_div, abs_of_pos hpos, div_mul_cancel₀ _ hpos.ne']
  obtain ⟨hle, htie⟩ := hr.nearest v
  rw [hunits, hunits, hres, mul_le_mul_iff_left₀ hpos, mul_left_inj' hpos.ne']
  refine ⟨hle, fun heq hne => ?_⟩
  have hm : m % 2 = 0 := htie heq fun h => hne ((div_left_inj' hpos.ne').1 (h.trans hres.symm))
  rw [hfl]
  exact getLsbD_0_pattern _ (by omega) (by unfold code; omega)

/-- A pattern's value is negative exactly where its sign bit is set and its significand is not zero. -/
theorem val32_neg_iff (w : Word) : val32 w < 0 ↔ w.getLsbD 31 = true ∧ sig32 w ≠ 0 := by
  have hpos : (0 : ℚ) < 2 ^ unit32 w := zpow_pos two_pos _
  rw [val32_eq, ← not_le, mul_nonneg_iff_of_pos_right hpos]
  cases w.getLsbD 31 <;> simp [withSign]

/-- The value of a pattern is rounded to the pattern's own significand and unit. -/
theorem quantise_val32 (w : Word) : quantise 24 (-149) (val32 w) = (sig32 w, unit32 w) := by
  obtain ⟨hm, hu⟩ := (quantise_rounds 23 (-149) (val32 w)).unique (abs_val32 w) (unit32_ge w) (sig32_lt w)
    (sig32_normal w)
  exact Prod.ext hm hu

/-- Settles O38: quantising gives the pattern's own fields back, so only the sign bit of a zero is lost. -/
theorem fl32OfPattern : Obligations.Fl32OfPattern := by
  intro v hv
  have hfl : fl32 (val32 v) = pattern (decide (val32 v < 0)) (code (sig32 v) (unit32 v)) := by
    rw [fl32_eq, quantise_val32, min_eq_right (code_lt_of_finite hv).le]
  by_cases hneg0 : v = 0x80000000
  · subst hneg0
    decide +kernel
  · have hsign : decide (val32 v < 0) = v.getLsbD 31 := by
      rw [Bool.eq_iff_iff, decide_eq_true_iff, val32_neg_iff]
      exact and_iff_left_of_imp fun hs hz => hneg0 (eq_negZero_of_sig32 hs hz)
    rw [if_neg hneg0, hfl, hsign, pattern_of_fields]

end Sys2Proof.Proofs
end

section
/-! PROOFS. What a command can do to the state, said once for all sixteen commands and for the step (spec 30_encoding R83, R86;
60_exceptions R245, R247). -/

namespace Sys2Proof.Proofs

open Sys2Proof Sys2Proof.Machine Sys2Proof.Config

/-- What a command with command word `cw` other than `RESET` can do to the state: every next state it can end in, with what
held when it was reached. -/
inductive Effect (cw : Word) (s : State) : State → Prop where
  /-- The refusal of the fault state (R247). -/
  | refused (hfault : s.faulted = true) : Effect cw s s.refuse
  /-- A fault that leaves the streams alone (R246). -/
  | raised (e : Cause) : Effect cw s (s.raise e cw)
  /-- A read of a register or of the buffer. -/
  | answered (rd : Word) : Effect cw s (s.ok rd)
  /-- Nothing left to deliver: no point, no axis term. -/
  | ended : Effect cw s s.ended
  /-- A node put into a free slot, in order whatever the capacity of the queues. -/
  | created (n : Fin 16) (x : Node) (hfree : s.streams.node n = .free)
      (hok : ∀ depth, NodeOk depth s.streams n x) : Effect cw s ((s.setNode n x).ok 0)
  /-- An input of an interleaver bound. -/
  | bound (n : Fin 16) (x y : IlvNode) (k : BitVec 4) (src : Sid) (hnode : s.streams.node n = .ilv x)
      (hbind : x.bind k src = some y) (hsrc : s.streams.checkSrc n src = true) :
      Effect cw s ((s.setNode n (.ilv y)).ok 0)
  /-- A pull of a live stream that answered. -/
  | pulled (sid : Sid) (r : Option Int) (g : Streams) (hlive : s.streams.live sid = true)
      (hpull : pull s.params.qdepth sid s.streams = .answer r g) :
      Effect cw s ((s.setStreams g).respond (if r.isSome then .ok else .ended) (r.elim 0 to32))
  /-- A pull of a live stream that found a queue full. -/
  | overflowed (sid : Sid) (g : Streams) (hlive : s.streams.live sid = true)
      (hpull : pull s.params.qdepth sid s.streams = .overflow g) :
      Effect cw s ((s.setStreams g).raise .queueOvf cw)
  /-- A word of the buffer written. -/
  | bufWritten (addr : Nat) (z : Int) (haddr : addr < s.params.bufDepth) :
      Effect cw s (({ s with buf := s.buf.write addr (sat24 z) } : State).ok 0)
  /-- A register written by the host. -/
  | regWritten (n : RegName) (v : Word) (hn : n.writable = true) :
      Effect cw s ((s.setRegs (s.regs.hostWrite n v)).ok 0)
  /-- The point store filled from the windows of the buffer. -/
  | analysed (pts : List Point) (hsize : windowSizeOk s.regs.spaW.toNat = true)
      (hfit : s.regs.spaN.toNat ≤ s.params.bufDepth)
      (hpts : analyse s.buf s.regs.spaW.toNat s.regs.spaR.toNat
        (timeIndices s.regs.spaN.toNat s.regs.spaW.toNat) = .ok pts) : Effect cw s (s.storePoints pts)
  /-- A point of the store delivered. -/
  | delivered (j : Nat) (hj : j < s.pts.length) : Effect cw s (s.deliver j s.pts[j])
  /-- An axis begun. -/
  | axisBegun (count : Nat)
      (hfin : isFinite32 s.regs.axStart = true ∧ isFinite32 s.regs.axEnd = true ∧ isFinite32 s.regs.axStep = true)
      (hcount : axisCount s.regs.axStart s.regs.axEnd s.regs.axStep = some count) :
      Effect cw s ((s.setRegs { s.regs with axCount := BitVec.ofNat 32 count, axPos := 0 }).ok (BitVec.ofNat 32 count))
  /-- A term of the axis delivered. -/
  | axisAdvanced (v : Word) (hpos : s.regs.axPos.toNat < s.regs.axCount.toNat) :
      Effect cw s ((s.setRegs { s.regs with axPos := s.regs.axPos + 1 }).ok v)

/-- A command that is accepted or refused has an effect if its rule has one when it runs. -/
theorem Effect.of_accept {cw : Word} {s t : State} {run : State → Host.Outcome State Fault Refusal}
    (hrun : run s = .next t → Effect cw s t) (h : s.accept run = .next t) : Effect cw s t := by
  obtain ⟨hf, rfl⟩ | ⟨-, h⟩ := accept_next h
  · exact .refused hf
  · exact hrun h

/-- A fault taken as a command's outcome is an effect. -/
theorem Effect.of_fail {s t : State} {e : Cause} {i : Instr} (h : s.fail e i = .next t) : Effect (cwOf i) s t := by
  cases h
  exact .raised e

/-! ### The commands, one lemma each -/

variable {s t : State}

/-- The creation of a filter by either filter command. -/
theorem effect_newFilter {mk : FilterNode → Node} {i : Instr} {node : BitVec 4} {src : Sid} {imm : BitVec 8}
    (hmk : ∀ w, s.streams.checkSrc (slotOf node) src = true →
      ∀ depth, NodeOk depth s.streams (slotOf node) (mk ⟨src, w, 0⟩))
    (h : newFilter mk i node src imm s = .next t) : Effect (cwOf i) s t := by
  obtain ⟨-, rfl⟩ | ⟨w, -, ⟨-, rfl⟩ | ⟨hnew, rfl⟩⟩ := newFilter_next h
  · exact .raised _
  · exact .raised _
  · obtain ⟨hfree, hsrc⟩ := (checkNew_iff ..).1 hnew
    exact .created _ _ hfree (hmk w hsrc)

/-- A slot is free exactly when its node says so. -/
theorem isFree_iff (x : Node) : x.isFree = true ↔ x = .free := by cases x <;> simp [Node.isFree, Node.typeCode]

theorem isSample_zero : IsSample 0 := by decide

theorem effect_lpfNew {node : BitVec 4} {src : Sid} {imm : BitVec 8}
    (h : execLpfNew node src imm s = .next t) : Effect (cwOf (.lpfNew node src imm)) s t :=
  .of_accept (effect_newFilter (mk := .lpf) fun _ hsrc _ => ⟨hsrc, isSample_zero⟩) h

theorem effect_hpfNew {node : BitVec 4} {src : Sid} {imm : BitVec 8}
    (h : execHpfNew node src imm s = .next t) : Effect (cwOf (.hpfNew node src imm)) s t :=
  .of_accept (effect_newFilter (mk := .hpf) fun _ hsrc _ => ⟨hsrc, isSample_zero⟩) h

/-- An empty queue is in order. -/
theorem queueOk_nil (depth : QueueDepth) : QueueOk depth [] := by
  cases depth <;> simp [QueueOk, QueueFits]

theorem effect_teeNew {node : BitVec 4} {src : Sid} (h : execTeeNew node src s = .next t) :
    Effect (cwOf (.teeNew node src)) s t := by
  refine .of_accept (fun h => ?_) h
  split at h
  next hnew =>
    cases h
    obtain ⟨hfree, hsrc⟩ := (checkNew_iff ..).1 hnew
    exact .created _ _ hfree fun depth => ⟨hsrc, queueOk_nil depth, queueOk_nil depth, .inl rfl⟩
  next => exact .of_fail h

theorem effect_dilNew {node : BitVec 4} {src : Sid} {imm : BitVec 8}
    (h : execDilNew node src imm s = .next t) : Effect (cwOf (.dilNew node src imm)) s t := by
  refine .of_accept (fun h => ?_) h
  split at h
  next => exact .of_fail h
  next c _ =>
    split at h
    next hnew =>
      cases h
      obtain ⟨hfree, hsrc⟩ := (checkNew_iff ..).1 hnew
      exact .created _ _ hfree fun depth => ⟨hsrc, fun k => by simpa using queueOk_nil depth⟩
    next => exact .of_fail h

theorem effect_ilvNew {node : BitVec 4} {imm : BitVec 8} (h : execIlvNew node imm s = .next t) :
    Effect (cwOf (.ilvNew node imm)) s t := by
  refine .of_accept (fun h => ?_) h
  split at h
  next => exact .of_fail h
  next c _ =>
    split at h
    next hnew =>
      cases h
      refine .created _ _ ((isFree_iff _).1 hnew) fun depth => ⟨by simp, fun k => ?_, ?_, fun _ => rfl⟩
      · simp [IsElement, smax]
      · exact c.property.1
    next => exact .of_fail h

theorem effect_ilvBind {node aux : BitVec 4} {src : Sid} (h : execIlvBind node aux src s = .next t) :
    Effect (cwOf (.ilvBind node aux src)) s t := by
  refine .of_accept (fun h => ?_) h
  split at h
  next x hnode =>
    split at h
    next => exact .of_fail h
    next y hbind =>
      split at h
      next hsrc => cases h; exact .bound _ _ _ _ _ hnode hbind hsrc
      next => exact .of_fail h
  all_goals exact .of_fail h

theorem effect_next {sid : Sid} (h : execNext sid s = .next t) : Effect (cwOf (.next sid)) s t := by
  refine .of_accept (fun h => ?_) h
  split at h
  next hsid =>
    have hlive : s.streams.live sid = true := (Bool.and_eq_true_iff.1 hsid).2
    obtain ⟨r, g, hpull, rfl⟩ | ⟨g, hpull, rfl⟩ := finishNext_next h
    · exact .pulled sid r g hlive hpull
    · exact .overflowed sid g hlive hpull
  next => exact .of_fail h

theorem effect_spaRun (h : execSpaRun s = .next t) : Effect (cwOf .spaRun) s t := by
  refine .of_accept (fun h => ?_) h
  simp only at h
  split at h
  next => exact .of_fail h
  next hsize =>
    split at h
    next => exact .of_fail h
    next =>
      split at h
      next => exact .of_fail h
      next hfit =>
        split at h
        next => cases h
        next pts hpts => cases h; exact .analysed pts (by simpa using hsize) (not_lt.1 hfit) hpts

theorem effect_spaNext (h : execSpaNext s = .next t) : Effect (cwOf .spaNext) s t := by
  refine .of_accept (fun h => ?_) h
  split at h
  next => cases h; exact .ended
  next => cases h; exact .delivered _ _

theorem effect_axisNew (h : execAxisNew s = .next t) : Effect (cwOf .axisNew) s t := by
  refine .of_accept (fun h => ?_) h
  simp only at h
  split at h
  next => exact .of_fail h
  next hfin =>
    split at h
    next => exact .of_fail h
    next count hcount => cases h; exact .axisBegun count (by simpa [and_assoc] using hfin) hcount

theorem effect_axisNext (h : execAxisNext s = .next t) : Effect (cwOf .axisNext) s t := by
  refine .of_accept (fun h => ?_) h
  simp only at h
  split at h
  next => cases h; exact .ended
  next hpos =>
    split at h
    next => exact .of_fail h
    next v _ => cases h; exact .axisAdvanced v (not_le.1 hpos)

theorem effect_bufWr {addr : Addr} {wd : Word} (h : execBufWr addr wd s = .next t) :
    Effect (cwOf (.bufWr addr wd)) s t := by
  refine .of_accept (fun h => ?_) h
  cases h
  split
  next => exact .raised _
  next haddr => exact .bufWritten _ _ (not_le.1 haddr)

theorem effect_bufRd {addr : Addr} (h : execBufRd addr s = .next t) : Effect (cwOf (.bufRd addr)) s t := by
  refine .of_accept (fun h => ?_) h
  split at h
  next => exact .of_fail h
  next =>
    split at h
    next => cases h
    next => cases h; exact .answered _

theorem effect_regWr {regno : BitVec 8} {wd : Word} (h : execRegWr regno wd s = .next t) :
    Effect (cwOf (.regWr regno wd)) s t := by
  refine .of_accept (fun h => ?_) h
  split at h
  next => exact .of_fail h
  next n _ =>
    split at h
    next hn => cases h; exact .regWritten n wd hn
    next => exact .of_fail h

theorem effect_regRd {regno : BitVec 8} (h : execRegRd regno s = .next t) : Effect (cwOf (.regRd regno)) s t := by
  unfold execRegRd at h
  split at h
  next => exact .of_accept .of_fail h
  next => cases h; exact .answered _

/-! ### Every command, and the step -/

/-- What a command can do: `RESET` resets, every other one has one of the effects listed. -/
theorem exec_effect {i : Instr} (h : exec i s = .next t) :
    Effect (cwOf i) s t ∨ i = .reset ∧ t = s.softReset.ok 0 := by
  cases i with
  | lpfNew => exact .inl (effect_lpfNew h)
  | hpfNew => exact .inl (effect_hpfNew h)
  | teeNew => exact .inl (effect_teeNew h)
  | dilNew => exact .inl (effect_dilNew h)
  | ilvNew => exact .inl (effect_ilvNew h)
  | ilvBind => exact .inl (effect_ilvBind h)
  | next => exact .inl (effect_next h)
  | spaRun => exact .inl (effect_spaRun h)
  | spaNext => exact .inl (effect_spaNext h)
  | axisNew => exact .inl (effect_axisNew h)
  | axisNext => exact .inl (effect_axisNext h)
  | bufWr => exact .inl (effect_bufWr h)
  | bufRd => exact .inl (effect_bufRd h)
  | regWr => exact .inl (effect_regWr h)
  | regRd => exact .inl (effect_regRd h)
  | reset => cases h; exact .inr ⟨rfl, rfl⟩

/-- The step keeps whatever every effect and both resets keep and the host's inputs do not matter to. -/
theorem step_preserves {P : State → Prop} (hport : ∀ s rest, P s → P { s with port := rest })
    (heffect : ∀ cw s t, P s → Effect cw s t → P t) (hsoft : ∀ s, P s → P (s.softReset.ok 0))
    (hhard : ∀ s, P s → P s.hardReset) (hs : P s) (h : step s = .next t) : P t := by
  obtain ⟨-, hstep⟩ | ⟨rest, -, hstep⟩ | ⟨cw, wd, rest, i, -, -, hstep⟩ | ⟨cw, wd, rest, e, -, -, hstep⟩ :=
    step_cases s <;> rw [hstep] at h
  · cases h
    exact hs
  · cases h
    exact hhard _ (hport s rest hs)
  · obtain heff | ⟨-, rfl⟩ := exec_effect h
    · exact heffect _ _ _ (hport s rest hs) heff
    · exact hsoft _ (hport s rest hs)
  · cases h
    refine heffect cw _ _ (hport s rest hs) ?_
    split
    next hf => exact .refused hf
    next => exact .raised _

end Sys2Proof.Proofs
end

section
/-! PROOFS. The weighted average of two samples is a sample (spec 41_lowpass R121, R125). -/

namespace Sys2Proof.Proofs

open Sys2Proof Sys2Proof.Machine Sys2Proof.Config

/-- A truncated value is no larger in magnitude than the integer part of a bound on the value. -/
theorem abs_trunc_le {q : ℚ} {n : Nat} (h : |q| < n + 1) : |trunc q| ≤ n := by
  have hden : (0 : ℚ) < q.den := by exact_mod_cast q.pos
  have hnum : q.num.natAbs < (n + 1) * q.den := by
    have habs : |q| = (q.num.natAbs : ℚ) / q.den := by
      conv_lhs => rw [← Rat.num_div_den q]
      rw [abs_div, Nat.abs_cast, Nat.cast_natAbs, Int.cast_abs]
    rw [habs, div_lt_iff₀ hden] at h
    exact_mod_cast h
  have hquot : (trunc q).natAbs = q.num.natAbs / q.den := by
    rw [trunc, Int.natAbs_tdiv, Int.natAbs_natCast]
    rfl
  have hle : (trunc q).natAbs ≤ n := hquot ▸ Nat.lt_succ_iff.1 ((Nat.div_lt_iff_lt_mul q.pos).2 hnum)
  rw [Int.abs_eq_natAbs]
  exact_mod_cast hle

/-- `fl64` is the rounded magnitude with the sign of the value. -/
theorem fl64_eq (q : ℚ) :
    fl64 q = (withSign (decide (q < 0)) (quantise 53 (-1074) q).1 : ℚ) * 2 ^ (quantise 53 (-1074) q).2 := by
  simp only [fl64, scale2_eq, withSign, Rat.num_neg, decide_eq_true_eq]

/-- Up to `2^24` binary64 is off by `2^-29` at most (R9). -/
theorem abs_sub_fl64_le {q : ℚ} (h : |q| ≤ 2 ^ 24) : |q - fl64 q| ≤ 1 / 2 ^ 29 := by
  have hr := quantise_rounds 52 (-1074) q
  rw [fl64_eq]
  generalize (quantise 53 (-1074) q).1 = m at *
  generalize (quantise 53 (-1074) q).2 = u at *
  have hpos : (0 : ℚ) < 2 ^ u := zpow_pos two_pos u
  have hu : u ≤ -28 := by
    obtain rfl | hb := hr.binade_le
    · decide
    · rw [le_div_iff₀ hpos] at hb
      have : (2 : ℚ) ^ (52 + u) ≤ 2 ^ (24 : Int) := by
        rw [zpow_add₀ two_ne_zero]
        exact_mod_cast hb.trans h
      have := (zpow_le_zpow_iff_right₀ (one_lt_two : (1 : ℚ) < 2)).1 this
      omega
  have hunit : (2 : ℚ) ^ u ≤ 2 ^ (-28 : Int) := zpow_le_zpow_right₀ one_le_two hu
  have hnear := hr.near
  rw [← Rounds.abs_sub_eq] at hnear
  calc |q - (withSign (decide (q < 0)) m : ℚ) * 2 ^ u|
      = |q / 2 ^ u - (withSign (decide (q < 0)) m : ℚ)| * 2 ^ u := by
        rw [← abs_of_pos hpos, ← abs_mul, sub_mul, abs_of_pos hpos, div_mul_cancel₀ _ hpos.ne']
    _ ≤ 1 / 2 * 2 ^ (-28 : Int) := mul_le_mul (by linarith) hunit hpos.le (by norm_num)
    _ = 1 / 2 ^ 29 := by norm_num

/-- Entry by entry, the two tables hold weights. -/
theorem tables_are_weights : ∀ k : Fin 15, 0 ≤ val64 ratioTable[k] ∧ 0 ≤ val64 omTable[k] ∧
    val64 ratioTable[k] + val64 omTable[k] ≤ 1 + 1 / 2 ^ 27 := by decide +kernel

/-- The tabled ratios are weights: not negative, and with a sum that is 1 but for the rounding of the tables (R121). -/
theorem ratio_add_om_le (w : Width) : 0 ≤ ratio w ∧ 0 ≤ om w ∧ ratio w + om w ≤ 1 + 1 / 2 ^ 27 :=
  tables_are_weights ⟨w.val - 1, by have := w.property; omega⟩

/-- The magnitude of a sample, as a rational. -/
theorem abs_sample_le {x : Int} (h : IsSample x) : |(x : ℚ)| ≤ 8388607 := by
  exact_mod_cast abs_le.2 h

/-- The weighted average of two samples is a sample: the three roundings and the tables together are off by less than the
fraction that truncation removes (R125). -/
theorem wavg_isSample {x p : Int} (w : Width) (hx : IsSample x) (hp : IsSample p) : IsSample (wavg x p w) := by
  obtain ⟨hr, ho, hsum⟩ := ratio_add_om_le w
  have hx' : |(x : ℚ) * ratio w| ≤ 8388607 * ratio w := by
    rw [abs_mul, abs_of_nonneg hr]
    exact mul_le_mul_of_nonneg_right (abs_sample_le hx) hr
  have hp' : |(p : ℚ) * om w| ≤ 8388607 * om w := by
    rw [abs_mul, abs_of_nonneg ho]
    exact mul_le_mul_of_nonneg_right (abs_sample_le hp) ho
  have e1 := abs_sub_fl64_le (q := (x : ℚ) * ratio w) (by linarith)
  have e2 := abs_sub_fl64_le (q := (p : ℚ) * om w) (by linarith)
  have hadd : |fl64 ((x : ℚ) * ratio w) + fl64 ((p : ℚ) * om w)| ≤ 8388607 + 1 / 4 := by
    rw [abs_le] at *
    constructor <;> linarith
  have e3 := abs_sub_fl64_le (hadd.trans (by norm_num))
  have hfin : |fl64 (fl64 ((x : ℚ) * ratio w) + fl64 ((p : ℚ) * om w))| < (8388607 : Nat) + 1 := by
    rw [abs_lt]
    rw [abs_le] at *
    push_cast
    constructor <;> linarith
  exact abs_le.1 (abs_trunc_le hfin)

end Sys2Proof.Proofs
end

section
/-! PROOFS. What a pull leaves of the node table: the wiring of every node, and every slot and port that is not upstream of
the stream pulled (spec 10_state R29; 40_stream_tee R91, R100, R101). -/

namespace Sys2Proof.Proofs

open Sys2Proof Sys2Proof.Machine Sys2Proof.Config

/-! ### Wiring -/

/-- The part of a node that only commands set: its kind, its sources, its width or channel count; what pulls change is put
to its initial value. -/
def wiring : Node → Node
  | .free => .free
  | .lpf f => .lpf { f with prev := 0 }
  | .hpf f => .hpf { f with prev := 0 }
  | .tee t => .tee ⟨t.src, [], []⟩
  | .dil d => .dil { d with q := Vector.replicate 8 [], done := false }
  | .ilv x => .ilv { x with f := Vector.replicate 8 0, ph := 0, fv := false, done := false }

theorem sources_wiring (x : Node) : (wiring x).sources = x.sources := by cases x <;> rfl

/-- A node has the output port `c` and can deliver on it (R84). -/
def delivers (x : Node) (c : Fin 8) : Bool := !x.isFree && decide (c.val < x.nports) && x.complete

theorem delivers_wiring (x : Node) (c : Fin 8) : delivers (wiring x) c = delivers x c := by cases x <;> rfl

theorem live_eq (g : Streams) (sid : Sid) :
    g.live sid = (sidIsPort sid || delivers (g.node (sidSlot sid)) (sidPort sid)) := rfl

/-- The node tables `g` and `g'` are wired in the same way. -/
def SameWiring (g g' : Streams) : Prop := ∀ n, wiring (g'.node n) = wiring (g.node n)

section
variable {g g' : Streams}

theorem SameWiring.sources_eq (h : SameWiring g g') (n : Fin 16) : (g'.node n).sources = (g.node n).sources := by
  rw [← sources_wiring, h n, sources_wiring]

theorem SameWiring.delivers_eq (h : SameWiring g g') (n : Fin 16) (c : Fin 8) :
    delivers (g'.node n) c = delivers (g.node n) c := by
  rw [← delivers_wiring, h n, delivers_wiring]

/-- The source check reads the wiring only. -/
theorem SameWiring.checkSrc_eq (h : SameWiring g g') (n : Fin 16) (src : Sid) :
    g'.checkSrc n src = g.checkSrc n src := by
  simp only [Streams.checkSrc, live_eq, h.delivers_eq]

theorem SameWiring.setNode (h : SameWiring g g') {n : Fin 16} {x : Node} (hx : wiring x = wiring (g.node n)) :
    SameWiring g (g'.setNode n x) := by
  intro m
  rw [Streams.node_setNode]
  split
  next hm => rw [hx, hm]
  next => exact h m

end

/-! ### The two sides of a tee -/

section
variable (t : TeeNode) (side : Fin 8) (q : List Int)

@[simp] theorem own_setOwn : (t.setOwn side q).own side = q := by unfold TeeNode.setOwn TeeNode.own; split <;> rfl
@[simp] theorem other_setOwn : (t.setOwn side q).other side = t.other side := by
  unfold TeeNode.setOwn TeeNode.other; split <;> rfl
@[simp] theorem own_setOther : (t.setOther side q).own side = t.own side := by
  unfold TeeNode.setOther TeeNode.own; split <;> rfl
@[simp] theorem other_setOther : (t.setOther side q).other side = q := by
  unfold TeeNode.setOther TeeNode.other; split <;> rfl
@[simp] theorem src_setOwn : (t.setOwn side q).src = t.src := by unfold TeeNode.setOwn; split <;> rfl
@[simp] theorem src_setOther : (t.setOther side q).src = t.src := by unfold TeeNode.setOther; split <;> rfl

theorem wiring_setOwn : wiring (.tee (t.setOwn side q)) = wiring (.tee t) := by simp [wiring]
theorem wiring_setOther : wiring (.tee (t.setOther side q)) = wiring (.tee t) := by simp [wiring]

end

/-! ### The sources a node pulls -/

/-- A complete interleaver has all its inputs, and they are its sources. -/
theorem inputs_eq_some_iff {x : IlvNode} {sids : List Sid} :
    x.inputs = some sids ↔ x.src.toList.take x.c.val = sids.map some := by
  unfold IlvNode.inputs
  generalize x.src.toList.take x.c.val = l
  induction l generalizing sids with
  | nil => cases sids <;> simp
  | cons o rest ih => cases o <;> cases sids <;> simp [List.mapM_cons, ih, Option.bind_eq_some_iff, and_comm]

theorem sources_of_inputs {x : IlvNode} {sids : List Sid} (h : x.inputs = some sids) : (Node.ilv x).sources = sids := by
  rw [Node.sources, inputs_eq_some_iff.1 h]
  simp [List.reduceOption]

/-! ### What the pulls of the multi-channel nodes can do -/

section
variable {depth : QueueDepth} {pull : Sid → Streams → Pulled} {n : Fin 16} {g : Streams} {Q : Pulled → Prop}

/-- Every outcome of a deinterleaver pull: the backlog; the latched end; a frame that is not complete; a frame of which the
other channels have room for their elements, or not. -/
theorem pullDil_elim {c : Fin 8} {d : DilNode}
    (backlog : ∀ v rest, d.q[c] = v :: rest → Q (.answer (some v) (g.setNode n (.dil { d with q := d.q.set c rest }))))
    (done : Q (.answer none g))
    (ended : ∀ part g', fetchFrame pull (List.replicate d.c.val d.src) [] g = .ended part g' →
      Q (.answer none (g'.setNode n (.dil { d with done := true }))))
    (overflow : ∀ part g', fetchFrame pull (List.replicate d.c.val d.src) [] g = .overflow part g' → Q (.overflow g'))
    (dead : fetchFrame pull (List.replicate d.c.val d.src) [] g = .dead → Q .dead)
    (noPort : ∀ frame g', fetchFrame pull (List.replicate d.c.val d.src) [] g = .full frame g' →
      frame[c.val]? = none → Q .dead)
    (room : ∀ frame g' v q, fetchFrame pull (List.replicate d.c.val d.src) [] g = .full frame g' →
      frame[c.val]? = some v → queueOthers depth c ((List.finRange 8).zip frame) d.q = (true, q) →
      Q (.answer (some v) (g'.setNode n (.dil { d with q := q }))))
    (full : ∀ frame g' q, fetchFrame pull (List.replicate d.c.val d.src) [] g = .full frame g' →
      queueOthers depth c ((List.finRange 8).zip frame) d.q = (false, q) →
      Q (.overflow (g'.setNode n (.dil { d with q := q })))) :
    Q (pullDil depth pull n c d g) := by
  unfold pullDil
  split
  next v rest hq => exact backlog v rest hq
  next =>
    split
    next => exact done
    next =>
      split
      next hf => exact ended _ _ hf
      next hf => exact overflow _ _ hf
      next hf => exact dead hf
      next hf =>
        split
        next hc => exact noPort _ _ hf hc
        next v hc =>
          split
          next q hq => exact room _ _ v q hf hc hq
          next q hq => exact full _ _ q hf hq

/-- Every outcome of an interleaver pull: the rest of the frame; the latched end; an input that is not bound; a frame that
is not complete; a frame. -/
theorem pullIlv_elim {x : IlvNode}
    (emit : x.fv = true → Q (emitFrame n x g))
    (done : Q (.answer none g))
    (unbound : x.inputs = none → Q .dead)
    (ended : ∀ sids part g', x.inputs = some sids → fetchFrame pull sids [] g = .ended part g' →
      Q (.answer none (g'.setNode n (.ilv { x with done := true, f := writeFrame x.f part }))))
    (overflow : ∀ sids part g', x.inputs = some sids → fetchFrame pull sids [] g = .overflow part g' →
      Q (.overflow (g'.setNode n (.ilv { x with f := writeFrame x.f part }))))
    (dead : ∀ sids, x.inputs = some sids → fetchFrame pull sids [] g = .dead → Q .dead)
    (full : ∀ sids frame g', x.inputs = some sids → fetchFrame pull sids [] g = .full frame g' →
      Q (emitFrame n { x with f := writeFrame x.f frame, fv := true, ph := 0 } g')) :
    Q (pullIlv pull n x g) := by
  unfold pullIlv
  split
  next hfv => exact emit hfv
  next =>
    split
    next => exact done
    next =>
      split
      next hx => exact unbound hx
      next sids hx =>
        split
        next hf => exact ended sids _ _ hx hf
        next hf => exact overflow sids _ _ hx hf
        next hf => exact dead sids hx hf
        next hf => exact full sids _ _ hx hf

end

/-! ### What a pull leaves -/

theorem emitFrame_leaves {P : Streams → Prop} {n : Fin 16} {x : IlvNode} {g : Streams}
    (h : ∀ y, wiring y = wiring (.ilv x) → P (g.setNode n y)) : (emitFrame n x g).Leaves P := h _ rfl

/-- A pull of a node leaves behind what the pulls of its sources keep and what a change of the node that keeps its wiring
keeps. -/
theorem pullNode_leaves {P : Streams → Prop} {depth : QueueDepth} {pull : Sid → Streams → Pulled} {n : Fin 16} {c : Fin 8}
    {g : Streams} (hpull : ∀ src ∈ (g.node n).sources, ∀ g', P g' → (pull src g').Leaves P)
    (hset : ∀ g' x, P g' → wiring x = wiring (g.node n) → P (g'.setNode n x)) (h : P g) :
    (pullNode depth pull n c g).Leaves P := by
  unfold pullNode
  cases hx : g.node n with
  | free => trivial
  | lpf f =>
    rw [hx] at hpull hset
    have hsrc := hpull f.src (.head _) g h
    obtain ⟨u, g', heq, hres⟩ | ⟨-, hres⟩ := pullLpf_cases pull n f g <;> simp only [hres]
    · rw [heq] at hsrc
      exact hset g' _ hsrc rfl
    · exact hsrc
  | hpf f =>
    rw [hx] at hpull hset
    have hsrc := hpull f.src (.head _) g h
    obtain ⟨u, g', heq, hres⟩ | ⟨-, hres⟩ := pullHpf_cases pull n f g <;> simp only [hres]
    · rw [heq] at hsrc
      exact hset g' _ hsrc rfl
    · exact hsrc
  | tee t =>
    rw [hx] at hpull hset
    have hsrc := hpull t.src (.head _) g h
    obtain ⟨v, rest, -, hres⟩ | ⟨-, v, g', heq, -, hres⟩ | ⟨-, v, g', heq, -, hres⟩ | ⟨-, -, hres⟩ :=
      pullTee_cases depth pull n c t g <;> simp only [hres]
    · exact hset g _ h (wiring_setOwn ..)
    · rw [heq] at hsrc
      exact hsrc
    · rw [heq] at hsrc
      exact hset g' _ hsrc (wiring_setOther ..)
    · exact hsrc
  | dil d =>
    rw [hx] at hpull hset
    have hfetch : ∀ r, fetchFrame pull (List.replicate d.c.val d.src) [] g = r → r.Leaves P := fun r hr =>
      hr ▸ fetchFrame_leaves (fun src hs => by rw [List.eq_of_mem_replicate hs]; exact hpull d.src (.head _)) h
    refine pullDil_elim (Q := Pulled.Leaves P) ?backlog h ?ended ?overflow (fun _ => trivial) (fun _ _ _ _ => trivial)
      ?room ?full
    case backlog => exact fun v rest _ => hset g _ h rfl
    case ended => exact fun part g' hf => hset g' _ (hfetch _ hf) rfl
    case overflow => exact fun part g' hf => hfetch _ hf
    case room => exact fun frame g' v q hf _ _ => hset g' _ (hfetch _ hf) rfl
    case full => exact fun frame g' q hf _ => hset g' _ (hfetch _ hf) rfl
  | ilv x =>
    rw [hx] at hpull hset
    have hfetch : ∀ sids r, x.inputs = some sids → fetchFrame pull sids [] g = r → r.Leaves P := fun sids r hs hr =>
      hr ▸ fetchFrame_leaves (fun src hm => hpull src (sources_of_inputs hs ▸ hm)) h
    refine pullIlv_elim (Q := Pulled.Leaves P) ?emit h (fun _ => trivial) ?ended ?overflow (fun _ _ _ => trivial)
      ?full
    case emit => exact fun _ => emitFrame_leaves fun y hy => hset g y h hy
    case ended => exact fun sids part g' hs hf => hset g' _ (hfetch sids _ hs hf) rfl
    case overflow => exact fun sids part g' hs hf => hset g' _ (hfetch sids _ hs hf) rfl
    case full => exact fun sids frame g' hs hf =>
        emitFrame_leaves fun y hy => hset g' y (hfetch sids _ hs hf) hy

/-- What a pull of `sid` that began at `g` leaves untouched at `g'`: the wiring, every node with no stream upstream of
`sid`, every port that is not upstream of it. -/
structure Untouched (g : Streams) (sid : Sid) (g' : Streams) : Prop where
  wired : SameWiring g g'
  nodes : ∀ m : Fin 16, (∀ r, Feeds g sid r → sidIsPort r = false → sidSlot r ≠ m) → g'.node m = g.node m
  ports : ∀ p : Fin 8, (∀ r, Feeds g sid r → sidIsPort r = true → sidPort r ≠ p) →
    g'.xeos[p] = g.xeos[p] ∧ g'.xs[p] = g.xs[p]

section
variable {g g' : Streams} {sid r : Sid}

/-- A change of an upstream node that keeps its wiring. -/
theorem Untouched.setNode (h : Untouched g sid g') (hr : Feeds g sid r) (hnode : sidIsPort r = false) {x : Node}
    (hx : wiring x = wiring (g.node (sidSlot r))) : Untouched g sid (g'.setNode (sidSlot r) x) where
  wired := h.wired.setNode hx
  nodes m hm := by rw [Streams.node_setNode_other _ _ (hm r hr hnode).symm, h.nodes m hm]
  ports := h.ports

/-- A pull of an upstream port. -/
theorem Untouched.xpull (h : Untouched g sid g') (hr : Feeds g sid r) (hport : sidIsPort r = true) :
    (xpull (sidPort r) g').Leaves (Untouched g sid) := by
  cases hl : g'.xeos[sidPort r] with
  | true => rw [xpull_latched hl]; exact h
  | false =>
    rw [xpull_open hl]
    refine ⟨h.wired, h.nodes, fun p hp => ?_⟩
    have hne : (sidPort r).val ≠ p.val := fun e => hp r hr hport (Fin.ext e)
    obtain ⟨hx, hs⟩ := h.ports p hp
    simpa [Streams.asked, hne] using ⟨hx, hs⟩

/-- A pull of an upstream stream leaves untouched what is not upstream. -/
theorem pullWithin_untouched (depth : QueueDepth) (fuel : Nat) (hr : Feeds g sid r) (h : Untouched g sid g') :
    (pullWithin depth fuel r g').Leaves (Untouched g sid) := by
  induction fuel generalizing r g' with
  | zero => trivial
  | succ fuel ih =>
    cases hp : sidIsPort r with
    | true =>
      rw [pullWithin_port depth fuel g' hp]
      exact h.xpull hr hp
    | false =>
      rw [pullWithin_node depth fuel g' hp]
      refine pullNode_leaves (fun src hsrc g'' h'' => ?_) (fun g'' x h'' hx => ?_) h
      · exact ih (.source r src hr hp (h.wired.sources_eq _ ▸ hsrc)) h''
      · exact h''.setNode hr hp (hx.trans (h.wired _))

end

/-- A pull leaves untouched what is not upstream of the stream it names. -/
theorem pull_untouched (depth : QueueDepth) (sid : Sid) (g : Streams) :
    (pull depth sid g).Leaves (Untouched g sid) :=
  pullWithin_untouched depth 17 .self ⟨fun _ => rfl, fun _ _ => rfl, fun _ _ => ⟨rfl, rfl⟩⟩

end Sys2Proof.Proofs
end

section
/-! PROOFS. In a node table in order a pull of a live stream answers an element in range, or `None`, or finds a queue full,
and leaves the table in order (spec 10_state R22 to R28; 40_stream_tee R91, R100, R101, R108, R110; 41_lowpass R125). -/

namespace Sys2Proof.Proofs

open Sys2Proof Sys2Proof.Machine Sys2Proof.Config

/-! ### Values -/

theorem isElement_of_isSample {v : Int} (h : IsSample v) : IsElement v := by
  obtain ⟨h1, h2⟩ := h
  simp only [IsElement, smax] at *
  omega

/-- The difference of two samples is a stream element. -/
theorem isElement_sub {a b : Int} (ha : IsSample a) (hb : IsSample b) : IsElement (a - b) := by
  obtain ⟨a1, a2⟩ := ha
  obtain ⟨b1, b2⟩ := hb
  simp only [IsElement, smax] at *
  omega

theorem lowpass_isSample {f : FilterNode} (h : IsSample f.prev) (u : Int) : IsSample (f.lowpass u) :=
  wavg_isSample _ (sat24_range u) h

/-! ### Queues -/

section
variable {depth : QueueDepth} {q : List Int} {v : Int}

/-- The head of a queue in order is an element, and the rest is in order. -/
theorem queueOk_cons (h : QueueOk depth (v :: q)) : IsElement v ∧ QueueOk depth q := by
  obtain ⟨hfit, hall⟩ := h
  refine ⟨hall v (.head _), ?_, fun w hw => hall w (.tail _ hw)⟩
  cases depth with
  | samples below =>
    simp only [QueueFits, List.length_cons] at *
    omega
  | unbounded => trivial

/-- An element may be queued where there is room. -/
theorem queueOk_append (h : QueueOk depth q) (hv : IsElement v) (hroom : queueFull depth q = false) :
    QueueOk depth (q ++ [v]) := by
  obtain ⟨hfit, hall⟩ := h
  refine ⟨?_, fun w hw => ?_⟩
  · cases depth with
    | samples below =>
      simp only [QueueFits, queueFull, beq_eq_false_iff_ne, List.length_append, List.length_singleton] at *
      omega
    | unbounded => trivial
  · obtain hw | hw := List.mem_append.1 hw
    · exact hall w hw
    · rwa [List.mem_singleton.1 hw]

theorem queueFull_unbounded : queueFull .unbounded q = false := rfl

end

/-- The queues of a deinterleaver with `c` channels are in order: the invariant of `Node.dil`. -/
def QueuesOk (depth : QueueDepth) (c : Nat) (q : Vector (List Int) 8) : Prop :=
  ∀ k : Fin 8, QueueOk depth q[k] ∧ (c ≤ k.val → q[k] = [])

/-- Replacing the queue of a channel that exists by one in order. -/
theorem QueuesOk.set {depth : QueueDepth} {c : Nat} {q : Vector (List Int) 8} (h : QueuesOk depth c q) {j : Fin 8}
    {l : List Int} (hl : QueueOk depth l) (hj : j.val < c) : QueuesOk depth c (q.set j l) := by
  intro k
  by_cases hk : j.val = k.val
  · have hjk : j = k := Fin.ext hk
    subst hjk
    simp only [Fin.getElem_fin, Vector.getElem_set_self]
    exact ⟨hl, fun hc => absurd hc (by omega)⟩
  · simpa [Vector.getElem_set_ne, hk] using h k

/-- Queueing a frame keeps the queues in order. -/
theorem queueOthers_ok {depth : QueueDepth} {c : Nat} {own : Fin 8} {l : List (Fin 8 × Int)} {q : Vector (List Int) 8}
    (hl : ∀ kv ∈ l, kv.1.val < c ∧ IsElement kv.2) (h : QueuesOk depth c q) :
    QueuesOk depth c (queueOthers depth own l q).2 := by
  induction l generalizing q with
  | nil => exact h
  | cons kv rest ih =>
    obtain ⟨k, v⟩ := kv
    obtain ⟨hk, hv⟩ := hl (k, v) (.head _)
    have hrest := fun kv hm => hl kv (.tail _ hm)
    unfold queueOthers
    split
    next => exact ih hrest h
    next =>
      split
      next => exact h
      next hroom => exact ih hrest (h.set (queueOk_append (h k).1 hv (by simpa using hroom)) hk)

/-- With unbounded queues a frame is always queued whole. -/
theorem queueOthers_unbounded (own : Fin 8) (l : List (Fin 8 × Int)) (q : Vector (List Int) 8) :
    (queueOthers .unbounded own l q).1 = true := by
  induction l generalizing q with
  | nil => rfl
  | cons kv rest ih =>
    obtain ⟨k, v⟩ := kv
    simp only [queueOthers, queueFull_unbounded]
    split
    next => exact ih _
    next => exact ih _

/-- The channels and elements of a frame of `c` elements. -/
theorem mem_zip_frame {frame : List Int} (hframe : ∀ v ∈ frame, IsElement v) {kv : Fin 8 × Int}
    (h : kv ∈ (List.finRange 8).zip frame) : kv.1.val < frame.length ∧ IsElement kv.2 := by
  obtain ⟨i, hi, rfl⟩ := List.mem_iff_getElem.1 h
  simp only [List.length_zip, List.length_finRange] at hi
  exact ⟨by simp; omega, by simpa using hframe _ (List.getElem_mem _)⟩

/-! ### A table in order -/

/-- A node in order in one table is in order in any table that passes the same sources. -/
theorem nodeOk_mono {depth : QueueDepth} {g g' : Streams} {n : Fin 16} {x : Node}
    (hsrc : ∀ src, g.checkSrc n src = true → g'.checkSrc n src = true) (h : NodeOk depth g n x) :
    NodeOk depth g' n x := by
  cases x with
  | free => trivial
  | lpf f => exact ⟨hsrc _ h.1, h.2⟩
  | hpf f => exact ⟨hsrc _ h.1, h.2⟩
  | tee t => exact ⟨hsrc _ h.1, h.2⟩
  | dil d => exact ⟨hsrc _ h.1, h.2⟩
  | ilv x => exact ⟨fun k sid hk => ⟨(h.1 k sid hk).1, hsrc _ (h.1 k sid hk).2⟩, h.2⟩

/-- The inputs of an interleaver in order pass the source check. -/
theorem checkSrc_of_inputs {depth : QueueDepth} {g : Streams} {n : Fin 16} {x : IlvNode} (h : NodeOk depth g n (.ilv x))
    {sids : List Sid} (hx : x.inputs = some sids) {src : Sid} (hm : src ∈ sids) : g.checkSrc n src = true := by
  have hmem : some src ∈ x.src.toList.take x.c.val := by
    rw [inputs_eq_some_iff.1 hx]
    exact List.mem_map_of_mem hm
  obtain ⟨k, hk, hget⟩ := List.mem_iff_getElem.1 (List.mem_of_mem_take hmem)
  exact (h.1 ⟨k, by simpa using hk⟩ src (by simpa using hget)).2

/-- The node table of `g` is wired as that of `g₀`, and every node is in order. -/
structure Sound (depth : QueueDepth) (g₀ g : Streams) : Prop where
  wired : SameWiring g₀ g
  ok : ∀ n, NodeOk depth g₀ n (g.node n)

section
variable {depth : QueueDepth} {g₀ g : Streams}

theorem Sound.setNode (h : Sound depth g₀ g) {n : Fin 16} {x : Node} (hx : NodeOk depth g₀ n x)
    (hw : wiring x = wiring (g₀.node n)) : Sound depth g₀ (g.setNode n x) where
  wired := h.wired.setNode hw
  ok m := by
    rw [Streams.node_setNode]
    split
    next hm => rwa [hm]
    next => exact h.ok m

theorem Sound.asked (h : Sound depth g₀ g) (p : Fin 8) : Sound depth g₀ (g.asked p) := ⟨h.wired, h.ok⟩

theorem Sound.nodeOk (h : Sound depth g₀ g) (n : Fin 16) : NodeOk depth g n (g.node n) :=
  nodeOk_mono (fun src hs => (h.wired.checkSrc_eq n src).trans hs) (h.ok n)

end

/-! ### Safe pulls -/

/-- The pull answered an element in range or `None`, or overflowed a bounded queue, and left streams with `P`; it did not
meet a dead source. -/
def SafePull (depth : QueueDepth) (P : Streams → Prop) : Pulled → Prop
  | .answer r g => (∀ v, r = some v → IsElement v) ∧ P g
  | .overflow g => depth ≠ .unbounded ∧ P g
  | .dead => False

/-- The same of a fetch, for the elements it took. -/
def SafeFetch (depth : QueueDepth) (P : Streams → Prop) : Fetched → Prop
  | .full frame g => (∀ v ∈ frame, IsElement v) ∧ P g
  | .ended part g => (∀ v ∈ part, IsElement v) ∧ P g
  | .overflow part g => (∀ v ∈ part, IsElement v) ∧ depth ≠ .unbounded ∧ P g
  | .dead => False

section
variable {depth : QueueDepth} {pull : Sid → Streams → Pulled}

theorem fetchFrame_safe {P : Streams → Prop} {sids : List Sid} {taken : List Int} {g : Streams}
    (hpull : ∀ sid ∈ sids, ∀ g, P g → SafePull depth P (pull sid g)) (htaken : ∀ v ∈ taken, IsElement v) (h : P g) :
    SafeFetch depth P (fetchFrame pull sids taken g) := by
  induction sids generalizing taken g with
  | nil => exact ⟨htaken, h⟩
  | cons sid rest ih =>
    have hsid := hpull sid (.head _) g h
    unfold fetchFrame
    split <;> rename_i heq <;> rw [heq] at hsid
    next v g' =>
      obtain ⟨hv, hg'⟩ := hsid
      refine ih (fun x hx => hpull x (.tail _ hx)) (fun w hw => ?_) hg'
      obtain hw | hw := List.mem_append.1 hw
      · exact htaken w hw
      · exact hv w (by rw [List.mem_singleton.1 hw])
    next => exact ⟨htaken, hsid.2⟩
    next => exact ⟨htaken, hsid⟩
    next => exact hsid

/-- A port answers a sample or `None`. -/
theorem xpull_safe {g₀ g : Streams} (p : Fin 8) (h : Sound depth g₀ g) : SafePull depth (Sound depth g₀) (xpull p g) := by
  cases hl : g.xeos[p] with
  | true => rw [xpull_latched hl]; exact ⟨by simp, h⟩
  | false =>
    rw [xpull_open hl]
    refine ⟨fun v hv => ?_, h.asked p⟩
    obtain ⟨d, -, rfl⟩ := Option.map_eq_some_iff.1 hv
    exact isElement_of_isSample (sat24_range _)

/-! The pull of each kind of node in slot `n`, given that its sources' pulls are safe; `g₀` is the table before the outermost
pull, in which the node stands with the same wiring. -/

variable {g₀ g : Streams} {n : Fin 16}

theorem pullLpf_safe {f : FilterNode} (hpull : SafePull depth (Sound depth g₀) (pull f.src g))
    (hok : NodeOk depth g₀ n (.lpf f)) (hw : wiring (.lpf f) = wiring (g₀.node n)) :
    SafePull depth (Sound depth g₀) (pullLpf pull n f g) := by
  obtain ⟨hsrc, hprev⟩ := hok
  obtain ⟨u, g', heq, hres⟩ | ⟨-, hres⟩ := pullLpf_cases pull n f g <;> rw [hres]
  · rw [heq] at hpull
    have hy := lowpass_isSample hprev u
    exact ⟨fun v hv => Option.some.inj hv ▸ isElement_of_isSample hy, hpull.2.setNode ⟨hsrc, hy⟩ hw⟩
  · exact hpull

theorem pullHpf_safe {f : FilterNode} (hpull : SafePull depth (Sound depth g₀) (pull f.src g))
    (hok : NodeOk depth g₀ n (.hpf f)) (hw : wiring (.hpf f) = wiring (g₀.node n)) :
    SafePull depth (Sound depth g₀) (pullHpf pull n f g) := by
  obtain ⟨hsrc, hprev⟩ := hok
  obtain ⟨u, g', heq, hres⟩ | ⟨-, hres⟩ := pullHpf_cases pull n f g <;> rw [hres]
  · rw [heq] at hpull
    have hy := lowpass_isSample hprev u
    exact ⟨fun v hv => Option.some.inj hv ▸ isElement_sub (sat24_range u) hy, hpull.2.setNode ⟨hsrc, hy⟩ hw⟩
  · exact hpull

/-- A tee in order, seen from one side: both queues are in order, and one of them is empty. -/
theorem nodeOk_tee_iff (t : TeeNode) (side : Fin 8) : NodeOk depth g₀ n (.tee t) ↔
    g₀.checkSrc n t.src = true ∧ QueueOk depth (t.own side) ∧ QueueOk depth (t.other side) ∧
      (t.own side = [] ∨ t.other side = []) := by
  by_cases hs : side = 0
  · simp only [NodeOk, TeeNode.own, TeeNode.other, if_pos hs]
  · simp only [NodeOk, TeeNode.own, TeeNode.other, if_neg hs]
    tauto

theorem pullTee_safe {t : TeeNode} {side : Fin 8} (hg : Sound depth g₀ g)
    (hpull : SafePull depth (Sound depth g₀) (pull t.src g))
    (hok : NodeOk depth g₀ n (.tee t)) (hw : wiring (.tee t) = wiring (g₀.node n)) :
    SafePull depth (Sound depth g₀) (pullTee depth pull n side t g) := by
  obtain ⟨hsrc, hown, hother, hone⟩ := (nodeOk_tee_iff t side).1 hok
  obtain ⟨v, rest, heq, hres⟩ | ⟨hempty, v, g', heq, hfull, hres⟩ | ⟨hempty, v, g', heq, hroom, hres⟩ | ⟨-, -, hres⟩ :=
    pullTee_cases depth pull n side t g <;> rw [hres]
  · rw [heq] at hown hone
    obtain ⟨hv, hrest⟩ := queueOk_cons hown
    have hnil : t.other side = [] := hone.resolve_left (List.cons_ne_nil _ _)
    refine ⟨fun w hw => Option.some.inj hw ▸ hv, hg.setNode ((nodeOk_tee_iff _ side).2 ?_) ((wiring_setOwn ..).trans hw)⟩
    simpa [hnil] using ⟨hsrc, hrest, queueOk_nil depth⟩
  · rw [heq] at hpull
    exact ⟨fun hd => by simp [hd, queueFull] at hfull, hpull.2⟩
  · rw [heq] at hpull
    obtain ⟨hv, hg'⟩ := hpull
    have happ := queueOk_append hother (hv v rfl) hroom
    refine ⟨hv, hg'.setNode ((nodeOk_tee_iff _ side).2 ?_) ((wiring_setOther ..).trans hw)⟩
    simpa [hempty] using ⟨hsrc, queueOk_nil depth, happ⟩
  · exact hpull

theorem pullDil_safe {d : DilNode} {c : Fin 8} (hg : Sound depth g₀ g)
    (hpull : ∀ g, Sound depth g₀ g → SafePull depth (Sound depth g₀) (pull d.src g)) (hc : c.val < d.c.val)
    (hok : NodeOk depth g₀ n (.dil d)) (hw : wiring (.dil d) = wiring (g₀.node n)) :
    SafePull depth (Sound depth g₀) (pullDil depth pull n c d g) := by
  obtain ⟨hsrc, hq⟩ := hok
  have hfetch : ∀ r, fetchFrame pull (List.replicate d.c.val d.src) [] g = r → SafeFetch depth (Sound depth g₀) r :=
    fun r hr => hr ▸ fetchFrame_safe (fun src hs => List.eq_of_mem_replicate hs ▸ hpull) (by simp) hg
  have hlen : ∀ frame g', fetchFrame pull (List.replicate d.c.val d.src) [] g = .full frame g' →
      frame.length = d.c.val := fun frame g' hf => by simpa using fetchFrame_full_length hf
  have hqueued : ∀ frame g', fetchFrame pull (List.replicate d.c.val d.src) [] g = .full frame g' →
      QueuesOk depth d.c.val (queueOthers depth c ((List.finRange 8).zip frame) d.q).2 := fun frame g' hf =>
    queueOthers_ok (fun kv hm => hlen frame g' hf ▸ mem_zip_frame (hfetch _ hf).1 hm) hq
  refine pullDil_elim (Q := SafePull depth (Sound depth g₀)) ?backlog ⟨by simp, hg⟩ ?ended ?overflow
    ?dead ?noPort ?room ?full
  case backlog =>
    intro v rest heq
    have hcons := (hq c).1
    rw [heq] at hcons
    obtain ⟨hv, hrest⟩ := queueOk_cons hcons
    exact ⟨fun w hw => Option.some.inj hw ▸ hv, hg.setNode ⟨hsrc, QueuesOk.set hq hrest hc⟩ hw⟩
  case ended => exact fun part g' hf => ⟨by simp, (hfetch _ hf).2.setNode ⟨hsrc, hq⟩ hw⟩
  case overflow => exact fun part g' hf => (hfetch _ hf).2
  case dead => exact fun hf => hfetch _ hf
  case noPort =>
    intro frame g' hf hnone
    rw [List.getElem?_eq_none_iff, hlen frame g' hf] at hnone
    omega
  case room =>
    intro frame g' v q hf hv heq
    have hq' := hqueued frame g' hf
    rw [heq] at hq'
    exact ⟨fun w hw => Option.some.inj hw ▸ (hfetch _ hf).1 v (List.mem_of_getElem? hv),
      (hfetch _ hf).2.setNode ⟨hsrc, hq'⟩ hw⟩
  case full =>
    intro frame g' q hf heq
    have hq' := hqueued frame g' hf
    rw [heq] at hq'
    refine ⟨fun hd => ?_, (hfetch _ hf).2.setNode ⟨hsrc, hq'⟩ hw⟩
    subst hd
    have := queueOthers_unbounded c ((List.finRange 8).zip frame) d.q
    rw [heq] at this
    cases this

/-- Emitting an element of a whole frame. -/
theorem emitFrame_safe {x : IlvNode} (hg : Sound depth g₀ g) (hfv : x.fv = true) (hok : NodeOk depth g₀ n (.ilv x))
    (hw : wiring (.ilv x) = wiring (g₀.node n)) : SafePull depth (Sound depth g₀) (emitFrame n x g) := by
  obtain ⟨hsrc, hf, hph, -⟩ := hok
  have hc := x.c.property
  refine ⟨fun v hv => Option.some.inj hv ▸ hf ⟨x.ph.toNat, by omega⟩, hg.setNode ⟨hsrc, hf, ?_, ?_⟩ hw⟩
  · dsimp only
    split
    next => exact hc.1
    next hlast => bv_omega
  · dsimp only
    split
    next => exact fun _ => rfl
    next => exact fun h => absurd h (by simp [hfv])

/-- Writing elements into the frame buffer keeps it in range. -/
theorem writeFrame_isElement {f : Vector Int 8} {frame : List Int} (hf : ∀ k : Fin 8, IsElement f[k])
    (hframe : ∀ v ∈ frame, IsElement v) (k : Fin 8) : IsElement (writeFrame f frame)[k] := by
  simp only [writeFrame, Fin.getElem_fin, Vector.getElem_ofFn]
  cases h : frame[k.val]? with
  | none => exact hf k
  | some v => exact hframe v (List.mem_of_getElem? h)

theorem pullIlv_safe {x : IlvNode} (hg : Sound depth g₀ g)
    (hpull : ∀ src, g₀.checkSrc n src = true → ∀ g, Sound depth g₀ g → SafePull depth (Sound depth g₀) (pull src g))
    (hbound : x.inputs ≠ none) (hok : NodeOk depth g₀ n (.ilv x)) (hw : wiring (.ilv x) = wiring (g₀.node n)) :
    SafePull depth (Sound depth g₀) (pullIlv pull n x g) := by
  have hfetch : ∀ sids r, x.inputs = some sids → fetchFrame pull sids [] g = r → SafeFetch depth (Sound depth g₀) r :=
    fun sids r hs hr =>
      hr ▸ fetchFrame_safe (fun src hm => hpull src (checkSrc_of_inputs hok hs hm)) (by simp) hg
  obtain ⟨hsrc, hf, hph, hfv⟩ := hok
  refine pullIlv_elim (Q := SafePull depth (Sound depth g₀)) ?emit ⟨by simp, hg⟩ (fun h => absurd h hbound) ?ended
    ?overflow ?dead ?full
  case emit => exact fun h => emitFrame_safe hg h ⟨hsrc, hf, hph, hfv⟩ hw
  case ended =>
    intro sids part g' hs hr
    obtain ⟨hpart, hg'⟩ := hfetch sids _ hs hr
    exact ⟨by simp, hg'.setNode ⟨hsrc, writeFrame_isElement hf hpart, hph, hfv⟩ hw⟩
  case overflow =>
    intro sids part g' hs hr
    obtain ⟨hpart, hd, hg'⟩ := hfetch sids _ hs hr
    exact ⟨hd, hg'.setNode ⟨hsrc, writeFrame_isElement hf hpart, hph, hfv⟩ hw⟩
  case dead => exact fun sids hs hr => hfetch sids _ hs hr
  case full =>
    intro sids frame g' hs hr
    obtain ⟨hframe, hg'⟩ := hfetch sids _ hs hr
    exact emitFrame_safe hg' rfl ⟨hsrc, writeFrame_isElement hf hframe, x.c.property.1, fun h => absurd h (by simp)⟩ hw

/-- An interleaver that can deliver has all its inputs. -/
theorem inputs_of_delivers {x : IlvNode} {c : Fin 8} (h : delivers (.ilv x) c = true) : x.inputs ≠ none := by
  obtain ⟨-, hall⟩ := Bool.and_eq_true_iff.1 h
  obtain ⟨sids, hs⟩ : x.src.toList.take x.c.val ∈ Set.range (List.map some) := by
    rw [Set.range_list_map]
    exact fun o ho => (Option.isSome_iff_exists.1 (List.all_eq_true.1 hall o ho)).imp fun _ ho => ho.symm
  simp [inputs_eq_some_iff.2 hs.symm]

/-- A node that can deliver is pulled safely, if its sources are. -/
theorem pullNode_safe {c : Fin 8} (hg : Sound depth g₀ g) (hc : delivers (g₀.node n) c = true)
    (hpull : ∀ src, g₀.checkSrc n src = true → ∀ g, Sound depth g₀ g → SafePull depth (Sound depth g₀) (pull src g)) :
    SafePull depth (Sound depth g₀) (pullNode depth pull n c g) := by
  have hok := hg.ok n
  have hw := hg.wired n
  rw [← hg.wired.delivers_eq n c] at hc
  unfold pullNode
  cases hx : g.node n <;> rw [hx] at hok hw hc
  case free => cases hc
  case lpf f => exact pullLpf_safe (hpull _ hok.1 g hg) hok hw
  case hpf f => exact pullHpf_safe (hpull _ hok.1 g hg) hok hw
  case tee t => exact pullTee_safe hg (hpull _ hok.1 g hg) hok hw
  case dil d =>
    have hport : c.val < d.c.val := of_decide_eq_true (Bool.and_eq_true_iff.1 (Bool.and_eq_true_iff.1 hc).1).2
    exact pullDil_safe hg (hpull _ hok.1) hport hok hw
  case ilv x => exact pullIlv_safe hg hpull (inputs_of_delivers hc) hok hw

end

/-- A live stream of a table in order is pulled safely. Nested pulls go to lower slots (R91, R100), so fuel above the slot
is enough. -/
theorem pullWithin_safe {depth : QueueDepth} {g₀ g : Streams} {fuel bound : Nat} {sid : Sid} (hfuel : bound < fuel)
    (hsid : sidIsPort sid = true ∨ (sidSlot sid).val < bound) (hlive : g₀.live sid = true) (hg : Sound depth g₀ g) :
    SafePull depth (Sound depth g₀) (pullWithin depth fuel sid g) := by
  induction fuel generalizing bound sid g with
  | zero => omega
  | succ fuel ih =>
    cases hp : sidIsPort sid with
    | true =>
      rw [pullWithin_port depth fuel g hp]
      exact xpull_safe _ hg
    | false =>
      have hslot : (sidSlot sid).val < bound := by simpa [hp] using hsid
      rw [pullWithin_node depth fuel g hp]
      refine pullNode_safe hg (by simpa [live_eq, hp] using hlive) fun src hsrc g' hg' => ?_
      obtain ⟨-, hlow, hl⟩ := (checkSrc_iff ..).1 hsrc
      exact ih (by omega) hlow hl hg'

/-- A live stream of a table in order is pulled safely. -/
theorem pull_safe {depth : QueueDepth} {g : Streams} {sid : Sid} (hg : ∀ n, NodeOk depth g n (g.node n))
    (hlive : g.live sid = true) : SafePull depth (Sound depth g) (pull depth sid g) :=
  pullWithin_safe (bound := 16) (by omega) (.inr (sidSlot sid).isLt) hlive ⟨fun _ => rfl, hg⟩

end Sys2Proof.Proofs
end

section
/-! PROOFS. The node table: its invariant, `NEXT`, and the commands that create and bind nodes (spec 10_state R20 to R29;
40_stream_tee R100 to R105; 41_lowpass R122; 42_highpass R140; 43_interleave R150, R154, R155). -/

namespace Sys2Proof.Proofs

open Sys2Proof Sys2Proof.Machine Sys2Proof.Config

/-! ### The invariant -/

/-- A table with no node is in order. -/
theorem graphInv_of_free {s : State} (h : ∀ n, s.streams.node n = .free) : GraphInv s := fun n => by
  rw [h n]
  trivial

/-- Whether a node can deliver is all that the check of a source asks of it. -/
theorem checkSrc_mono {g g' : Streams} (h : ∀ n c, delivers (g.node n) c = true → delivers (g'.node n) c = true)
    {n : Fin 16} {src : Sid} (hsrc : g.checkSrc n src = true) : g'.checkSrc n src = true := by
  obtain ⟨hformed, hlow, hlive⟩ := (checkSrc_iff ..).1 hsrc
  refine (checkSrc_iff ..).2 ⟨hformed, hlow, ?_⟩
  rw [live_eq, Bool.or_eq_true_iff] at *
  exact hlive.imp_right (h _ _)

/-- A node in order may be put where the node before it delivered on no port on which the new one does not. -/
theorem graphInv_setNode {s : State} {n : Fin 16} {x : Node} (h : GraphInv s)
    (hx : NodeOk s.params.qdepth s.streams n x) (hd : ∀ c, delivers (s.streams.node n) c = true → delivers x c = true)
    (rd : Word) : GraphInv ((s.setNode n x).ok rd) := by
  have hmono : ∀ m c, delivers (s.streams.node m) c = true → delivers ((s.streams.setNode n x).node m) c = true := by
    intro m c hm
    rw [Streams.node_setNode]
    split
    next heq => exact hd c (heq ▸ hm)
    next => exact hm
  intro m
  refine nodeOk_mono (fun src hs => checkSrc_mono hmono hs) ?_
  simp only [State.ok_streams, State.setNode_streams, Streams.node_setNode]
  split
  next heq => rwa [heq]
  next => exact h m

/-- What binding an input does. -/
theorem bind_eq_some {x y : IlvNode} {k : BitVec 4} {src : Sid} (h : x.bind k src = some y) :
    ∃ hk : k.toNat < 8, k.toNat < x.c.val ∧ x.src[k.toNat] = none ∧
      y = { x with src := x.src.set k.toNat (some src) } := by
  unfold IlvNode.bind at h
  split at h
  next hk =>
    split at h
    next hfree => cases h; exact ⟨hk, hfree.1, hfree.2, rfl⟩
    next => cases h
  next => cases h

/-- Binding an input to a source that passes the check keeps an interleaver in order. -/
theorem nodeOk_bind {depth : QueueDepth} {g : Streams} {n : Fin 16} {x y : IlvNode} {k : BitVec 4} {src : Sid}
    (h : NodeOk depth g n (.ilv x)) (hbind : x.bind k src = some y) (hsrc : g.checkSrc n src = true) :
    NodeOk depth g n (.ilv y) := by
  obtain ⟨hk, hkc, -, rfl⟩ := bind_eq_some hbind
  refine ⟨fun j sid hj => ?_, h.2⟩
  simp only [Fin.getElem_fin, Vector.getElem_set] at hj
  split at hj
  next heq => cases hj; exact ⟨heq ▸ hkc, hsrc⟩
  next => exact h.1 j sid hj

/-- An interleaver that can deliver can still deliver after a binding. -/
theorem delivers_bind {x y : IlvNode} {k : BitVec 4} {src : Sid} (hbind : x.bind k src = some y) (c : Fin 8)
    (h : delivers (.ilv x) c = true) : delivers (.ilv y) c = true := by
  obtain ⟨hk, -, -, rfl⟩ := bind_eq_some hbind
  obtain ⟨hport, hall⟩ := Bool.and_eq_true_iff.1 h
  refine Bool.and_eq_true_iff.2 ⟨hport, List.all_eq_true.2 fun o ho => ?_⟩
  simp only [Vector.toList_set, List.take_set] at ho
  obtain ho | rfl := List.mem_or_eq_of_mem_set ho
  · exact List.all_eq_true.1 hall o ho
  · rfl

/-- Every effect keeps the node table in order. -/
theorem graphInv_effect {cw : Word} {s t : State} (h : GraphInv s) (heff : Effect cw s t) : GraphInv t := by
  cases heff with
  | created n x hfree hok => exact graphInv_setNode h (hok _) (fun c hc => by rw [hfree] at hc; cases hc) 0
  | bound n x y k src hnode hbind hsrc =>
    have hx := h n
    rw [hnode] at hx
    exact graphInv_setNode h (nodeOk_bind hx hbind hsrc) (hnode ▸ delivers_bind hbind) 0
  | pulled sid r g hlive hpull =>
    have hsafe := pull_safe h hlive
    rw [hpull] at hsafe
    exact hsafe.2.nodeOk
  | overflowed sid g hlive hpull =>
    have hsafe := pull_safe h hlive
    rw [hpull] at hsafe
    exact hsafe.2.nodeOk
  | _ => exact h

/-- Settles O57: every effect keeps the table in order, and a reset empties it. -/
theorem stepKeepsGraphInvariant : Obligations.StepKeepsGraphInvariant := fun _ _ =>
  step_preserves (P := GraphInv) (fun _ _ h => h) (fun _ _ _ => graphInv_effect)
    (fun _ _ => graphInv_of_free (by simp)) (fun _ _ => graphInv_of_free (by simp))

/-! ### `NEXT` -/

/-- `NEXT` of a usable stream outside the fault state ends as its pull does. -/
theorem exec_next_eq {sid : Sid} {s : State} (hf : s.faulted = false) (hformed : sidFormed sid = true)
    (hlive : s.streams.live sid = true) :
    exec (.next sid) s = finishNext (.next sid) s (pull s.params.qdepth sid s.streams) := by
  simp only [exec, execNext, accept_of_normal _ hf, hformed, hlive, Bool.and_self, if_true]

/-- Settles O24: the pull is safe, and unbounded queues do not overflow, so it answers. -/
theorem nextCompletes : Obligations.NextCompletes := by
  intro sid s hinv hf hdepth hformed hlive
  have hsafe := pull_safe hinv hlive
  rw [exec_next_eq hf hformed hlive]
  cases hpull : pull s.params.qdepth sid s.streams <;> rw [hpull] at hsafe
  case answer r g =>
    refine ⟨_, rfl, rfl, fun _ => rfl, ⟨rfl, rfl⟩, ⟨rfl, rfl, rfl, rfl⟩, ?_⟩
    cases r with
    | none => exact .inl rfl
    | some v => exact .inr ⟨v, hsafe.1 v rfl, rfl⟩
  case overflow g => exact absurd hdepth hsafe.1
  case dead => exact hsafe.elim

/-- What a `NEXT` can do: answer with the streams its pull leaves, or raise a fault over the streams of before or over those
its pull leaves. -/
theorem next_cases {sid : Sid} {s t : State} (hf : s.faulted = false) (h : exec (.next sid) s = .next t) :
    ∃ g, Untouched s.streams sid g ∧
      ((∃ st rd, t = (s.setStreams g).respond st rd) ∨ ∃ e cw, t = (s.setStreams g).raise e cw) := by
  have huntouched := pull_untouched s.params.qdepth sid s.streams
  simp only [exec, execNext, accept_of_normal _ hf] at h
  split at h
  next =>
    obtain ⟨r, g, hpull, rfl⟩ | ⟨g, hpull, rfl⟩ := finishNext_next h <;> rw [hpull] at huntouched
    · exact ⟨g, huntouched, .inl ⟨_, _, rfl⟩⟩
    · exact ⟨g, huntouched, .inr ⟨_, _, rfl⟩⟩
  next =>
    cases h
    exact ⟨s.streams, ⟨fun _ => rfl, fun _ _ => rfl, fun _ _ => ⟨rfl, rfl⟩⟩, .inr ⟨_, _, rfl⟩⟩

/-- The sources of a node in order pass the source check. -/
theorem checkSrc_of_mem_sources {depth : QueueDepth} {g : Streams} {n : Fin 16} {x : Node} (h : NodeOk depth g n x)
    {src : Sid} (hm : src ∈ x.sources) : g.checkSrc n src = true := by
  cases x with
  | free => cases hm
  | lpf f => exact List.mem_singleton.1 hm ▸ h.1
  | hpf f => exact List.mem_singleton.1 hm ▸ h.1
  | tee t => exact List.mem_singleton.1 hm ▸ h.1
  | dil d => exact List.mem_singleton.1 hm ▸ h.1
  | ilv x =>
    obtain ⟨k, hk, hget⟩ := List.mem_iff_getElem.1 (List.mem_of_mem_take (List.reduceOption_mem_iff.1 hm))
    exact (h.1 ⟨k, by simpa using hk⟩ src (by simpa using hget)).2

/-- In a table in order, upstream of a port there is that port only, and upstream of a node there are ports and nodes not
higher than it (R91, R100). -/
theorem feeds_slot_le {s : State} {sid r : Sid} (hinv : GraphInv s) (hr : Feeds s.streams sid r)
    (hnode : sidIsPort r = false) : sidIsPort sid = false ∧ (sidSlot r).val ≤ (sidSlot sid).val := by
  induction hr with
  | self => exact ⟨hnode, le_rfl⟩
  | source mid src hmid hport hsrc ih =>
    obtain ⟨hsid, hle⟩ := ih hport
    obtain ⟨-, hlow, -⟩ := (checkSrc_iff ..).1 (checkSrc_of_mem_sources (hinv _) hsrc)
    simp only [hnode, Bool.false_eq_true, false_or] at hlow
    exact ⟨hsid, by omega⟩

/-- Settles O25: the pull leaves untouched what is not upstream, and the response or the fault touches no stream. -/
theorem nextTouchesOnlyUpstream : Obligations.NextTouchesOnlyUpstream := by
  intro sid s t hf h
  obtain ⟨g, hg, hres⟩ := next_cases hf h
  have hstreams : t.streams = g := by obtain ⟨_, _, rfl⟩ | ⟨_, _, rfl⟩ := hres <;> rfl
  refine ⟨hstreams ▸ hg.nodes, hstreams ▸ hg.ports, fun hinv m hm => hstreams ▸ hg.nodes m fun r hr hnode heq => ?_, ?_⟩
  · obtain ⟨hsid, hle⟩ := feeds_slot_le hinv hr hnode
    rw [heq] at hle
    obtain hport | hlt := hm
    · simp [hsid] at hport
    · omega
  · obtain ⟨_, _, rfl⟩ | ⟨_, _, rfl⟩ := hres <;>
      exact ⟨rfl, fun _ => rfl, ⟨rfl, rfl⟩, rfl, rfl, rfl, rfl⟩

/-! ### Creating and binding nodes -/

/-- A command that puts a node into a slot and answers `(OK, 0)` changes nothing else. -/
theorem setNode_ok_frame (s : State) (n : Fin 16) (x : Node) :
    ((s.setNode n x).ok 0).streams.node n = x ∧ KeepsNodesBut n s ((s.setNode n x).ok 0) ∧
      KeepsPorts s ((s.setNode n x).ok 0) ∧ ((s.setNode n x).ok 0).regs = s.regs ∧ KeepsBuf s ((s.setNode n x).ok 0) ∧
      KeepsPoints s ((s.setNode n x).ok 0) ∧ KeepsOutside s ((s.setNode n x).ok 0) ∧
      Answered ((s.setNode n x).ok 0) .ok 0 :=
  ⟨s.streams.node_setNode_same n x, fun _ hm => s.streams.node_setNode_other x hm, fun _ => ⟨rfl, rfl⟩, rfl,
    fun _ => rfl, ⟨rfl, rfl⟩, ⟨rfl, rfl, rfl, rfl⟩, rfl⟩

theorem widthOf_of_eq {imm : BitVec 8} {w : Width} (h : imm.toNat = w.val) : widthOf imm = some w := by
  rw [widthOf_eq_some (h ▸ w.property)]
  exact congrArg some (Subtype.ext h)

theorem channelsOf_of_eq {imm : BitVec 8} {c : Channels} (h : imm.toNat = c.val) : channelsOf imm = some c := by
  rw [channelsOf_eq_some (h ▸ c.property)]
  exact congrArg some (Subtype.ext h)

section
variable {node : BitVec 4} {src : Sid} {imm : BitVec 8} {s : State}

/-- A source that is usable for the slot `node` passes the source check. -/
theorem checkSrc_of_usable (hformed : sidFormed src = true) (hlow : sidIsPort src = true ∨ (sidSlot src).val < node.toNat)
    (hlive : s.streams.live src = true) : s.streams.checkSrc (slotOf node) src = true :=
  (checkSrc_iff ..).2 ⟨hformed, hlow, hlive⟩

/-- `CheckNew` passes on a free slot with a usable source. -/
theorem checkNew_of_usable (hfree : s.streams.node (slotOf node) = .free) (hformed : sidFormed src = true)
    (hlow : sidIsPort src = true ∨ (sidSlot src).val < node.toNat) (hlive : s.streams.live src = true) :
    s.streams.checkNew (slotOf node) src = true :=
  (checkNew_iff ..).2 ⟨hfree, checkSrc_of_usable hformed hlow hlive⟩

theorem newFilter_of_usable (mk : FilterNode → Node) (i : Instr) {w : Width} (hw : imm.toNat = w.val)
    (hnew : s.streams.checkNew (slotOf node) src = true) :
    newFilter mk i node src imm s = .next ((s.setNode (slotOf node) (mk ⟨src, w, 0⟩)).ok 0) := by
  simp only [newFilter, widthOf_of_eq hw, hnew, if_true]

end

/-- Settles O16: the width is in range and `CheckNew` passes, so both filter commands put their node. -/
theorem filterNewCreates : Obligations.FilterNewCreates := by
  intro node src imm w s hf hw hfree hformed hlow hlive
  have hnew := checkNew_of_usable hfree hformed hlow hlive
  exact ⟨⟨_, (accept_of_normal _ hf).trans (newFilter_of_usable .lpf _ hw hnew), setNode_ok_frame ..⟩,
    ⟨_, (accept_of_normal _ hf).trans (newFilter_of_usable .hpf _ hw hnew), setNode_ok_frame ..⟩⟩

/-- Settles O17: `CheckNew` passes, so the tee is put. -/
theorem teeNewCreates : Obligations.TeeNewCreates := by
  intro node src s hf hfree hformed hlow hlive
  have hnew := checkNew_of_usable hfree hformed hlow hlive
  refine ⟨_, ?_, setNode_ok_frame ..⟩
  simp only [exec, execTeeNew, accept_of_normal _ hf, hnew, if_true]

/-- Settles O18: the channel count is in range and `CheckNew` passes, so the deinterleaver is put. -/
theorem dilNewCreates : Obligations.DilNewCreates := by
  intro node src imm c s hf hc hfree hformed hlow hlive
  have hnew := checkNew_of_usable hfree hformed hlow hlive
  have hexec : exec (.dilNew node src imm) s =
      .next ((s.setNode (slotOf node) (.dil ⟨src, c, Vector.replicate 8 [], false⟩)).ok 0) := by
    simp only [exec, execDilNew, accept_of_normal _ hf, channelsOf_of_eq hc, hnew, if_true]
  obtain ⟨hnode, hframe⟩ := setNode_ok_frame s (slotOf node) (.dil ⟨src, c, Vector.replicate 8 [], false⟩)
  exact ⟨_, _, hexec, hnode, rfl, rfl, rfl, by simp, hframe⟩

/-- Settles O19: the channel count is in range and the slot is free, so the interleaver is put. -/
theorem ilvNewCreates : Obligations.IlvNewCreates := by
  intro node imm c s hf hc hfree
  have hexec : exec (.ilvNew node imm) s = .next ((s.setNode (slotOf node)
      (.ilv ⟨c, Vector.replicate 8 none, Vector.replicate 8 0, 0, false, false⟩)).ok 0) := by
    simp only [exec, execIlvNew, accept_of_normal _ hf, channelsOf_of_eq hc, (isFree_iff _).2 hfree, if_true]
  obtain ⟨hnode, hframe⟩ := setNode_ok_frame s (slotOf node)
    (.ilv ⟨c, Vector.replicate 8 none, Vector.replicate 8 0, 0, false, false⟩)
  exact ⟨_, _, hexec, hnode, rfl, by simp, rfl, rfl, rfl, hframe⟩

/-- Settles O20: the input can be bound and its source passes `CheckSrc`. -/
theorem ilvBindBinds : Obligations.IlvBindBinds := by
  intro node aux src x k s hf hnode hk hkc hunbound hformed hlow hlive
  have hbind : x.bind aux src = some { x with src := x.src.set k (some src) } := by
    have hnone : x.src[k.val] = none := hunbound
    simp [IlvNode.bind, hk, hkc, hnone]
  have hsrc := checkSrc_of_usable (s := s) hformed hlow hlive
  refine ⟨_, ?_, setNode_ok_frame ..⟩
  simp only [exec, execIlvBind, accept_of_normal _ hf, hnode, hbind, hsrc, if_true]

end Sys2Proof.Proofs
end

section
/-! PROOFS. The buffer, the points and the registers: their invariants, the fault record, and the state after reset (spec
10_state R32 to R52; 44_spectral_analyzer R171 to R180; 45_frequency_axis R201, R204; 60_exceptions R245). -/

namespace Sys2Proof.Proofs

open Sys2Proof Sys2Proof.Machine Sys2Proof.Config

/-! ### The buffer -/

/-- Writing a saturated word in range keeps the buffer in order. -/
theorem bufInv_write {s : State} {addr : Nat} (z : Int) (h : BufInv s) (haddr : addr < s.params.bufDepth) :
    BufInv (({ s with buf := s.buf.write addr (sat24 z) } : State).ok 0) := by
  obtain ⟨hwf, hcells⟩ := h
  refine ⟨Buffer.wf_write _ _ _ hwf, fun cell hcell => ?_⟩
  obtain rfl | hold := Buffer.mem_write _ _ _ _ hcell
  · exact ⟨haddr, sat24_range z⟩
  · exact hcells cell hold

/-- Every effect keeps the buffer in order. -/
theorem bufInv_effect {cw : Word} {s t : State} (h : BufInv s) (heff : Effect cw s t) : BufInv t := by
  cases heff with
  | bufWritten addr z haddr => exact bufInv_write z h haddr
  | _ => exact h

theorem bufInv_of_nil {s : State} (h : s.buf = []) : BufInv s := by simp [BufInv, Buffer.wf, h]

/-- Settles O58: only a write changes the buffer, and the hard reset empties it. -/
theorem stepKeepsBufferInvariant : Obligations.StepKeepsBufferInvariant := fun _ _ =>
  step_preserves (P := BufInv) (fun _ _ h => h) (fun _ _ _ => bufInv_effect) (fun _ h => h)
    (fun _ _ => bufInv_of_nil rfl)

/-- A word that is read is a sample. -/
theorem isSample_of_read {s : State} (h : BufInv s) {a : Nat} {v : Int} (hv : s.buf.read a = some v) : IsSample v :=
  (h.2 _ (Buffer.mem_of_read hv)).2

/-! ### Frequencies -/

/-- Up to `2^32` binary32 does not overflow (R9). -/
theorem isFinite32_fl32 {q : ℚ} (h : |q| ≤ 2 ^ 32) : isFinite32 (fl32 q) = true := by
  have hr : Rounds 23 (-149) q (quantise 24 (-149) q).1 (quantise 24 (-149) q).2 := quantise_rounds 23 (-149) q
  rw [fl32_eq]
  generalize (quantise 24 (-149) q).1 = m at *
  generalize (quantise 24 (-149) q).2 = u at *
  have hu : u ≤ 9 := by
    obtain rfl | hb := hr.binade_le
    · decide
    · rw [le_div_iff₀ (zpow_pos two_pos _)] at hb
      have hpow : (2 : ℚ) ^ (23 + u) ≤ 2 ^ (32 : Int) := by
        rw [zpow_add₀ two_ne_zero]
        exact_mod_cast hb.trans h
      have := (zpow_le_zpow_iff_right₀ (one_lt_two : (1 : ℚ) < 2)).1 hpow
      omega
  have hm := hr.le_pow
  have hcode : code m u < 255 * 2 ^ 23 := by
    unfold code
    omega
  rw [min_eq_right (by omega), isFinite32, expField32_pattern _ (by omega), bne_iff_ne]
  omega

/-- The frequency of a bin of a window is at most the sample rate in magnitude (R177). -/
theorem abs_freq_le {k len : Nat} (rate : Nat) (hk : k < len) : |freq k len rate| ≤ rate := by
  have hlen : (0 : ℚ) < len := by exact_mod_cast (by omega : 0 < len)
  have hk' : (k : ℚ) ≤ len := by exact_mod_cast hk.le
  have hhalf : ((len / 2 : Nat) : ℚ) ≤ len := by exact_mod_cast Nat.div_le_self len 2
  have hbin : |(k : ℚ) - ((len / 2 : Nat) : ℚ)| ≤ len := by
    rw [abs_le]
    constructor <;> linarith [Nat.cast_nonneg (α := ℚ) k, Nat.cast_nonneg (α := ℚ) (len / 2)]
  rw [freq, abs_div, abs_mul, Nat.abs_cast, Nat.abs_cast, div_le_iff₀ hlen, mul_comm]
  exact mul_le_mul_of_nonneg_left hbin (Nat.cast_nonneg _)

/-! ### The points of a run -/

theorem length_fftShift {α : Type} (v : List α) : (fftShift v).length = v.length := by
  simp only [fftShift, List.length_append, List.length_drop, List.length_take]
  omega

theorem mem_of_mem_fftShift {α : Type} {v : List α} {x : α} (h : x ∈ fftShift v) : x ∈ v :=
  (List.mem_append.1 h).elim List.mem_of_mem_drop List.mem_of_mem_take

theorem length_windowPoints (i rate : Nat) (w : List Int) : (windowPoints i rate w).length = w.length := by
  simp [windowPoints, length_fftShift, magnitudes]

/-- A point of a window has the magnitude of one of its bins and the frequency of one. -/
theorem mem_windowPoints {i rate : Nat} {w : List Int} {p : Point} (h : p ∈ windowPoints i rate w) :
    (∃ b, b < w.length ∧ p.mag = spaMag.bin w b) ∧ ∃ k, k < w.length ∧ p.freq = fl32 (freq k w.length rate) := by
  obtain ⟨⟨m, k⟩, hmk, rfl⟩ := List.mem_map.1 h
  obtain ⟨-, hk, hm⟩ := List.mem_zipIdx hmk
  have hmem : m ∈ magnitudes w := mem_of_mem_fftShift (hm ▸ List.getElem_mem _)
  obtain ⟨b, hb, rfl⟩ := List.mem_map.1 hmem
  refine ⟨⟨b, List.mem_range.1 hb, rfl⟩, k, ?_, rfl⟩
  simpa [length_fftShift, magnitudes] using hk

/-- The points of a run are those of its windows, and as many as these have samples. -/
theorem analyse_ok {b : Buffer} {width rate : Nat} {times : List Nat} {pts : List Point}
    (h : analyse b width rate times = .ok pts) :
    pts.length = (times.map (min width)).sum ∧
      ∀ p ∈ pts, ∃ i ∈ times, ∃ w, min width i ≠ 0 ∧ readRange b (i - width) (min width i) = .ok w ∧
        p ∈ windowPoints i rate w := by
  induction times generalizing pts with
  | nil => cases h; simp
  | cons i rest ih =>
    have hlen : i - (i - width) = min width i := by omega
    simp only [analyse, hlen] at h
    split at h
    next hzero =>
      obtain ⟨hsum, hmem⟩ := ih h
      refine ⟨by simp [hsum, hzero], fun p hp => ?_⟩
      obtain ⟨j, hj, hw⟩ := hmem p hp
      exact ⟨j, .tail _ hj, hw⟩
    next hpos =>
      split at h
      next => cases h
      next w hw =>
        cases hrest : analyse b width rate rest <;> rw [hrest] at h <;> cases h
        next restPts =>
          obtain ⟨hsum, hmem⟩ := ih hrest
          refine ⟨by simp [hsum, length_windowPoints, (readRange_ok hw).1], fun p hp => ?_⟩
          obtain hp | hp := List.mem_append.1 hp
          · exact ⟨i, .head _, w, hpos, hw, hp⟩
          · obtain ⟨j, hj, hw⟩ := hmem p hp
            exact ⟨j, .tail _ hj, hw⟩

/-- A legal window size is twice a power of two (R37). -/
theorem windowSize_eq {width : Nat} (h : windowSizeOk width = true) : ∃ k, width = 2 * 2 ^ k := by
  simp only [windowSizeOk, Bool.and_eq_true, decide_eq_true_eq, beq_iff_eq] at h
  obtain ⟨h2, hpow⟩ := h
  cases hk : Nat.log2 width with
  | zero => rw [hk] at hpow; omega
  | succ k => exact ⟨k, by rw [← hpow, hk, Nat.pow_succ, Nat.mul_comm]⟩

/-- The time indices are the multiples of half the window size below `n` (R172). -/
theorem timeIndices_eq {n half : Nat} (hhalf : 0 < half) :
    ∃ m, timeIndices n (2 * half) = (List.range m).map (· * half) ∧ (0 < m → (m - 1) * half < n) := by
  have hdiv : 2 * half / 2 = half := by omega
  refine ⟨(n + half - 1) / half, by simp only [timeIndices, hdiv], fun hm => ?_⟩
  have hle := Nat.div_mul_le_self (n + half - 1) half
  generalize (n + half - 1) / half = m at *
  obtain ⟨j, rfl⟩ : ∃ j, m = j + 1 := ⟨m - 1, by omega⟩
  rw [Nat.add_one_mul] at hle
  simp only [Nat.add_sub_cancel]
  omega

/-- Windows of twice the spacing of their time indices take every sample at most twice. -/
theorem sum_windows_le (half m : Nat) :
    (((List.range m).map (· * half)).map (min (2 * half))).sum ≤ 2 * ((m - 1) * half) := by
  induction m with
  | zero => simp
  | succ m ih =>
    rw [List.range_succ, List.map_append, List.map_append, List.sum_append]
    simp only [List.map_cons, List.map_nil, List.sum_cons, List.sum_nil, Nat.add_zero, Nat.add_sub_cancel]
    cases m with
    | zero => simp
    | succ j =>
      have := min_le_left (2 * half) ((j + 1) * half)
      have hmul := Nat.add_one_mul j half
      rw [Nat.add_sub_cancel] at ih
      omega

/-- A window that is not empty has a power of two of samples. -/
theorem window_length_pow {k j : Nat} (h : min (2 * 2 ^ k) (j * 2 ^ k) ≠ 0) :
    ∃ e, min (2 * 2 ^ k) (j * 2 ^ k) = 2 ^ e := by
  match j with
  | 0 => simp at h
  | 1 => exact ⟨k, by omega⟩
  | j + 2 =>
    refine ⟨k + 1, ?_⟩
    rw [min_eq_left (Nat.mul_le_mul_right _ (by omega)), Nat.pow_succ, Nat.mul_comm]

theorem bufDepth_le (p : Params) : p.bufDepth ≤ 2 ^ 24 := p.bufLast.isLt

section
variable {s : State} {pts : List Point} (hsize : windowSizeOk s.regs.spaW.toNat = true)
  (hfit : s.regs.spaN.toNat ≤ s.params.bufDepth)
  (hpts : analyse s.buf s.regs.spaW.toNat s.regs.spaR.toNat
    (timeIndices s.regs.spaN.toNat s.regs.spaW.toNat) = .ok pts)

include hsize hfit hpts

/-- A run makes fewer than `2^32` points, so `SPA_NPTS` can count them. -/
theorem analyse_length_lt : pts.length < 2 ^ 32 := by
  obtain ⟨k, hk⟩ := windowSize_eq hsize
  obtain ⟨m, hm, hlt⟩ := timeIndices_eq (n := s.regs.spaN.toNat) (Nat.two_pow_pos k)
  rw [hk, hm] at hpts
  have hsum := sum_windows_le (2 ^ k) m
  have hdepth := bufDepth_le s.params
  rw [(analyse_ok hpts).1]
  generalize (List.map (min (2 * 2 ^ k)) ((List.range m).map (· * 2 ^ k))).sum = total at *
  rcases Nat.eq_zero_or_pos m with rfl | hpos
  · simp only [Nat.zero_sub, Nat.zero_mul] at hsum
    omega
  · have := hlt hpos
    omega

/-- The windows of a run are windows that `SPA_MAG` makes promises about, so its magnitudes are such, and its frequencies
are finite. -/
theorem analyse_values (hbuf : BufInv s) : ∀ p ∈ pts, isMagnitude p.mag = true ∧ isFinite32 p.freq = true := by
  intro p hp
  obtain ⟨k, hk⟩ := windowSize_eq hsize
  obtain ⟨m, hm, hlt⟩ := timeIndices_eq (n := s.regs.spaN.toNat) (Nat.two_pow_pos k)
  rw [hk, hm] at hpts
  obtain ⟨i, hi, w, hne, hread, hpw⟩ := (analyse_ok hpts).2 p hp
  obtain ⟨j, hj, rfl⟩ := List.mem_map.1 hi
  obtain ⟨hlen, hget⟩ := readRange_ok hread
  have hwindow : IsWindow w := by
    refine ⟨hlen ▸ window_length_pow hne, ?_, fun x hx => ?_⟩
    · have hjm := List.mem_range.1 hj
      have hle : j * 2 ^ k ≤ (m - 1) * 2 ^ k := Nat.mul_le_mul_right _ (by omega)
      have := hlt (by omega)
      have := bufDepth_le s.params
      omega
    · obtain ⟨a, ha, rfl⟩ := List.mem_iff_getElem.1 hx
      exact isSample_of_read hbuf ((hget a (hlen ▸ ha)).trans (List.getElem?_eq_getElem ha))
  obtain ⟨⟨b, hb, hmag⟩, f, hf, hfreq⟩ := mem_windowPoints hpw
  refine ⟨hmag ▸ spaMag.finite_nonneg w b hwindow hb, hfreq ▸ isFinite32_fl32 ((abs_freq_le _ hf).trans ?_)⟩
  exact_mod_cast s.regs.spaR.isLt.le

end

/-! ### The axis -/

/-- The count of an axis fits its register (R201). -/
theorem axisCount_lt {start stop step : Word} {count : Nat} (h : axisCount start stop step = some count) :
    count < 2 ^ 32 := by
  unfold axisCount at h
  split at h
  next => cases h
  next =>
    simp only at h
    split at h
    next => cases h
    next =>
      split at h
      next => cases h
      next hbig =>
        generalize fl32 (val32 (fl32 (val32 stop - val32 start)) / val32 step) = q at *
        split at h
        next => cases h; decide
        next =>
          cases h
          have hq : val32 q < 2 ^ 32 := by simpa using (not_or.1 (mt Bool.or_eq_true_iff.2 hbig)).2
          have hfloor : (val32 q).floor < 2 ^ 32 := by
            refine not_le.1 fun hle => absurd (Rat.le_floor_iff.1 hle) ?_
            push_cast
            exact not_le.2 hq
          omega

/-! ### What `REG.WR` may write -/

section
variable {r : Regs} {n m : RegName} (v : Word)

/-- A host write changes the register written and, where that is an axis operand, `AX_COUNT` and `AX_POS` (R204, R218). -/
theorem get_hostWrite_other (hm : m ≠ n) (haxis : n.isAxisOperand = true → m ≠ .axCount ∧ m ≠ .axPos) :
    (r.hostWrite n v).get m = r.get m := by
  unfold Regs.hostWrite
  split
  next h => rw [Regs.get_set_other _ _ (haxis h).2, Regs.get_set_other _ _ (haxis h).1, Regs.get_set_other _ _ hm]
  next => exact Regs.get_set_other _ _ hm

/-- A host write changes no read-only register but `AX_COUNT` and `AX_POS`. -/
theorem get_hostWrite_readOnly (hn : n.writable = true) (hm : m.writable = false) (haxis : m ≠ .axCount ∧ m ≠ .axPos) :
    (r.hostWrite n v).get m = r.get m :=
  get_hostWrite_other v (fun h => by rw [h, hn] at hm; cases hm) fun _ => haxis

/-- Writing an axis operand ends the axis (R204). -/
theorem hostWrite_axisOperand (hn : n.isAxisOperand = true) :
    (r.hostWrite n v).axCount = 0 ∧ (r.hostWrite n v).axPos = 0 := by
  rw [Regs.hostWrite, if_pos hn]
  exact ⟨rfl, rfl⟩

/-- Writing another register leaves the registers of the axis alone. -/
theorem get_hostWrite_axis (hn : n.isAxisOperand = false) (hw : n.writable = true)
    (hm : m ∈ [.axStart, .axEnd, .axStep, .axCount, .axPos]) : (r.hostWrite n v).get m = r.get m := by
  refine get_hostWrite_other v (fun h => ?_) fun h => by simp [hn] at h
  subst h
  cases m <;> simp_all [RegName.isAxisOperand, RegName.writable]

end

/-! ### The invariants of the registers -/

section
variable {cw : Word} {s t : State}

/-- Outside the fault state an effect leaves the fault record alone and answers no fault, or is a fault, which writes the
record and answers its code (R245). -/
theorem effect_record (heff : Effect cw s t) :
    (t.regs.status = s.regs.status ∧ t.regs.errinfo = s.regs.errinfo ∧ ∀ rd, ¬Answered t .fault rd) ∨
      ∃ e : Cause, t.regs.status = statusOf e ∧ t.regs.errinfo = cw ∧ Answered t .fault (e.code.zeroExtend 32) := by
  cases heff with
  | raised e => exact .inr ⟨e, rfl, rfl, rfl⟩
  | overflowed => exact .inr ⟨.queueOvf, rfl, rfl, rfl⟩
  | pulled sid r g => exact .inl ⟨rfl, rfl, fun rd h => by cases r <;> cases h⟩
  | regWritten n v hn =>
    exact .inl ⟨get_hostWrite_readOnly (m := .status) v hn rfl (by decide),
      get_hostWrite_readOnly (m := .errinfo) v hn rfl (by decide), fun rd h => by cases h⟩
  | _ => exact .inl ⟨rfl, rfl, fun rd h => by cases h⟩

theorem statusInv_effect (h : StatusInv s) (heff : Effect cw s t) : StatusInv t := by
  obtain ⟨hstatus, herrinfo, -⟩ | ⟨e, hstatus, -⟩ := effect_record heff
  · rwa [StatusInv, hstatus, herrinfo]
  · exact .inr ⟨e, hstatus⟩

/-- With no term and position 0 the axis is in order, whatever its operands are. -/
theorem axisInv_of_zero (hcount : s.regs.axCount = 0) (hpos : s.regs.axPos = 0) : AxisInv s := by
  simp [AxisInv, hcount, hpos]

theorem axisInv_effect (h : AxisInv s) (heff : Effect cw s t) : AxisInv t := by
  cases heff with
  | regWritten n v hn =>
    cases haxis : n.isAxisOperand with
    | true => exact axisInv_of_zero (hostWrite_axisOperand v haxis).1 (hostWrite_axisOperand v haxis).2
    | false =>
      have hkeep := fun m hm => get_hostWrite_axis (r := s.regs) (m := m) v haxis hn hm
      have hstart : (s.regs.hostWrite n v).axStart = s.regs.axStart := hkeep .axStart (by decide)
      have hend : (s.regs.hostWrite n v).axEnd = s.regs.axEnd := hkeep .axEnd (by decide)
      have hstep : (s.regs.hostWrite n v).axStep = s.regs.axStep := hkeep .axStep (by decide)
      have hcount : (s.regs.hostWrite n v).axCount = s.regs.axCount := hkeep .axCount (by decide)
      have hpos : (s.regs.hostWrite n v).axPos = s.regs.axPos := hkeep .axPos (by decide)
      simpa only [AxisInv, State.ok_regs, State.setRegs_regs, hstart, hend, hstep, hcount, hpos] using h
  | axisBegun count hfin hcount =>
    have hnat : (BitVec.ofNat 32 count).toNat = count := Nat.mod_eq_of_lt (axisCount_lt hcount)
    refine ⟨by simp, fun _ => ⟨hfin.1, hfin.2.1, hfin.2.2, ?_⟩⟩
    exact hcount.trans (congrArg some hnat.symm)
  | axisAdvanced v hpos =>
    refine ⟨?_, h.2⟩
    simp only [State.ok_regs, State.setRegs_regs]
    bv_omega
  | _ => exact h

theorem pointCountInv_effect (h : PointCountInv s) (heff : Effect cw s t) : PointCountInv t := by
  cases heff with
  | regWritten n v hn =>
    have hnpts : (s.regs.hostWrite n v).spaNpts = s.regs.spaNpts :=
      get_hostWrite_readOnly (m := .spaNpts) v hn rfl (by decide)
    exact (congrArg BitVec.toNat hnpts).trans h
  | analysed pts hsize hfit hpts => exact Nat.mod_eq_of_lt (analyse_length_lt hsize hfit hpts)
  | delivered j hj =>
    have hcount : s.regs.spaNpts.toNat = s.pts.length := h
    simp only [PointCountInv, State.deliver_regs, State.deliver_pts, List.length_eraseIdx_of_lt hj]
    bv_omega
  | _ => exact h

theorem pointValueInv_effect (hbuf : BufInv s) (h : PointValueInv s) (heff : Effect cw s t) : PointValueInv t := by
  obtain ⟨hlast, hall⟩ := h
  cases heff with
  | regWritten n v hn =>
    have hfreq : (s.regs.hostWrite n v).ptFreq = s.regs.ptFreq :=
      get_hostWrite_readOnly (m := .ptFreq) v hn rfl (by decide)
    have hmag : (s.regs.hostWrite n v).ptMag = s.regs.ptMag :=
      get_hostWrite_readOnly (m := .ptMag) v hn rfl (by decide)
    simpa only [PointValueInv, State.ok_regs, State.setRegs_regs, hfreq, hmag] using ⟨hlast, hall⟩
  | analysed pts hsize hfit hpts => exact ⟨hlast, analyse_values hsize hfit hpts hbuf⟩
  | delivered j hj => exact ⟨hall _ (List.getElem_mem hj), fun p hp => hall p (List.mem_of_mem_eraseIdx hp)⟩
  | _ => exact ⟨hlast, hall⟩

end

/-- The invariants of the registers and the point store, with that of the buffer, from which the points come. -/
def RegistersOk (s : State) : Prop := BufInv s ∧ StatusInv s ∧ AxisInv s ∧ PointCountInv s ∧ PointValueInv s

/-- With the reset values in the registers, no point, and the buffer in order, all is in order. -/
theorem registersOk_of_reset {s : State} (hregs : s.regs = Regs.reset) (hpts : s.pts = []) (hbuf : BufInv s) :
    RegistersOk s := by
  refine ⟨hbuf, .inl ?_, axisInv_of_zero ?_ ?_, ?_, ?_, by simp [hpts]⟩
  · rw [hregs]; exact ⟨rfl, rfl⟩
  · rw [hregs]; rfl
  · rw [hregs]; rfl
  · rw [PointCountInv, hregs, hpts]; rfl
  · rw [hregs]; decide

/-- Settles O59: each effect keeps each invariant, and a reset restores the values that have them. -/
theorem stepKeepsRegisterInvariant : Obligations.StepKeepsRegisterInvariant := by
  intro s t hbuf hstatus haxis hcount hvalue h
  refine (step_preserves (P := RegistersOk) (fun _ _ h => h) ?_ ?_ ?_ ⟨hbuf, hstatus, haxis, hcount, hvalue⟩ h).2
  · rintro cw s t ⟨hbuf, hstatus, haxis, hcount, hvalue⟩ heff
    exact ⟨bufInv_effect hbuf heff, statusInv_effect hstatus heff, axisInv_effect haxis heff,
      pointCountInv_effect hcount heff, pointValueInv_effect hbuf hvalue heff⟩
  · exact fun s hs => registersOk_of_reset rfl rfl hs.1
  · exact fun s _ => registersOk_of_reset rfl rfl (bufInv_of_nil rfl)

theorem statusOf_eq (e : Cause) : statusOf e = 1 + 16 * e.code.zeroExtend 32 := by cases e <;> decide

/-- Settles O13: no command but `RESET` writes the fault record other than as a fault. -/
theorem statusWrittenOnlyByFaults : Obligations.StatusWrittenOnlyByFaults := by
  intro i s t _ hi h
  have heff := (exec_effect h).resolve_right fun hreset => hi hreset.1
  exact (effect_record heff).imp_right fun ⟨e, hstatus, hrest⟩ => ⟨e, hstatus.trans (statusOf_eq e), hrest⟩

/-! ### The state after reset -/

/-- Settles O7, part by part from the reset values; the registers one by one. -/
theorem resetStateIsTheSpecs : Obligations.ResetStateIsTheSpecs :=
  ⟨Streams.reset_node _, Streams.reset_xeos _, fun r => by cases r <;> rfl, rfl, fun _ => rfl⟩

/-- Settles O8: the parts of the invariant hold of any state with no node, the reset registers, no point and no word. -/
theorem invariantAtReset : Obligations.InvariantAtReset :=
  ⟨graphInv_of_free (Streams.reset_node _), registersOk_of_reset rfl rfl (bufInv_of_nil rfl)⟩

end Sys2Proof.Proofs
end

section
/-! PROOFS. `REG.WR` and `REG.RD` by register number (spec 10_state R33; 45_frequency_axis R204; 46_control R218, R219). -/

namespace Sys2Proof.Proofs

open Sys2Proof Sys2Proof.Machine Sys2Proof.Config

/-! ### Register numbers -/

/-- The number of a register in R33's table. -/
def number : RegName → Nat
  | .status => 0
  | .errinfo => 1
  | .spaN => 2
  | .spaW => 3
  | .spaR => 4
  | .spaNpts => 5
  | .ptIdx => 6
  | .ptFreq => 7
  | .ptMag => 8
  | .axStart => 9
  | .axEnd => 10
  | .axStep => 11
  | .axCount => 12
  | .axPos => 13

theorem regOf_eq_some_iff {regno : BitVec 8} {n : RegName} : regOf regno = some n ↔ regno.toNat = number n := by
  constructor
  · intro h
    unfold regOf at h
    split at h <;> cases h <;> next heq => exact heq
  · intro h
    unfold regOf
    rw [h]
    cases n <;> rfl

/-- The numbers up to 0x0D are all taken. -/
theorem exists_number {k : Nat} (h : k ≤ 0x0D) : ∃ n, number n = k := by
  interval_cases k
  exacts [⟨.status, rfl⟩, ⟨.errinfo, rfl⟩, ⟨.spaN, rfl⟩, ⟨.spaW, rfl⟩, ⟨.spaR, rfl⟩, ⟨.spaNpts, rfl⟩, ⟨.ptIdx, rfl⟩,
    ⟨.ptFreq, rfl⟩, ⟨.ptMag, rfl⟩, ⟨.axStart, rfl⟩, ⟨.axEnd, rfl⟩, ⟨.axStep, rfl⟩, ⟨.axCount, rfl⟩, ⟨.axPos, rfl⟩]

theorem exists_regOf {regno : BitVec 8} (h : regno.toNat ≤ 0x0D) : ∃ n, regOf regno = some n :=
  (exists_number h).imp fun _ hn => regOf_eq_some_iff.2 hn.symm

/-- The registers of R33's table stand in the order of their numbers. -/
theorem getElem?_inOrder (r : Regs) (n : RegName) : r.inOrder[number n]? = some (r.get n) := by cases n <;> rfl

theorem inOrder_set (r : Regs) (n : RegName) (v : Word) : (r.set n v).inOrder = r.inOrder.set (number n) v := by
  cases n <;> rfl

theorem number_le (n : RegName) : number n ≤ 0x0D := by cases n <;> decide

theorem writable_iff (n : RegName) : n.writable = true ↔ number n ∈ [2, 3, 4, 9, 10, 11] := by cases n <;> decide

/-- Of the writable registers those from 9 on are the axis operands. -/
theorem isAxisOperand_iff {n : RegName} (hn : n.writable = true) : n.isAxisOperand = true ↔ 9 ≤ number n := by
  revert hn
  cases n <;> decide

/-! ### A host write -/

section
variable (r : Regs) {n : RegName} (v : Word)

theorem get_hostWrite_same (hn : n.writable = true) : (r.hostWrite n v).get n = v := by
  have hcount : n ≠ .axCount := fun h => by rw [h] at hn; cases hn
  have hpos : n ≠ .axPos := fun h => by rw [h] at hn; cases hn
  unfold Regs.hostWrite
  split
  next => rw [Regs.get_set_other _ _ hpos, Regs.get_set_other _ _ hcount, Regs.get_set_same]
  next => exact Regs.get_set_same ..

/-- The whole register file after a host write, by number. -/
theorem inOrder_hostWrite (hn : n.writable = true) : (r.hostWrite n v).inOrder =
    if number n < 9 then r.inOrder.set (number n) v else ((r.inOrder.set (number n) v).set 0x0C 0).set 0x0D 0 := by
  unfold Regs.hostWrite
  by_cases haxis : 9 ≤ number n
  · rw [if_pos ((isAxisOperand_iff hn).2 haxis), if_neg (by omega)]
    simp only [inOrder_set, number]
  · rw [if_neg (mt (isAxisOperand_iff hn).1 haxis), if_pos (by omega), inOrder_set]

end

/-! ### The commands -/

/-- A fault raised does what the statements call raising and nothing else (R245, R246). -/
theorem onlyRaised_raise (s : State) (e : Cause) (cw : Word) : OnlyRaised e cw s (s.raise e cw) := by
  refine ⟨?_, rfl, rfl, fun _ => rfl, ⟨rfl, rfl⟩, rfl, rfl, rfl, rfl⟩
  rw [State.raise_regs, statusOf_eq]

section
variable {s : State} {regno : BitVec 8} {n : RegName}

theorem exec_regWr_writable {wd : Word} (hf : s.faulted = false) (hreg : regOf regno = some n) (hn : n.writable = true) :
    exec (.regWr regno wd) s = .next ((s.setRegs (s.regs.hostWrite n wd)).ok 0) := by
  simp only [exec, execRegWr, accept_of_normal _ hf, hreg, hn, if_true]

theorem exec_regWr_illegal {wd : Word} (hf : s.faulted = false)
    (hreg : ∀ n, regOf regno = some n → n.writable = false) :
    exec (.regWr regno wd) s = .next (s.raise .illegalCmd (cwOf (.regWr regno wd))) := by
  simp only [exec, execRegWr, accept_of_normal _ hf]
  cases h : regOf regno with
  | none => rfl
  | some n => simp [hreg n h]

theorem exec_regRd (hreg : regOf regno = some n) :
    exec (.regRd regno) s = .next { s with resp := some ⟨.ok, s.regs.get n⟩ } := by
  simp only [exec, execRegRd, hreg]
  rfl

theorem exec_regRd_illegal (hf : s.faulted = false) (hreg : regOf regno = none) :
    exec (.regRd regno) s = .next (s.raise .illegalCmd (cwOf (.regRd regno))) := by
  simp only [exec, execRegRd, hreg, accept_of_normal _ hf, fail_eq]

end

/-- Settles O55: a write goes to the register of its number, and a number of no writable register is illegal. -/
theorem regWrWrites : Obligations.RegWrWrites := by
  intro regno wd s hf
  have hle : ∀ k ∈ [2, 3, 4, 9, 10, 11], k ≤ 0x0D := by decide
  refine ⟨fun n hreg hnum => ?_, fun hnum => exists_regOf (hle _ hnum), fun hnum => ?_⟩
  · rw [regOf_eq_some_iff.1 hreg] at hnum ⊢
    have hn := (writable_iff n).2 hnum
    have haxis := isAxisOperand_iff hn
    refine ⟨_, exec_regWr_writable hf hreg hn, get_hostWrite_same _ _ hn, inOrder_hostWrite _ _ hn,
      fun h => hostWrite_axisOperand _ (haxis.2 h), fun m hm hkeep => ?_, rfl, fun _ => rfl, ⟨rfl, rfl⟩,
      ⟨rfl, rfl, rfl, rfl⟩, rfl⟩
    exact get_hostWrite_other _ hm fun h => hkeep.resolve_right (not_lt.2 (haxis.1 h))
  · refine ⟨_, exec_regWr_illegal hf fun n hreg => ?_, onlyRaised_raise ..⟩
    rw [regOf_eq_some_iff.1 hreg, ← writable_iff] at hnum
    simpa using hnum

/-- Settles O56: a read answers the register of its number, which is its place in the table. -/
theorem regRdReads : Obligations.RegRdReads := by
  intro regno s
  refine ⟨fun v hv => ?_, by decide, fun n hreg => exec_regRd hreg, exists_regOf, fun hnum hf => ?_⟩
  · have hlt : regno.toNat < s.regs.inOrder.length := (List.getElem?_eq_some_iff.1 hv).1
    obtain ⟨n, hreg⟩ := exists_regOf (Nat.lt_succ_iff.1 hlt)
    have hget : s.regs.inOrder[regno.toNat]? = some v := hv
    rw [regOf_eq_some_iff.1 hreg, getElem?_inOrder] at hget
    rw [exec_regRd hreg, Option.some.inj hget]
  · have hreg : regOf regno = none := Option.eq_none_iff_forall_ne_some.2 fun n hn => by
      have := regOf_eq_some_iff.1 hn
      have := number_le n
      omega
    exact ⟨_, exec_regRd_illegal hf hreg, onlyRaised_raise ..⟩

end Sys2Proof.Proofs
end

section
/-! PROOFS. The decoder and the encoder: which words decode, and to what (spec 30_encoding R80, R81, R83, R86, R87). -/

namespace Sys2Proof.Proofs

open Sys2Proof Sys2Proof.Machine

/-! ### Decoding a command's own word -/

/-- The data word a command carries: only `BUF.WR` and `REG.WR` read one (R80). -/
def dataOf : Instr → Option Word
  | .bufWr _ wd => some wd
  | .regWr _ wd => some wd
  | .lpfNew .. | .hpfNew .. | .teeNew .. | .dilNew .. | .ilvNew .. | .ilvBind .. | .next _ | .spaRun | .spaNext
  | .axisNew | .axisNext | .bufRd _ | .regRd _ | .reset => none

/-- The data word a command carries is the one its encoding has. -/
theorem encode_data {i : Instr} {d : Word} (h : d ∈ dataOf i) : (encode i).2 = d := by
  cases i <;> cases h <;> rfl

theorem whenZero_eq_ok {name : String} {zero : Bool} {i j : Instr} :
    whenZero name zero i = .ok j ↔ zero = true ∧ i = j := by
  unfold whenZero
  cases zero <;> simp

/-- A command's own word decodes to it, with the data word it carries. -/
theorem decode_cwOf {i : Instr} {wd : Word} (h : ∀ d ∈ dataOf i, d = wd) : decode (cwOf i) wd = .ok i := by
  cases i
  case bufWr addr d => simp [cwOf, encode, decode, cwOp_packA, cwAddr_packA, h d rfl]
  case bufRd => simp [cwOf, encode, decode, cwOp_packA, cwAddr_packA]
  case regWr regno d =>
    simp [cwOf, encode, decode, whenZero, cwOp_packN, cwNode_packN, cwAux_packN, cwSrc_packN, cwImm_packN, h d rfl]
  case spaRun | spaNext | axisNew | axisNext | reset => rfl
  all_goals
    simp [cwOf, encode, decode, whenZero, cwOp_packN, cwNode_packN, cwAux_packN, cwSrc_packN, cwImm_packN]

section
variable {cw : Word} {op : BitVec 8}

/-- A word with these fields is the packed word of formats N and S. -/
theorem packN_of_fields {node aux : BitVec 4} {src imm : BitVec 8} (hop : (cwOp cw).toNat = op.toNat)
    (hnode : cwNode cw = node) (haux : cwAux cw = aux) (hsrc : cwSrc cw = src) (himm : cwImm cw = imm) :
    packN op node aux src imm = cw :=
  (packN_eq_iff ..).2 ⟨(BitVec.eq_of_toNat_eq hop).symm, hnode.symm, haux.symm, hsrc.symm, himm.symm⟩

/-- A word with these fields is the packed word of formats A and Z. -/
theorem packA_of_fields {addr : Addr} (hop : (cwOp cw).toNat = op.toNat) (haddr : cwAddr cw = addr) :
    packA op addr = cw := by
  rw [← BitVec.eq_of_toNat_eq hop, ← haddr, packA_fields]

end

/-- A decoded command's own word is the word decoded: in each row, a field is an operand or was checked to be zero. -/
theorem cwOf_of_decode {cw wd : Word} {i : Instr} (h : decode cw wd = .ok i) :
    cwOf i = cw ∧ ∀ d ∈ dataOf i, d = wd := by
  unfold decode at h
  simp only at h
  split at h <;> simp only [whenZero_eq_ok, Except.ok.injEq, Bool.and_eq_true, beq_iff_eq, reduceCtorEq] at h
  next hop => obtain ⟨haux, rfl⟩ := h; exact ⟨packN_of_fields hop rfl haux rfl rfl, nofun⟩
  next hop => obtain ⟨haux, rfl⟩ := h; exact ⟨packN_of_fields hop rfl haux rfl rfl, nofun⟩
  next hop => obtain ⟨⟨haux, himm⟩, rfl⟩ := h; exact ⟨packN_of_fields hop rfl haux rfl himm, nofun⟩
  next hop => obtain ⟨haux, rfl⟩ := h; exact ⟨packN_of_fields hop rfl haux rfl rfl, nofun⟩
  next hop => obtain ⟨⟨haux, hsrc⟩, rfl⟩ := h; exact ⟨packN_of_fields hop rfl haux hsrc rfl, nofun⟩
  next hop => obtain ⟨himm, rfl⟩ := h; exact ⟨packN_of_fields hop rfl rfl rfl himm, nofun⟩
  next hop => obtain ⟨⟨⟨hnode, haux⟩, himm⟩, rfl⟩ := h; exact ⟨packN_of_fields hop hnode haux rfl himm, nofun⟩
  next hop => obtain ⟨haddr, rfl⟩ := h; exact ⟨packA_of_fields hop haddr, nofun⟩
  next hop => obtain ⟨haddr, rfl⟩ := h; exact ⟨packA_of_fields hop haddr, nofun⟩
  next hop => obtain ⟨haddr, rfl⟩ := h; exact ⟨packA_of_fields hop haddr, nofun⟩
  next hop => obtain ⟨haddr, rfl⟩ := h; exact ⟨packA_of_fields hop haddr, nofun⟩
  next hop => subst h; exact ⟨packA_of_fields hop rfl, fun d hd => (Option.some.inj hd).symm⟩
  next hop => subst h; exact ⟨packA_of_fields hop rfl, nofun⟩
  next hop =>
    obtain ⟨⟨⟨hnode, haux⟩, hsrc⟩, rfl⟩ := h
    exact ⟨packN_of_fields hop hnode haux hsrc rfl, fun d hd => (Option.some.inj hd).symm⟩
  next hop => obtain ⟨⟨⟨hnode, haux⟩, hsrc⟩, rfl⟩ := h; exact ⟨packN_of_fields hop hnode haux hsrc rfl, nofun⟩
  next hop => obtain ⟨haddr, rfl⟩ := h; exact ⟨packA_of_fields hop haddr, nofun⟩

/-- What the decoder does: the words that decode to a command are its own command word with the data word it carries, or
with any where it carries none. -/
theorem decode_eq_ok_iff {cw wd : Word} {i : Instr} :
    decode cw wd = .ok i ↔ cwOf i = cw ∧ ∀ d ∈ dataOf i, d = wd := by
  refine ⟨cwOf_of_decode, ?_⟩
  rintro ⟨rfl, hdata⟩
  exact decode_cwOf hdata

/-- Settles O1: the encoding has the command's own word and the data word it carries. -/
theorem decodeAfterEncode : Obligations.DecodeAfterEncode := fun _ =>
  decode_cwOf fun _ hd => (encode_data hd).symm

/-- Settles O2: the data word is that of the encoding where the command carries one, and does not matter otherwise. -/
theorem encodeAfterDecode : Obligations.EncodeAfterDecode := by
  intro cw wd i h
  obtain ⟨hcw, hdata⟩ := decode_eq_ok_iff.1 h
  refine ⟨hcw, ?_⟩
  cases hi : dataOf i with
  | some d => exact .inl ((encode_data hi).trans (hdata d hi))
  | none => exact .inr fun wd' => decode_eq_ok_iff.2 ⟨hcw, by simp [hi]⟩

/-- Settles O4: each word is a closed term, and so is its decoding. -/
theorem specWordsDecode : Obligations.SpecWordsDecode := by
  unfold Obligations.SpecWordsDecode
  decide

/-! ### The printed opcode map -/

/-- The command word of every command matches its row (R83, R86). -/
theorem cwOf_matches (i : Instr) : ∃ r ∈ opcodeMap, r.mnemonic = i.mnemonic ∧ r.matches (cwOf i) = true := by
  cases i with
  | lpfNew => exact Laws.EncodeMatchesRow.lpfNew ..
  | hpfNew => exact Laws.EncodeMatchesRow.hpfNew ..
  | teeNew => exact Laws.EncodeMatchesRow.teeNew ..
  | dilNew => exact Laws.EncodeMatchesRow.dilNew ..
  | ilvNew => exact Laws.EncodeMatchesRow.ilvNew ..
  | ilvBind => exact Laws.EncodeMatchesRow.ilvBind ..
  | next => exact Laws.EncodeMatchesRow.next ..
  | spaRun => exact Laws.EncodeMatchesRow.spaRun
  | spaNext => exact Laws.EncodeMatchesRow.spaNext
  | axisNew => exact Laws.EncodeMatchesRow.axisNew
  | axisNext => exact Laws.EncodeMatchesRow.axisNext
  | bufWr => exact Laws.EncodeMatchesRow.bufWr ..
  | bufRd => exact Laws.EncodeMatchesRow.bufRd ..
  | regWr => exact Laws.EncodeMatchesRow.regWr ..
  | regRd => exact Laws.EncodeMatchesRow.regRd ..
  | reset => exact Laws.EncodeMatchesRow.reset

/-- A word matches a row exactly when each field does. -/
theorem matches_iff_fields (r : Row) (cw : Word) : r.matches cw = true ↔
    cwOp cw &&& cwOp r.mask = cwOp r.value ∧ cwNode cw &&& cwNode r.mask = cwNode r.value ∧
      cwAux cw &&& cwAux r.mask = cwAux r.value ∧ cwSrc cw &&& cwSrc r.mask = cwSrc r.value ∧
        cwImm cw &&& cwImm r.mask = cwImm r.value := by
  rw [← matches_packN, packN_fields]

/-- A field that is masked whole is the one the row gives. -/
theorem eq_of_masked {n : Nat} {x m v : BitVec n} (h : x &&& m = v) (hm : m = BitVec.allOnes n) : x = v := by
  rwa [hm, BitVec.and_allOnes] at h

theorem cwOp_mask_of_mem : ∀ r ∈ opcodeMap, cwOp r.mask = BitVec.allOnes 8 := by decide

/-- No two rows have one opcode. -/
theorem row_eq_of_cwOp_value : ∀ r ∈ opcodeMap, ∀ q ∈ opcodeMap, cwOp r.value = cwOp q.value → r = q := by decide

theorem cwOp_of_matches {r : Row} {cw : Word} (hr : r ∈ opcodeMap) (h : r.matches cw = true) :
    cwOp cw = cwOp r.value :=
  eq_of_masked ((matches_iff_fields r cw).1 h).1 (cwOp_mask_of_mem r hr)

/-- A word that matches a row is the word of a command: the row masks the fields for which the command has no operand, and
a row that masks the whole word has one word only. -/
theorem exists_cwOf_of_matches {r : Row} {cw : Word} (wd : Word) (hr : r ∈ opcodeMap) (h : r.matches cw = true) :
    ∃ i, cwOf i = cw ∧ ∀ d ∈ dataOf i, d = wd := by
  have hop := congrArg BitVec.toNat (cwOp_of_matches hr h)
  have hword : cw &&& r.mask = r.value := beq_iff_eq.1 h
  obtain ⟨-, hnode, haux, hsrc, himm⟩ := (matches_iff_fields r cw).1 h
  simp only [opcodeMap, List.cons_append, List.nil_append, List.mem_cons, List.not_mem_nil, or_false] at hr
  obtain rfl | rfl | rfl | rfl | rfl | rfl | rfl | rfl | rfl | rfl | rfl | rfl | rfl | rfl | rfl | rfl := hr
  · exact ⟨.lpfNew _ _ _, packN_of_fields hop rfl (eq_of_masked haux rfl) rfl rfl, nofun⟩
  · exact ⟨.hpfNew _ _ _, packN_of_fields hop rfl (eq_of_masked haux rfl) rfl rfl, nofun⟩
  · exact ⟨.teeNew _ _, packN_of_fields hop rfl (eq_of_masked haux rfl) rfl (eq_of_masked himm rfl), nofun⟩
  · exact ⟨.dilNew _ _ _, packN_of_fields hop rfl (eq_of_masked haux rfl) rfl rfl, nofun⟩
  · exact ⟨.ilvNew _ _, packN_of_fields hop rfl (eq_of_masked haux rfl) (eq_of_masked hsrc rfl) rfl, nofun⟩
  · exact ⟨.ilvBind _ _ _, packN_of_fields hop rfl rfl rfl (eq_of_masked himm rfl), nofun⟩
  · exact ⟨.next _, packN_of_fields hop (eq_of_masked hnode rfl) (eq_of_masked haux rfl) rfl (eq_of_masked himm rfl),
      nofun⟩
  · exact ⟨.spaRun, (eq_of_masked hword rfl).symm, nofun⟩
  · exact ⟨.spaNext, (eq_of_masked hword rfl).symm, nofun⟩
  · exact ⟨.axisNew, (eq_of_masked hword rfl).symm, nofun⟩
  · exact ⟨.axisNext, (eq_of_masked hword rfl).symm, nofun⟩
  · exact ⟨.bufWr _ wd, packA_of_fields hop rfl, fun d hd => (Option.some.inj hd).symm⟩
  · exact ⟨.bufRd _, packA_of_fields hop rfl, nofun⟩
  · exact ⟨.regWr _ wd, packN_of_fields hop (eq_of_masked hnode rfl) (eq_of_masked haux rfl) (eq_of_masked hsrc rfl)
      rfl, fun d hd => (Option.some.inj hd).symm⟩
  · exact ⟨.regRd _, packN_of_fields hop (eq_of_masked hnode rfl) (eq_of_masked haux rfl) (eq_of_masked hsrc rfl) rfl,
      nofun⟩
  · exact ⟨.reset, (eq_of_masked hword rfl).symm, nofun⟩

/-- Settles O3: a decoded word is a command's, which matches the row of its mnemonic; a word that matches a row is a
command's, which decodes; and the opcode of a word tells the row. -/
theorem decodeAgreesWithOpcodeMap : Obligations.DecodeAgreesWithOpcodeMap := by
  have hrow : ∀ (cw wd : Word) (i : Instr), decode cw wd = .ok i →
      ∃ r ∈ opcodeMap, r.matches cw = true ∧ r.mnemonic = i.mnemonic := by
    intro cw wd i hi
    obtain ⟨rfl, -⟩ := decode_eq_ok_iff.1 hi
    obtain ⟨r, hr, hname, hmatch⟩ := cwOf_matches i
    exact ⟨r, hr, hmatch, hname⟩
  refine ⟨fun cw wd => ⟨?_, ?_⟩, hrow, fun cw r hr q hq hrm hqm => ?_⟩
  · rintro ⟨i, hi⟩
    obtain ⟨r, hr, hmatch, -⟩ := hrow cw wd i hi
    exact ⟨r, hr, hmatch⟩
  · rintro ⟨r, hr, hmatch⟩
    exact (exists_cwOf_of_matches wd hr hmatch).imp fun _ => decode_eq_ok_iff.2
  · exact row_eq_of_cwOp_value r hr q hq ((cwOp_of_matches hr hrm).symm.trans (cwOp_of_matches hq hqm))

end Sys2Proof.Proofs
end

section
/-! PROOFS. Words that match no row, and streams that `NEXT` rejects (spec 30_encoding R83, R84, R87; 40_stream_tee
R104; 60_exceptions R247). -/

namespace Sys2Proof.Proofs

open Sys2Proof Sys2Proof.Machine

/-! ### Stream ids -/

theorem sidIsPort_eq (sid : Sid) : sidIsPort sid = decide (0x80 ≤ sid.toNat) :=
  (BitVec.msb_eq_getLsbD_last sid).symm.trans (BitVec.msb_eq_decide sid)

theorem sidPort_val (sid : Sid) : (sidPort sid).val = sid.toNat % 8 := by
  simp [sidPort]

theorem sidSlot_val (sid : Sid) : (sidSlot sid).val = sid.toNat / 8 % 16 := by
  simp [sidSlot, Nat.shiftRight_eq_div_pow]

theorem sidFormed_eq (sid : Sid) : sidFormed sid = decide (sid.toNat < 0x88) := by
  have hlt := sid.isLt
  rw [sidFormed, sidIsPort_eq, Bool.eq_iff_iff]
  simp only [Bool.or_eq_true, Bool.not_eq_true', beq_iff_eq, decide_eq_true_eq, decide_eq_false_iff_not, Fin.ext_iff,
    sidSlot_val, Fin.val_zero]
  omega

/-- `NEXT` of a stream id that is not well formed or not live raises `CFG_BIND`. -/
theorem exec_next_of_unusable {sid : Sid} {s : State} (hf : s.faulted = false)
    (hbad : sidFormed sid = false ∨ s.streams.live sid = false) :
    exec (.next sid) s = .next (s.raise .cfgBind (cwOf (.next sid))) := by
  have hcond : (sidFormed sid && s.streams.live sid) = false := Bool.and_eq_false_iff.2 hbad
  simp only [exec, execNext, accept_of_normal _ hf, hcond, fail_eq, Bool.false_eq_true, if_false]

/-- Settles O23: the fields of a stream id as quotients and remainders of its number; the check before the pull. -/
theorem nextBadStreamFaults : Obligations.NextBadStreamFaults := by
  refine ⟨fun sid => ⟨sidFormed_eq sid, sidIsPort_eq sid, sidPort_val sid, fun h => ?_⟩, fun sid s hf hbad => ?_⟩
  · rw [sidSlot_val]
    omega
  · exact ⟨_, exec_next_of_unusable hf hbad, onlyRaised_raise ..⟩

/-! ### A word that matches no row -/

theorem transact_of_illegal {cw wd : Word} (h : ∀ i, decode cw wd ≠ .ok i) (s : State) :
    transact cw wd s = s.accept fun s => .next (s.raise .illegalCmd cw) := by
  unfold transact
  cases hd : decode cw wd with
  | ok i => exact absurd hd (h i)
  | error => rfl

/-- Settles O6: serving a word that does not decode raises the fault, unless the fault state refuses it. -/
theorem illegalWordFaults : Obligations.IllegalWordFaults := by
  intro s cw wd rest hport hillegal
  rw [step_command hport, transact_of_illegal hillegal]
  exact ⟨fun hf => ⟨_, accept_of_normal _ hf, onlyRaised_raise ..⟩, fun hf => accept_of_faulted _ hf⟩

end Sys2Proof.Proofs
end

section
/-! PROOFS. Every run from a state with the invariant goes on, but for reads of unwritten words (spec 30_encoding R91;
40_stream_tee R100; 70_reset_and_hazards R276). -/

namespace Sys2Proof.Proofs

open Sys2Proof Sys2Proof.Machine

/-- A command or a step goes on to a next state, or stops at a buffer word that nothing has written (R276). -/
def GoesOn (o : Host.Outcome State Fault Refusal) : Prop :=
  (∃ t, o = .next t) ∨ ∃ a, o = .fault (.unwrittenBufWord a)

@[simp] theorem goesOn_next (t : State) : GoesOn (.next t) := .inl ⟨t, rfl⟩

theorem goesOn_fail (s : State) (e : Cause) (i : Instr) : GoesOn (s.fail e i) := goesOn_next _

@[simp] theorem goesOn_unwritten (a : Nat) : GoesOn (.fault (.unwrittenBufWord a)) := .inr ⟨a, rfl⟩

/-- A command goes on if its rule does when it runs. -/
theorem goesOn_accept {s : State} {run : State → Host.Outcome State Fault Refusal} (h : GoesOn (run s)) :
    GoesOn (s.accept run) := by
  unfold State.accept
  split
  next => exact goesOn_next _
  next => exact h

section
variable {s : State}

theorem goesOn_newFilter (mk : FilterNode → Node) (i : Instr) (node : BitVec 4) (src : Sid) (imm : BitVec 8) :
    GoesOn (newFilter mk i node src imm s) := by
  unfold newFilter
  split
  · simp
  · split <;> simp

theorem goesOn_teeNew (node : BitVec 4) (src : Sid) : GoesOn (execTeeNew node src s) := by
  refine goesOn_accept ?_
  split <;> simp

theorem goesOn_dilNew (node : BitVec 4) (src : Sid) (imm : BitVec 8) : GoesOn (execDilNew node src imm s) := by
  refine goesOn_accept ?_
  split
  · simp
  · split <;> simp

theorem goesOn_ilvNew (node : BitVec 4) (imm : BitVec 8) : GoesOn (execIlvNew node imm s) := by
  refine goesOn_accept ?_
  split
  · simp
  · split <;> simp

theorem goesOn_ilvBind (node aux : BitVec 4) (src : Sid) : GoesOn (execIlvBind node aux src s) := by
  refine goesOn_accept ?_
  split
  next =>
    split
    · simp
    · split <;> simp
  all_goals simp

/-- In a table in order a `NEXT` meets no dead source: its pull is safe (R91, R100). -/
theorem goesOn_execNext (h : GraphInv s) (sid : Sid) : GoesOn (execNext sid s) := by
  refine goesOn_accept ?_
  split
  next hsid =>
    have hsafe := pull_safe h (Bool.and_eq_true_iff.1 hsid).2
    cases hpull : pull s.params.qdepth sid s.streams <;> rw [hpull] at hsafe
    case answer => exact goesOn_next _
    case overflow => exact goesOn_fail ..
    case dead => exact hsafe.elim
  next => exact goesOn_fail ..

/-- `SPA.RUN` stops only where a window has an unwritten word (R276). -/
theorem goesOn_spaRun : GoesOn (execSpaRun s) := by
  refine goesOn_accept ?_
  simp only
  split
  · simp
  · split
    · simp
    · split
      · simp
      · split <;> simp

theorem goesOn_spaNext : GoesOn (execSpaNext s) := by
  refine goesOn_accept ?_
  split <;> simp

theorem goesOn_axisNew : GoesOn (execAxisNew s) := by
  refine goesOn_accept ?_
  simp only
  split
  · simp
  · split <;> simp

theorem goesOn_axisNext : GoesOn (execAxisNext s) := by
  refine goesOn_accept ?_
  simp only
  split
  · simp
  · split <;> simp

theorem goesOn_bufWr (addr : Addr) (wd : Word) : GoesOn (execBufWr addr wd s) := by
  refine goesOn_accept ?_
  exact goesOn_next _

/-- `BUF.RD` stops only at an unwritten word (R276). -/
theorem goesOn_bufRd (addr : Addr) : GoesOn (execBufRd addr s) := by
  refine goesOn_accept ?_
  split
  · simp
  · split <;> simp

theorem goesOn_regWr (regno : BitVec 8) (wd : Word) : GoesOn (execRegWr regno wd s) := by
  refine goesOn_accept ?_
  split
  · simp
  · split <;> simp

theorem goesOn_regRd (regno : BitVec 8) : GoesOn (execRegRd regno s) := by
  unfold execRegRd
  split
  · exact goesOn_accept (goesOn_fail ..)
  · simp

/-- With the node table in order every command goes on. -/
theorem goesOn_exec (h : GraphInv s) (i : Instr) : GoesOn (exec i s) := by
  cases i with
  | lpfNew => exact goesOn_accept (goesOn_newFilter ..)
  | hpfNew => exact goesOn_accept (goesOn_newFilter ..)
  | teeNew => exact goesOn_teeNew ..
  | dilNew => exact goesOn_dilNew ..
  | ilvNew => exact goesOn_ilvNew ..
  | ilvBind => exact goesOn_ilvBind ..
  | next => exact goesOn_execNext h _
  | spaRun => exact goesOn_spaRun
  | spaNext => exact goesOn_spaNext
  | axisNew => exact goesOn_axisNew
  | axisNext => exact goesOn_axisNext
  | bufWr => exact goesOn_bufWr ..
  | bufRd => exact goesOn_bufRd _
  | regWr => exact goesOn_regWr ..
  | regRd => exact goesOn_regRd _
  | reset => exact goesOn_next _

/-- With the node table in order the step goes on. -/
theorem goesOn_step (h : GraphInv s) : GoesOn (step s) := by
  obtain ⟨-, hstep⟩ | ⟨rest, -, hstep⟩ | ⟨cw, wd, rest, i, -, -, hstep⟩ | ⟨cw, wd, rest, e, -, -, hstep⟩ :=
    step_cases s <;> rw [hstep]
  · exact goesOn_next _
  · exact goesOn_next _
  · exact goesOn_exec (s := { s with port := rest }) h i
  · exact goesOn_next _

/-- The step keeps the whole invariant. -/
theorem inv_step {t : State} (h : Inv s) (hstep : step s = .next t) : Inv t := by
  obtain ⟨hgraph, hbuf, hstatus, haxis, hcount, hvalue⟩ := h
  exact ⟨stepKeepsGraphInvariant s t hgraph hstep, stepKeepsBufferInvariant s t hbuf hstep,
    stepKeepsRegisterInvariant s t hbuf hstatus haxis hcount hvalue hstep⟩

end

section
variable {M : Host.Core} {s : M.State}

/-- A run whose first step goes on is the rest of the run. -/
theorem run_succ_of_next {t : M.State} (k : Nat) (h : M.step s = .next t) : M.run (k + 1) s = M.run k t := by
  simp only [Host.Core.run, h]

/-- A run whose first step stops is stopped. -/
theorem run_succ_of_fault {r : M.Fault} (k : Nat) (h : M.step s = .fault r) : M.run (k + 1) s = .fault r := by
  simp only [Host.Core.run, h]

end

/-- Settles O60, by induction on the length of the run: a step goes on with the invariant, or stops at an
unwritten word. -/
theorem everyRunIsSafe : Obligations.EveryRunIsSafe := by
  intro k
  induction k with
  | zero => exact fun s _ => .inl ⟨s, rfl⟩
  | succ k ih =>
    intro s hinv
    obtain ⟨t, hstep⟩ | ⟨a, hstep⟩ := goesOn_step hinv.1
    · have hrun : runFrom (k + 1) s = runFrom k t := run_succ_of_next (M := core) k hstep
      rw [SafeRun, hrun]
      exact ih t (inv_step hinv hstep)
    · exact .inr ⟨a, run_succ_of_fault (M := core) k hstep⟩

end Sys2Proof.Proofs
end

section
/-! PROOFS. `NEXT` by what its pull answers, the stream ids of ports and nodes, and the pull of an external port (spec 10_state
R28, R30; 30_encoding R84; 40_stream_tee R101, R102, R104). -/

namespace Sys2Proof.Proofs

open Sys2Proof Sys2Proof.Machine Sys2Proof.Config

/-! ### The stream ids of ports and nodes -/

theorem formed_portSid : ∀ p : Fin 8, sidFormed (portSid p) = true := by decide
theorem isPort_portSid : ∀ p : Fin 8, sidIsPort (portSid p) = true := by decide
theorem port_portSid : ∀ p : Fin 8, sidPort (portSid p) = p := by decide

theorem formed_nodeSid : ∀ (n : Fin 16) (c : Fin 8), sidFormed (nodeSid n c) = true := by decide
theorem isPort_nodeSid : ∀ (n : Fin 16) (c : Fin 8), sidIsPort (nodeSid n c) = false := by decide
theorem slot_nodeSid : ∀ (n : Fin 16) (c : Fin 8), sidSlot (nodeSid n c) = n := by decide
theorem port_nodeSid : ∀ (n : Fin 16) (c : Fin 8), sidPort (nodeSid n c) = c := by decide

theorem live_portSid (g : Streams) (p : Fin 8) : g.live (portSid p) = true := by
  rw [live_eq, isPort_portSid, Bool.true_or]

theorem live_nodeSid (g : Streams) (n : Fin 16) (c : Fin 8) : g.live (nodeSid n c) = delivers (g.node n) c := by
  rw [live_eq, isPort_nodeSid, slot_nodeSid, port_nodeSid, Bool.false_or]

/-- A pull of a port, with any fuel left. -/
theorem pullWithin_portSid (depth : QueueDepth) (fuel : Nat) (p : Fin 8) (g : Streams) :
    pullWithin depth (fuel + 1) (portSid p) g = xpull p g := by
  rw [pullWithin_port depth fuel g (isPort_portSid p), port_portSid]

theorem pull_portSid (depth : QueueDepth) (p : Fin 8) (g : Streams) : pull depth (portSid p) g = xpull p g :=
  pullWithin_portSid depth 16 p g

theorem pull_nodeSid (depth : QueueDepth) (n : Fin 16) (c : Fin 8) (g : Streams) :
    pull depth (nodeSid n c) g = pullNode depth (pullWithin depth 16) n c g := by
  rw [pull, pullWithin_node depth 16 g (isPort_nodeSid n c), slot_nodeSid, port_nodeSid]

/-! ### A port the environment is asked on -/

section
variable (g : Streams) {p q : Fin 8}

theorem asked_xs_same : (g.asked p).xs[p] = g.xs[p].advance := by simp [Streams.asked]
theorem asked_xeos_same : (g.asked p).xeos[p] = (g.xs[p].answer p).isNone := by simp [Streams.asked]

/-- Asking on one port leaves the others alone. -/
theorem asked_other (h : q ≠ p) : (g.asked p).xeos[q] = g.xeos[q] ∧ (g.asked p).xs[q] = g.xs[q] := by
  have hval : p.val ≠ q.val := fun e => h (Fin.ext e.symm)
  simp [Streams.asked, hval]

end

/-! ### What a `NEXT` answers with -/

/-- The state after a `NEXT` whose pull answered `r` and left the streams `g` (R104). -/
def afterAnswer (s : State) (r : Option Int) (g : Streams) : State :=
  (s.setStreams g).respond (if r.isSome then .ok else .ended) (r.elim 0 to32)

/-- The state after a `NEXT` of `sid` whose pull found a queue full and left the streams `g` (R246). -/
def afterOverflow (s : State) (sid : Sid) (g : Streams) : State := (s.setStreams g).raise .queueOvf (cwOf (.next sid))

section
variable {sid : Sid} {s : State} {r : Option Int} {g : Streams}

theorem exec_next_of_answer (hf : s.faulted = false) (hformed : sidFormed sid = true) (hlive : s.streams.live sid = true)
    (hpull : pull s.params.qdepth sid s.streams = .answer r g) :
    exec (.next sid) s = .next (afterAnswer s r g) := by
  rw [exec_next_eq hf hformed hlive, hpull]
  rfl

theorem exec_next_of_overflow (hf : s.faulted = false) (hformed : sidFormed sid = true)
    (hlive : s.streams.live sid = true) (hpull : pull s.params.qdepth sid s.streams = .overflow g) :
    exec (.next sid) s = .next (afterOverflow s sid g) := by
  rw [exec_next_eq hf hformed hlive, hpull]
  rfl

/-- A `NEXT` that answered `OK` or `END` named a usable stream, and its pull answered. -/
theorem exec_next_answered {t : State} {st : RespStatus} {rd : Word} (hf : s.faulted = false)
    (h : exec (.next sid) s = .next t) (hans : Answered t st rd) (hst : st ≠ .fault) :
    sidFormed sid = true ∧ s.streams.live sid = true ∧
      ∃ r g, pull s.params.qdepth sid s.streams = .answer r g ∧ t = afterAnswer s r g := by
  by_cases husable : sidFormed sid = true ∧ s.streams.live sid = true
  · obtain ⟨hformed, hlive⟩ := husable
    rw [exec_next_eq hf hformed hlive] at h
    obtain ⟨r, g, hpull, rfl⟩ | ⟨g, -, rfl⟩ := finishNext_next h
    · exact ⟨hformed, hlive, r, g, hpull, rfl⟩
    · cases hans
      exact absurd rfl hst
  · rw [exec_next_of_unusable hf (by simpa [imp_iff_not_or] using husable)] at h
    cases h
    cases hans
    exact absurd rfl hst

/-- A `NEXT` that answered `OK` delivered the element its pull answered. -/
theorem exec_next_ok {t : State} {rd : Word} (hf : s.faulted = false) (h : exec (.next sid) s = .next t)
    (hans : Answered t .ok rd) :
    ∃ v g, pull s.params.qdepth sid s.streams = .answer (some v) g ∧ t = afterAnswer s (some v) g ∧ rd = to32 v := by
  obtain ⟨-, -, r, g, hpull, rfl⟩ := exec_next_answered hf h hans (by decide)
  cases r with
  | none => cases hans
  | some v => cases hans; exact ⟨v, g, hpull, rfl, rfl⟩

/-- A `NEXT` that answered `END` named a usable stream whose pull answered `None`. -/
theorem exec_next_ended {t : State} {rd : Word} (hf : s.faulted = false) (h : exec (.next sid) s = .next t)
    (hans : Answered t .ended rd) :
    sidFormed sid = true ∧ s.streams.live sid = true ∧
      ∃ g, pull s.params.qdepth sid s.streams = .answer none g ∧ t = afterAnswer s none g := by
  obtain ⟨hformed, hlive, r, g, hpull, rfl⟩ := exec_next_answered hf h hans (by decide)
  cases r with
  | none => exact ⟨hformed, hlive, g, hpull, rfl⟩
  | some v => cases hans

end

/-- A stream element is what its word reads as (R6, R28). -/
theorem toInt_to32 {v : Int} (h : IsElement v) : (to32 v).toInt = v := by
  obtain ⟨hlo, hhi⟩ := h
  simp only [smax] at hlo hhi
  exact BitVec.toInt_ofInt_eq_self (by decide) (by norm_num; omega) (by norm_num; omega)

/-- Collecting from a stream whose pull answers: the answer comes first, and the rest from the state after it. -/
theorem collect_cons {sid : Sid} {rest : List Sid} {s : State} {r : Option Int} {g : Streams} (hf : s.faulted = false)
    (hformed : sidFormed sid = true) (hlive : s.streams.live sid = true)
    (hpull : pull s.params.qdepth sid s.streams = .answer r g) (hr : ∀ v, r = some v → IsElement v) :
    collect (sid :: rest) s = (collect rest (afterAnswer s r g)).map fun o => (r :: o.1, o.2) := by
  simp only [collect, exec_next_of_answer hf hformed hlive hpull]
  cases r with
  | none => rfl
  | some v =>
    have hrd : (to32 v).toInt = v := toInt_to32 (hr v rfl)
    simp [afterAnswer, hrd]

/-! ### `NEXT` of an external port -/

/-- An answer changes the streams only, to those its pull left. -/
theorem afterAnswer_frame (s : State) (r : Option Int) (g : Streams) :
    (afterAnswer s r g).regs = s.regs ∧ KeepsBuf s (afterAnswer s r g) ∧ KeepsPoints s (afterAnswer s r g) ∧
      KeepsOutside s (afterAnswer s r g) :=
  ⟨rfl, fun _ => rfl, ⟨rfl, rfl⟩, rfl, rfl, rfl, rfl⟩

theorem exec_next_portSid {s : State} {p : Fin 8} {r : Option Int} {g : Streams} (hf : s.faulted = false)
    (hpull : xpull p s.streams = .answer r g) : exec (.next (portSid p)) s = .next (afterAnswer s r g) :=
  exec_next_of_answer hf (formed_portSid p) (live_portSid _ p) ((pull_portSid ..).trans hpull)

/-- Settles O22: the pull of the port asks once unless the latch is set, and what it answers ends the `NEXT`. -/
theorem nextOnExternalPort : Obligations.NextOnExternalPort := by
  intro p s hf
  cases hl : s.streams.xeos[p] with
  | true =>
    obtain ⟨hregs, hbuf, hpts, hout⟩ := afterAnswer_frame s none s.streams
    exact ⟨_, exec_next_portSid hf (xpull_latched hl), fun _ => rfl, fun _ _ => ⟨rfl, rfl⟩, hregs, hbuf, hpts, hout,
      fun _ => ⟨rfl, rfl⟩, (nomatch ·)⟩
  | false =>
    obtain ⟨hregs, hbuf, hpts, hout⟩ := afterAnswer_frame s
      ((s.streams.xs[p].answer p).map fun d => sat24 (sext32 d)) (s.streams.asked p)
    refine ⟨_, exec_next_portSid hf (xpull_open hl), fun _ => rfl, fun _ hq => asked_other _ hq, hregs, hbuf, hpts, hout,
      (nomatch ·), fun _ => ⟨asked_xs_same _, ?_⟩⟩
    have hxeos : (s.streams.asked p).xeos[p] = (s.streams.xs[p].answer p).isNone := asked_xeos_same _
    cases ha : s.streams.xs[p].answer p with
    | some d => exact .inl ⟨d, rfl, by rw [ha] at hxeos; exact hxeos, rfl⟩
    | none => exact .inr ⟨rfl, by rw [ha] at hxeos; exact hxeos, rfl⟩

end Sys2Proof.Proofs
end

section
/-! PROOFS. The node commands that fault (spec 40_stream_tee R100, R105; 41_lowpass R122; 42_highpass R140; 43_interleave R150,
R154, R155; 60_exceptions R244). -/

namespace Sys2Proof.Proofs

open Sys2Proof Sys2Proof.Machine

/-! ### Checks that fail -/

section
variable {node aux : BitVec 4} {src : Sid} {imm : BitVec 8} {s : State}

/-- A source that is ill formed, a node not below the slot, or not live, fails the source check. -/
theorem checkSrc_of_unusable (h : sidFormed src = false ∨ (sidIsPort src = false ∧ node.toNat ≤ (sidSlot src).val) ∨
    s.streams.live src = false) : s.streams.checkSrc (slotOf node) src = false := by
  refine Bool.eq_false_iff.2 fun hcheck => ?_
  obtain ⟨hformed, hlow, hlive⟩ := (checkSrc_iff ..).1 hcheck
  obtain hbad | ⟨hnode, hhigh⟩ | hbad := h
  · simp [hformed] at hbad
  · exact absurd (hlow.resolve_left (by simp [hnode])) (not_lt.2 hhigh)
  · simp [hlive] at hbad

/-- `CheckNew` fails on a slot in use or with an unusable source. -/
theorem checkNew_of_unusable (h : s.streams.node (slotOf node) ≠ .free ∨ sidFormed src = false ∨
    (sidIsPort src = false ∧ node.toNat ≤ (sidSlot src).val) ∨ s.streams.live src = false) :
    s.streams.checkNew (slotOf node) src = false := by
  refine Bool.eq_false_iff.2 fun hcheck => ?_
  obtain ⟨hfree, hsrc⟩ := (checkNew_iff ..).1 hcheck
  obtain hused | hbad := h
  · exact hused hfree
  · simp [checkSrc_of_unusable hbad] at hsrc

/-- An input that does not exist or is bound cannot be bound. -/
theorem bind_eq_none {x : IlvNode}
    (h : x.c.val ≤ aux.toNat ∨ ∃ k : Fin 8, aux.toNat = k.val ∧ x.src[k] ≠ none) : x.bind aux src = none := by
  refine Option.eq_none_iff_forall_ne_some.2 fun y hy => ?_
  obtain ⟨hk, hkc, hfree, -⟩ := bind_eq_some hy
  obtain hc | ⟨k, hak, hbound⟩ := h
  · omega
  · simp only [hak] at hfree
    exact hbound hfree

/-! ### The commands -/

/-- A command that takes a fault raises it and does nothing else. -/
theorem raises_of_fail {i : Instr} {e : Cause} (h : exec i s = s.fail e i) :
    ∃ t, exec i s = .next t ∧ OnlyRaised e (cwOf i) s t := ⟨_, h, onlyRaised_raise ..⟩

theorem newFilter_of_width (mk : FilterNode → Node) (i : Instr) (h : imm.toNat = 0 ∨ 15 < imm.toNat) :
    newFilter mk i node src imm s = s.fail .cfgWidth i := by
  rw [newFilter, widthOf_eq_none (by omega)]

theorem newFilter_of_check (mk : FilterNode → Node) (i : Instr) (h1 : 1 ≤ imm.toNat) (h15 : imm.toNat ≤ 15)
    (hnew : s.streams.checkNew (slotOf node) src = false) :
    newFilter mk i node src imm s = s.fail .cfgBind i := by
  simp only [newFilter, widthOf_eq_some ⟨h1, h15⟩, hnew, Bool.false_eq_true, if_false]

variable (hf : s.faulted = false)
include hf

/-- Both filter commands run the creation they share. -/
theorem exec_filterNew : exec (.lpfNew node src imm) s = newFilter .lpf (.lpfNew node src imm) node src imm s ∧
    exec (.hpfNew node src imm) s = newFilter .hpf (.hpfNew node src imm) node src imm s :=
  ⟨accept_of_normal _ hf, accept_of_normal _ hf⟩

theorem exec_teeNew_of_check (hnew : s.streams.checkNew (slotOf node) src = false) :
    exec (.teeNew node src) s = s.fail .cfgBind (.teeNew node src) := by
  simp only [exec, execTeeNew, accept_of_normal _ hf, hnew, Bool.false_eq_true, if_false]

theorem exec_dilNew_of_channels (h : imm.toNat = 0 ∨ 8 < imm.toNat) :
    exec (.dilNew node src imm) s = s.fail .cfgChannels (.dilNew node src imm) := by
  have hc : channelsOf imm = none := channelsOf_eq_none (by omega)
  simp only [exec, execDilNew, accept_of_normal _ hf, hc]

theorem exec_dilNew_of_check (h1 : 1 ≤ imm.toNat) (h8 : imm.toNat ≤ 8)
    (hnew : s.streams.checkNew (slotOf node) src = false) :
    exec (.dilNew node src imm) s = s.fail .cfgBind (.dilNew node src imm) := by
  simp only [exec, execDilNew, accept_of_normal _ hf, channelsOf_eq_some ⟨h1, h8⟩, hnew, Bool.false_eq_true, if_false]

theorem exec_ilvNew_of_channels (h : imm.toNat = 0 ∨ 8 < imm.toNat) :
    exec (.ilvNew node imm) s = s.fail .cfgChannels (.ilvNew node imm) := by
  have hc : channelsOf imm = none := channelsOf_eq_none (by omega)
  simp only [exec, execIlvNew, accept_of_normal _ hf, hc]

theorem exec_ilvNew_of_used (h1 : 1 ≤ imm.toNat) (h8 : imm.toNat ≤ 8) (hused : s.streams.node (slotOf node) ≠ .free) :
    exec (.ilvNew node imm) s = s.fail .cfgBind (.ilvNew node imm) := by
  have hfree : (s.streams.node (slotOf node)).isFree = false := Bool.eq_false_iff.2 (mt (isFree_iff _).1 hused)
  simp only [exec, execIlvNew, accept_of_normal _ hf, channelsOf_eq_some ⟨h1, h8⟩, hfree, Bool.false_eq_true, if_false]

/-- `ILV.BIND` faults unless the slot holds an interleaver that takes the input and the source passes the check. -/
theorem exec_ilvBind_of_check (h : ∀ x, s.streams.node (slotOf node) = .ilv x →
    x.bind aux src = none ∨ s.streams.checkSrc (slotOf node) src = false) :
    exec (.ilvBind node aux src) s = s.fail .cfgBind (.ilvBind node aux src) := by
  simp only [exec, execIlvBind, accept_of_normal _ hf]
  split
  next x hx =>
    obtain hbind | hsrc := h x hx
    · rw [hbind]
    · cases x.bind aux src <;> simp [hsrc]
  all_goals rfl

end

/-- Settles O21: the checks in the order of the rules, each failing command by its own lemma. -/
theorem nodeCommandsFault : Obligations.NodeCommandsFault := by
  intro node aux src imm s hf
  have ⟨hlpf, hhpf⟩ := exec_filterNew (node := node) (src := src) (imm := imm) hf
  refine ⟨fun hw => ⟨raises_of_fail ?_, raises_of_fail ?_⟩,
    fun hc => ⟨raises_of_fail (exec_dilNew_of_channels hf hc), raises_of_fail (exec_ilvNew_of_channels hf hc)⟩,
    fun hbad => ?newNode,
    fun hused h1 h8 => raises_of_fail (exec_ilvNew_of_used hf h1 h8 hused),
    fun hbad => raises_of_fail (exec_ilvBind_of_check hf fun x hx => ?_)⟩
  · rw [hlpf, newFilter_of_width _ _ hw]
  · rw [hhpf, newFilter_of_width _ _ hw]
  case newNode =>
    have hnew := checkNew_of_unusable hbad
    refine ⟨fun h1 h15 => ⟨raises_of_fail ?_, raises_of_fail ?_⟩, raises_of_fail (exec_teeNew_of_check hf hnew),
      fun h1 h8 => raises_of_fail (exec_dilNew_of_check hf h1 h8 hnew)⟩
    · rw [hlpf, newFilter_of_check _ _ h1 h15 hnew]
    · rw [hhpf, newFilter_of_check _ _ h1 h15 hnew]
  · obtain hnone | ⟨y, hy, hinput⟩ | hsrc := hbad
    · exact absurd hx (hnone x)
    · cases hy.symm.trans hx
      exact .inl (bind_eq_none hinput)
    · exact .inr (checkSrc_of_unusable hsrc)

end Sys2Proof.Proofs
end

section
/-! PROOFS. An exhausted stream stays exhausted: what makes a stream answer `None`, and that neither pulls nor commands undo it
(spec 40_stream_tee R103; 43_interleave R151, R157). -/

namespace Sys2Proof.Proofs

open Sys2Proof Sys2Proof.Machine Sys2Proof.Config

/-! ### Exhausted streams -/

/-- A node that has met the end itself and has nothing left for port `c`: a deinterleaver or an interleaver with `DONE = 1`
and no backlog there. -/
def metEnd (c : Fin 8) : Node → Prop
  | .dil d => d.q[c] = [] ∧ d.done = true
  | .ilv x => x.fv = false ∧ x.done = true
  | .free | .lpf _ | .hpf _ | .tee _ => False

/-- The source whose `None` a pull of port `c` hands on: that of a filter, and that of a tee with no backlog on the side. -/
def handsOn (c : Fin 8) : Node → Option Sid
  | .lpf f => some f.src
  | .hpf f => some f.src
  | .tee t => if t.own c = [] then some t.src else none
  | .free | .dil _ | .ilv _ => none

/-- A stream that answers `None`, read off the streams without pulling (R102, R103). -/
inductive Exhausted (g : Streams) : Sid → Prop where
  /-- A port whose latch is set. -/
  | port (sid : Sid) : sidIsPort sid = true → g.xeos[sidPort sid] = true → Exhausted g sid
  /-- A node that has met the end. -/
  | ended (sid : Sid) : sidIsPort sid = false → metEnd (sidPort sid) (g.node (sidSlot sid)) → Exhausted g sid
  /-- A node that hands on the `None` of its exhausted source. -/
  | handed (sid src : Sid) : sidIsPort sid = false → handsOn (sidPort sid) (g.node (sidSlot sid)) = some src →
    Exhausted g src → Exhausted g sid

section
variable {depth : QueueDepth} {pull : Sid → Streams → Pulled} {n : Fin 16} {c : Fin 8} {g : Streams}

theorem pullDil_of_done {d : DilNode} (hq : d.q[c] = []) (hd : d.done = true) :
    pullDil depth pull n c d g = .answer none g := by
  simp only [pullDil, hq, hd, if_true]

theorem pullIlv_of_done {x : IlvNode} (hfv : x.fv = false) (hd : x.done = true) :
    pullIlv pull n x g = .answer none g := by
  simp only [pullIlv, hfv, hd, Bool.false_eq_true, if_false, if_true]

/-- A node that has met the end answers `None` and changes nothing. -/
theorem pullNode_of_metEnd (h : metEnd c (g.node n)) : pullNode depth pull n c g = .answer none g := by
  unfold pullNode
  cases hx : g.node n <;> rw [hx] at h
  case dil d => exact pullDil_of_done h.1 h.2
  case ilv x => exact pullIlv_of_done h.1 h.2
  all_goals exact h.elim

/-- A node hands on what its source answers, unless that is an element. -/
theorem pullNode_of_handsOn {src : Sid} (h : handsOn c (g.node n) = some src)
    (hsrc : ∀ v g', pull src g ≠ .answer (some v) g') : pullNode depth pull n c g = pull src g := by
  unfold pullNode
  cases hx : g.node n <;> rw [hx] at h <;> simp only [handsOn] at h
  case lpf f =>
    cases h
    obtain ⟨u, g', heq, -⟩ | ⟨-, hres⟩ := pullLpf_cases pull n f g
    · exact absurd heq (hsrc u g')
    · exact hres
  case hpf f =>
    cases h
    obtain ⟨u, g', heq, -⟩ | ⟨-, hres⟩ := pullHpf_cases pull n f g
    · exact absurd heq (hsrc u g')
    · exact hres
  case tee t =>
    obtain ⟨hown, rfl⟩ : t.own c = [] ∧ t.src = src := by simpa using h
    obtain ⟨v, rest, heq, -⟩ | ⟨-, v, g', heq, -⟩ | ⟨-, v, g', heq, -⟩ | ⟨-, -, hres⟩ :=
      pullTee_cases depth pull n c t g
    · simp [hown] at heq
    · exact absurd heq (hsrc v g')
    · exact absurd heq (hsrc v g')
    · exact hres
  all_goals cases h

/-- A deinterleaver that answers `None` has met the end, now or before. -/
theorem pullDil_none {d : DilNode} {g' : Streams} (hx : g.node n = .dil d)
    (h : pullDil depth pull n c d g = .answer none g') : metEnd c (g'.node n) := by
  unfold pullDil at h
  split at h
  next => cases h
  next hq =>
    split at h
    next hd => cases h; rw [hx]; exact ⟨hq, hd⟩
    next =>
      split at h
      next => cases h; simpa [metEnd] using hq
      next => cases h
      next => cases h
      next =>
        split at h
        next => cases h
        next => split at h <;> cases h

/-- An interleaver that answers `None` has met the end, now or before. -/
theorem pullIlv_none {x : IlvNode} {g' : Streams} (hx : g.node n = .ilv x) (h : pullIlv pull n x g = .answer none g') :
    metEnd c (g'.node n) := by
  unfold pullIlv at h
  split at h
  next => cases h
  next hfv =>
    split at h
    next hd => cases h; rw [hx]; exact ⟨by simpa using hfv, hd⟩
    next =>
      split at h
      next => cases h
      next =>
        split at h
        next => cases h; simpa [metEnd] using hfv
        next => cases h
        next => cases h
        next => cases h

/-- A node that answers `None` has now met the end, or handed on the `None` of its source. -/
theorem pullNode_none {g' : Streams} (h : pullNode depth pull n c g = .answer none g') :
    metEnd c (g'.node n) ∨ ∃ src, handsOn c (g.node n) = some src ∧ pull src g = .answer none g' := by
  unfold pullNode at h
  cases hx : g.node n <;> rw [hx] at h <;> simp only at h
  case free => cases h
  case lpf f =>
    obtain ⟨u, g'', -, hres⟩ | ⟨-, hres⟩ := pullLpf_cases pull n f g <;> rw [hres] at h
    · cases h
    · exact .inr ⟨f.src, rfl, h⟩
  case hpf f =>
    obtain ⟨u, g'', -, hres⟩ | ⟨-, hres⟩ := pullHpf_cases pull n f g <;> rw [hres] at h
    · cases h
    · exact .inr ⟨f.src, rfl, h⟩
  case tee t =>
    obtain ⟨v, rest, -, hres⟩ | ⟨-, v, g'', -, -, hres⟩ | ⟨-, v, g'', -, -, hres⟩ | ⟨hown, -, hres⟩ :=
      pullTee_cases depth pull n c t g <;> rw [hres] at h
    · cases h
    · cases h
    · cases h
    · exact .inr ⟨t.src, by simp [handsOn, hown], h⟩
  case dil d => exact .inl (pullDil_none hx h)
  case ilv x => exact .inl (pullIlv_none hx h)

end

/-- A pull of an exhausted stream answers `None` and changes nothing, unless the fuel runs out. -/
theorem pullWithin_of_exhausted {g : Streams} {sid : Sid} (h : Exhausted g sid) (depth : QueueDepth) (fuel : Nat) :
    pullWithin depth fuel sid g = .answer none g ∨ pullWithin depth fuel sid g = .dead := by
  induction h generalizing fuel <;> cases fuel
  case port.succ sid hport heos fuel =>
    rw [pullWithin_port depth fuel g hport]
    exact .inl (xpull_latched heos)
  case ended.succ sid hnode hl fuel =>
    rw [pullWithin_node depth fuel g hnode]
    exact .inl (pullNode_of_metEnd hl)
  case handed.succ sid src hnode hpass _ ih fuel =>
    rw [pullWithin_node depth fuel g hnode, pullNode_of_handsOn hpass]
    · exact ih fuel
    · intro v g' hv
      obtain hres | hres := ih fuel <;> simp [hv] at hres
  all_goals exact .inr rfl

/-! ### What no pull undoes -/

/-- What the node `y` keeps of the node `x` it was: it can deliver where it could, and is exhausted where it was, given the
streams that were exhausted. -/
structure StaysDry (ex : Sid → Prop) (x y : Node) : Prop where
  live : ∀ c, delivers x c = true → delivers y c = true
  ended : ∀ c, metEnd c x → metEnd c y
  handed : ∀ c src, handsOn c x = some src → ex src → handsOn c y = some src

theorem StaysDry.refl (ex : Sid → Prop) (x : Node) : StaysDry ex x x := ⟨fun _ h => h, fun _ h => h, fun _ _ h _ => h⟩

/-- A change of a node that keeps its wiring, where the node was not exhausted of its own. -/
theorem StaysDry.of_wiring {ex : Sid → Prop} {x y : Node} (h : wiring y = wiring x) (hl : ∀ c, ¬metEnd c x)
    (htee : ∀ t, x ≠ .tee t) : StaysDry ex x y where
  live c hc := by rwa [← delivers_wiring, h, delivers_wiring]
  ended c hc := absurd hc (hl c)
  handed c src hc _ := by
    cases x
    case tee t => exact absurd rfl (htee t)
    case lpf f => cases y <;> simp_all [wiring, handsOn]
    case hpf f => cases y <;> simp_all [wiring, handsOn]
    all_goals cases hc

/-- The streams `g'` come after `g`: nothing live has stopped being live, and nothing exhausted can deliver again. -/
structure Onward (g g' : Streams) : Prop where
  ports : ∀ p : Fin 8, g.xeos[p] = true → g'.xeos[p] = true
  nodes : ∀ n, StaysDry (Exhausted g) (g.node n) (g'.node n)

section
variable {g g' g'' : Streams}

theorem Onward.refl (g : Streams) : Onward g g := ⟨fun _ h => h, fun _ => .refl _ _⟩

/-- What was exhausted is exhausted. -/
theorem Onward.exhausted (h : Onward g g') {sid : Sid} (hs : Exhausted g sid) : Exhausted g' sid := by
  induction hs with
  | port sid hport heos => exact .port sid hport (h.ports _ heos)
  | ended sid hnode hl => exact .ended sid hnode ((h.nodes _).ended _ hl)
  | handed sid src hnode hpass hsrc ih => exact .handed sid src hnode ((h.nodes _).handed _ _ hpass hsrc) ih

theorem Onward.live (h : Onward g g') {sid : Sid} (hs : g.live sid = true) : g'.live sid = true := by
  rw [live_eq, Bool.or_eq_true_iff] at *
  exact hs.imp_right ((h.nodes _).live _)

theorem Onward.trans (h : Onward g g') (h' : Onward g' g'') : Onward g g'' where
  ports p hp := h'.ports p (h.ports p hp)
  nodes n :=
    { live := fun c hc => (h'.nodes n).live c ((h.nodes n).live c hc)
      ended := fun c hc => (h'.nodes n).ended c ((h.nodes n).ended c hc)
      handed := fun c src hc hsrc =>
        (h'.nodes n).handed c src ((h.nodes n).handed c src hc hsrc) (h.exhausted hsrc) }

theorem Onward.setNode (h : Onward g g') {n : Fin 16} {x : Node} (hx : StaysDry (Exhausted g) (g.node n) x) :
    Onward g (g'.setNode n x) where
  ports := h.ports
  nodes m := by
    rw [Streams.node_setNode]
    split
    next hm => rwa [hm]
    next => exact h.nodes m

end

/-- What every result of a pull leaves can be weakened. -/
theorem leaves_mono {P Q : Streams → Prop} (hPQ : ∀ g, P g → Q g) {r : Pulled} (h : r.Leaves P) : r.Leaves Q := by
  cases r with
  | answer _ g => exact hPQ g h
  | overflow g => exact hPQ g h
  | dead => trivial

/-- Delivering the backlog of one side of a tee: that side was not exhausted, the other keeps its queue. -/
theorem staysDry_setOwn {ex : Sid → Prop} {t : TeeNode} {side : Fin 8} {v : Int} {rest : List Int}
    (hown : t.own side = v :: rest) : StaysDry ex (.tee t) (.tee (t.setOwn side rest)) where
  live _ hc := hc
  ended _ hc := hc
  handed c src hc _ := by
    by_cases hs : side = 0 <;> by_cases h0 : c = 0 <;>
      simp_all [handsOn, TeeNode.own, TeeNode.setOwn]

/-- Delivering the backlog of a port of a deinterleaver: that port was not exhausted, the others keep their queues. -/
theorem staysDry_backlog {ex : Sid → Prop} {d : DilNode} {c : Fin 8} {v : Int} {rest : List Int}
    (hq : d.q[c] = v :: rest) : StaysDry ex (.dil d) (.dil { d with q := d.q.set c rest }) where
  live _ hc := hc
  ended k hk := by
    obtain ⟨hempty, hdone⟩ := hk
    have hne : c.val ≠ k.val := fun e => by
      rw [← Fin.ext e, hq] at hempty
      cases hempty
    exact ⟨by simpa [Vector.getElem_set_ne, hne] using hempty, hdone⟩
  handed _ _ hk _ := by cases hk

section
variable {depth : QueueDepth} {pull : Sid → Streams → Pulled} {n : Fin 16} {c : Fin 8} {g : Streams}

/-- The pull of a node other than a tee that has not met the end leads onward if its sources' pulls do. -/
theorem pullNode_onward_of_not_metEnd (hpull : ∀ src g, (pull src g).Leaves (Onward g))
    (hend : ∀ c, ¬metEnd c (g.node n)) (htee : ∀ t, g.node n ≠ .tee t) :
    (pullNode depth pull n c g).Leaves (Onward g) :=
  pullNode_leaves (fun src _ g' hg => leaves_mono (fun _ => hg.trans) (hpull src g'))
    (fun _ _ hg hw => hg.setNode (.of_wiring hw hend htee)) (.refl g)

/-- The pull of a tee leads onward if its origin's pull does and an exhausted origin delivers nothing. -/
theorem pullTee_onward {t : TeeNode} (hpull : (pull t.src g).Leaves (Onward g))
    (hdry : Exhausted g t.src → ∀ v g', pull t.src g ≠ .answer (some v) g') (hx : g.node n = .tee t) :
    (pullTee depth pull n c t g).Leaves (Onward g) := by
  obtain ⟨v, rest, hown, hres⟩ | ⟨-, v, g', heq, -, hres⟩ | ⟨-, v, g', heq, -, hres⟩ | ⟨-, -, hres⟩ :=
    pullTee_cases depth pull n c t g <;> rw [hres]
  · exact (Onward.refl g).setNode (hx ▸ staysDry_setOwn hown)
  · rw [heq] at hpull
    exact hpull
  · have hflow : ¬Exhausted g t.src := fun h => hdry h v g' heq
    rw [heq] at hpull
    refine hpull.setNode (hx ▸ ⟨fun _ hc => hc, fun _ hc => hc, fun k src hk hsrc => ?_⟩)
    obtain ⟨-, rfl⟩ : t.own k = [] ∧ t.src = src := by simpa [handsOn] using hk
    exact absurd hsrc hflow
  · exact hpull

/-- The pull of a node leads onward if its sources' pulls do and exhausted sources deliver nothing. -/
theorem pullNode_onward (hpull : ∀ src g, (pull src g).Leaves (Onward g))
    (hdry : ∀ src, Exhausted g src → ∀ v g', pull src g ≠ .answer (some v) g') :
    (pullNode depth pull n c g).Leaves (Onward g) := by
  by_cases hend : metEnd c (g.node n)
  · rw [pullNode_of_metEnd hend]
    exact .refl g
  cases hx : g.node n
  case tee t =>
    simp only [pullNode, hx]
    exact pullTee_onward (hpull _ g) (hdry _) hx
  case dil d =>
    cases hd : d.done with
    | false =>
      exact pullNode_onward_of_not_metEnd hpull (fun k hk => by simp [hx, metEnd, hd] at hk) (by simp [hx])
    | true =>
      cases hq : d.q[c] with
      | nil => exact absurd (hx ▸ ⟨hq, hd⟩) hend
      | cons v rest =>
        simp only [pullNode, hx, pullDil, hq]
        exact (Onward.refl g).setNode (hx ▸ staysDry_backlog hq)
  case ilv x =>
    exact pullNode_onward_of_not_metEnd hpull (fun k hk => hend (by rw [hx] at hk ⊢; exact hk)) (by simp [hx])
  all_goals exact pullNode_onward_of_not_metEnd hpull (by simp [hx, metEnd]) (by simp [hx])

end

/-- Every pull leads onward, by induction over the nested pulls. -/
theorem pullWithin_onward (depth : QueueDepth) (fuel : Nat) (sid : Sid) (g : Streams) :
    (pullWithin depth fuel sid g).Leaves (Onward g) := by
  refine pullWithin_induction (P := fun _ _ g r => r.Leaves (Onward g)) ?_ ?_ ?_ fuel sid g
  · exact fun _ _ => trivial
  · intro _ sid g _
    cases hl : g.xeos[sidPort sid] with
    | true => rw [xpull_latched hl]; exact .refl g
    | false =>
      rw [xpull_open hl]
      refine ⟨fun q hq => ?_, fun _ => .refl _ _⟩
      have hne : q ≠ sidPort sid := fun e => by simp [e, hl] at hq
      rw [(asked_other g hne).1]
      exact hq
  · intro fuel sid g _ ih
    refine pullNode_onward ih fun src hsrc v g' hv => ?_
    obtain hres | hres := pullWithin_of_exhausted hsrc depth fuel <;> simp [hv] at hres

theorem pull_onward (depth : QueueDepth) (sid : Sid) (g : Streams) : (pull depth sid g).Leaves (Onward g) :=
  pullWithin_onward depth 17 sid g

/-! ### A pull that answers `None` leaves its stream exhausted -/

theorem mem_sources_of_handsOn {c : Fin 8} {x : Node} {src : Sid} (h : handsOn c x = some src) : src ∈ x.sources := by
  cases x <;> simp_all [handsOn, Node.sources]

/-- A port that answers `None` is latched. -/
theorem xpull_none {p : Fin 8} {g g' : Streams} (h : xpull p g = .answer none g') : g'.xeos[p] = true := by
  cases hl : g.xeos[p] with
  | true => rw [xpull_latched hl] at h; cases h; exact hl
  | false =>
    rw [xpull_open hl] at h
    injection h with hr hg
    have hnone : g.xs[p].answer p = none := by simpa using hr
    rw [← hg, asked_xeos_same, hnone]
    rfl

section
variable {s : State} (hinv : GraphInv s)
include hinv

/-- In a table in order a pull of a source of a node leaves that node alone (R91, R100). -/
theorem node_of_pull_source {n : Fin 16} {src : Sid} (hsrc : src ∈ (s.streams.node n).sources) {fuel : Nat}
    {r : Option Int} {g : Streams} (h : pullWithin s.params.qdepth fuel src s.streams = .answer r g) :
    g.node n = s.streams.node n := by
  have hleft := pullWithin_untouched s.params.qdepth fuel (.self (g := s.streams) (sid := src))
    ⟨fun _ => rfl, fun _ _ => rfl, fun _ _ => ⟨rfl, rfl⟩⟩
  rw [h] at hleft
  refine hleft.nodes n fun r hr hnode heq => ?_
  obtain ⟨hport, hle⟩ := feeds_slot_le hinv hr hnode
  obtain ⟨-, hlow, -⟩ := (checkSrc_iff ..).1 (checkSrc_of_mem_sources (hinv n) hsrc)
  simp only [hport, Bool.false_eq_true, false_or] at hlow
  rw [heq] at hle
  omega

/-- After a pull that answered `None` the stream is exhausted. -/
theorem exhausted_of_pull_none {fuel : Nat} {sid : Sid} {g : Streams}
    (h : pullWithin s.params.qdepth fuel sid s.streams = .answer none g) : Exhausted g sid := by
  induction fuel generalizing sid with
  | zero => cases h
  | succ fuel ih =>
    cases hp : sidIsPort sid with
    | true =>
      rw [pullWithin_port _ _ _ hp] at h
      exact .port sid hp (xpull_none h)
    | false =>
      rw [pullWithin_node _ _ _ hp] at h
      obtain hend | ⟨src, hhands, hsrc⟩ := pullNode_none h
      · exact .ended sid hp hend
      · have hnode := node_of_pull_source hinv (mem_sources_of_handsOn hhands) hsrc
        exact .handed sid src hp (hnode ▸ hhands) (ih hsrc)

end

/-! ### What no command but a reset undoes -/

/-- A free slot owes nothing. -/
theorem StaysDry.of_free (ex : Sid → Prop) (y : Node) : StaysDry ex .free y where
  live _ h := by cases h
  ended _ h := h.elim
  handed _ _ h _ := by cases h

/-- Binding an input of an interleaver. -/
theorem StaysDry.of_bind {ex : Sid → Prop} {x y : IlvNode} {k : BitVec 4} {src : Sid} (hbind : x.bind k src = some y) :
    StaysDry ex (.ilv x) (.ilv y) where
  live := delivers_bind hbind
  ended _ hend := by
    obtain ⟨-, -, -, rfl⟩ := bind_eq_some hbind
    exact hend
  handed _ _ h _ := by cases h

/-- Every effect leads onward. -/
theorem onward_effect {cw : Word} {s t : State} (heff : Effect cw s t) : Onward s.streams t.streams := by
  cases heff with
  | created n x hfree hok => exact (Onward.refl _).setNode (hfree ▸ .of_free _ x)
  | bound n x y k src hnode hbind hsrc => exact (Onward.refl _).setNode (hnode ▸ .of_bind hbind)
  | pulled sid r g hlive hpull =>
    have honward := pull_onward s.params.qdepth sid s.streams
    rw [hpull] at honward
    exact honward
  | overflowed sid g hlive hpull =>
    have honward := pull_onward s.params.qdepth sid s.streams
    rw [hpull] at honward
    exact honward
  | _ => exact .refl _

/-- A row of commands without a reset keeps what every effect keeps. -/
theorem issue_preserves {P : State → Prop} (heffect : ∀ cw s t, P s → Effect cw s t → P t) {row : List Instr}
    {s u : State} (hrow : .reset ∉ row) (hs : P s) (h : issue row s = some u) : P u := by
  induction row generalizing s with
  | nil => cases h; exact hs
  | cons i rest ih =>
    obtain ⟨hi, hrest⟩ := not_or.1 (mt List.mem_cons.2 hrow)
    simp only [issue] at h
    split at h
    next t ht =>
      have heff := (exec_effect ht).resolve_right fun hreset => hi hreset.1.symm
      exact ih hrest (heffect _ _ _ hs heff) h
    next => cases h

/-- In a table in order a `NEXT` of an exhausted live stream answers `END` and changes nothing. -/
theorem exec_next_of_exhausted {sid : Sid} {s : State} (hinv : GraphInv s) (hf : s.faulted = false)
    (hformed : sidFormed sid = true) (hlive : s.streams.live sid = true) (hdry : Exhausted s.streams sid) :
    exec (.next sid) s = .next { s with resp := some ⟨.ended, 0⟩ } := by
  have hpull : pull s.params.qdepth sid s.streams = .answer none s.streams :=
    (pullWithin_of_exhausted hdry _ _).resolve_right fun hdead => by
      have hsafe := pull_safe hinv hlive
      rw [pull, hdead] at hsafe
      exact hsafe
  exact exec_next_of_answer hf hformed hlive hpull

/-- Settles O26: the pull that answered `None` left the stream exhausted, and every command that may come between
leads onward. -/
theorem exhaustedStreamStaysExhausted : Obligations.ExhaustedStreamStaysExhausted := by
  intro sid s t u between hinv hf h hans hreset hissue hfu
  have heff := (exec_effect h).resolve_right fun hr => by cases hr.1
  obtain ⟨hformed, hlive, g, hpull, rfl⟩ := exec_next_ended hf h hans
  have hdry : Exhausted g sid := exhausted_of_pull_none hinv hpull
  have hlive' : g.live sid = true := (onward_effect heff).live hlive
  obtain ⟨hinvu, honward⟩ := issue_preserves (P := fun v => GraphInv v ∧ Onward g v.streams)
    (fun _ _ _ hv heff => ⟨graphInv_effect hv.1 heff, hv.2.trans (onward_effect heff)⟩) hreset
    ⟨graphInv_effect hinv heff, .refl g⟩ hissue
  exact exec_next_of_exhausted hinvu hfu hformed (honward.live hlive') (honward.exhausted hdry)

end Sys2Proof.Proofs
end

section
/-! PROOFS. `QUEUE_OVF` of a tee and of a deinterleaver (spec 40_stream_tee R106, R110; 43_interleave R151; 60_exceptions
R246). -/

namespace Sys2Proof.Proofs

open Sys2Proof Sys2Proof.Machine Sys2Proof.Config

/-! ### A nested pull is the pull of a `NEXT` -/

section
variable {pull pull' : Sid → Streams → Pulled} (hpull : ∀ src g, pull src g ≠ .dead → pull' src g = pull src g)
include hpull

theorem fetchFrame_congr {sids : List Sid} {taken : List Int} {g : Streams} (h : fetchFrame pull sids taken g ≠ .dead) :
    fetchFrame pull' sids taken g = fetchFrame pull sids taken g := by
  induction sids generalizing taken g with
  | nil => rfl
  | cons sid rest ih =>
    have hsid : pull sid g ≠ .dead := fun hd => h (by simp only [fetchFrame, hd])
    simp only [fetchFrame] at h ⊢
    rw [hpull sid g hsid]
    split at h
    next v g' heq => exact ih h
    all_goals rfl

/-- A node whose pull meets no dead source is pulled alike by nested pulls that agree where they meet none. -/
theorem pullNode_congr {depth : QueueDepth} {n : Fin 16} {c : Fin 8} {g : Streams}
    (h : pullNode depth pull n c g ≠ .dead) : pullNode depth pull' n c g = pullNode depth pull n c g := by
  unfold pullNode at h ⊢
  cases hx : g.node n <;> simp only [hx] at h
  case free => rfl
  case lpf f =>
    have hsrc : pull f.src g ≠ .dead := fun hd => h (by simp only [pullLpf, hd])
    simp only [pullLpf, hpull _ _ hsrc]
  case hpf f =>
    have hsrc : pull f.src g ≠ .dead := fun hd => h (by simp only [pullHpf, hd])
    simp only [pullHpf, hpull _ _ hsrc]
  case tee t =>
    cases hown : t.own c with
    | cons v rest => simp only [pullTee, hown]
    | nil =>
      have hsrc : pull t.src g ≠ .dead := fun hd => h (by simp only [pullTee, hown, hd])
      simp only [pullTee, hown, hpull _ _ hsrc]
  case dil d =>
    cases hq : d.q[c] with
    | cons v rest => simp only [pullDil, hq]
    | nil =>
      cases hdone : d.done with
      | true => simp only [pullDil, hq, hdone, if_true]
      | false =>
        have hfetch : fetchFrame pull (List.replicate d.c.val d.src) [] g ≠ .dead := fun hd =>
          h (by simp only [pullDil, hq, hdone, hd, Bool.false_eq_true, if_false])
        simp only [pullDil, hq, hdone, fetchFrame_congr hpull hfetch]
  case ilv x =>
    cases hfv : x.fv with
    | true => simp only [pullIlv, hfv, if_true]
    | false =>
      cases hdone : x.done with
      | true => simp only [pullIlv, hfv, hdone, Bool.false_eq_true, if_false, if_true]
      | false =>
        cases hin : x.inputs with
        | none => simp only [pullIlv, hfv, hdone, hin]
        | some sids =>
          have hfetch : fetchFrame pull sids [] g ≠ .dead := fun hd =>
            h (by simp only [pullIlv, hfv, hdone, hin, hd, Bool.false_eq_true, if_false])
          simp only [pullIlv, hfv, hdone, hin, fetchFrame_congr hpull hfetch]

end

/-- More fuel does not change a pull that met no dead source. -/
theorem pullWithin_succ {depth : QueueDepth} {fuel : Nat} {sid : Sid} {g : Streams}
    (h : pullWithin depth fuel sid g ≠ .dead) : pullWithin depth (fuel + 1) sid g = pullWithin depth fuel sid g := by
  induction fuel generalizing sid g with
  | zero => exact absurd rfl h
  | succ fuel ih =>
    cases hp : sidIsPort sid with
    | true => rw [pullWithin_port _ _ _ hp, pullWithin_port _ _ _ hp]
    | false =>
      rw [pullWithin_node _ _ _ hp] at h
      rw [pullWithin_node _ _ _ hp, pullWithin_node _ _ _ hp, pullNode_congr (fun _ _ => ih) h]

/-- In a table in order the nested pull of a source of a node is the pull that a `NEXT` of the source makes. -/
theorem pullWithin_source {s : State} (hinv : GraphInv s) {n : Fin 16} {src : Sid}
    (hsrc : s.streams.checkSrc n src = true) :
    pullWithin s.params.qdepth 16 src s.streams = pull s.params.qdepth src s.streams := by
  obtain ⟨-, hlow, hlive⟩ := (checkSrc_iff ..).1 hsrc
  refine (pullWithin_succ fun hdead => ?_).symm
  have hsafe := pullWithin_safe (fuel := 16) n.isLt hlow hlive ⟨fun _ => rfl, hinv⟩
  rw [hdead] at hsafe
  exact hsafe

/-! ### What an overflow records -/

/-- A `NEXT` that overflows records the fault and changes nothing else but the streams. -/
theorem overflowed_afterOverflow (s : State) (sid : Sid) (g : Streams) : Overflowed sid s (afterOverflow s sid g) :=
  ⟨rfl, rfl, fun _ => rfl, ⟨rfl, rfl⟩, rfl, rfl, rfl, rfl⟩

theorem exec_next_nodeSid_overflow {s : State} {n : Fin 16} {c : Fin 8} {g : Streams} (hf : s.faulted = false)
    (hlive : delivers (s.streams.node n) c = true)
    (hpull : pullNode s.params.qdepth (pullWithin s.params.qdepth 16) n c s.streams = .overflow g) :
    exec (.next (nodeSid n c)) s = .next (afterOverflow s (nodeSid n c) g) :=
  exec_next_of_overflow hf (formed_nodeSid n c) ((live_nodeSid ..).trans hlive) ((pull_nodeSid ..).trans hpull)

/-! ### The tee -/

/-- The side pulled exists and has no backlog, and the other side is full. -/
theorem tee_side_full {side : Fin 8} {x : TeeNode} {below : Nat}
    (h : side = 0 ∧ x.qa = [] ∧ x.qb.length = below + 1 ∨ side = 1 ∧ x.qb = [] ∧ x.qa.length = below + 1) :
    delivers (.tee x) side = true ∧ x.own side = [] ∧ queueFull (.samples below) (x.other side) = true := by
  obtain ⟨rfl, hown, hother⟩ | ⟨rfl, hown, hother⟩ := h
  · exact ⟨rfl, hown, beq_iff_eq.2 hother⟩
  · exact ⟨rfl, hown, beq_iff_eq.2 hother⟩

/-- A tee whose origin answers an element that the full other side cannot take overflows with the streams the origin's pull
left. -/
theorem exec_next_tee_overflow {s : State} {n : Fin 16} {side : Fin 8} {x : TeeNode} {below : Nat} {v : Int} {g : Streams}
    (hf : s.faulted = false) (hdepth : s.params.qdepth = .samples below) (hx : s.streams.node n = .tee x)
    (hside : side = 0 ∧ x.qa = [] ∧ x.qb.length = below + 1 ∨ side = 1 ∧ x.qb = [] ∧ x.qa.length = below + 1)
    (hpull : pullWithin s.params.qdepth 16 x.src s.streams = .answer (some v) g) :
    exec (.next (nodeSid n side)) s = .next (afterOverflow s (nodeSid n side) g) := by
  obtain ⟨hlive, hown, hfull⟩ := tee_side_full hside
  refine exec_next_nodeSid_overflow hf (hx ▸ hlive) ?_
  rw [← hdepth] at hfull
  simp only [pullNode, hx, pullTee, hown, hpull, hfull, if_true]

/-! ### The deinterleaver: queueing a frame -/

/-- The queues after the channels below `i`, but for channel `c`, have been given their elements of the frame. -/
def queuedBelow (c : Fin 8) (q : Vector (List Int) 8) (frame : List Int) (i : Nat) : Vector (List Int) 8 :=
  Vector.ofFn fun j : Fin 8 => if j.val < i ∧ j ≠ c then q[j] ++ [(frame[j.val]?).getD 0] else q[j]

section
variable {depth : QueueDepth} {c : Fin 8} {q : Vector (List Int) 8} {frame : List Int}

theorem getElem_queuedBelow (i : Nat) (j : Fin 8) : (queuedBelow c q frame i)[j] =
    if j.val < i ∧ j ≠ c then q[j] ++ [(frame[j.val]?).getD 0] else q[j] := by
  simp [queuedBelow]

/-- Vectors of queues are equal if they are channel by channel. -/
theorem queues_ext {q q' : Vector (List Int) 8} (h : ∀ j : Fin 8, q[j] = q'[j]) : q = q' := by
  ext1 j hj
  exact h ⟨j, hj⟩

theorem queuedBelow_zero : queuedBelow c q frame 0 = q :=
  queues_ext fun j => by rw [getElem_queuedBelow, if_neg (by omega)]

/-- A channel that has not had its turn holds what it held. -/
theorem getElem_queuedBelow_self (k : Fin 8) : (queuedBelow c q frame k.val)[k] = q[k] := by
  rw [getElem_queuedBelow, if_neg (by omega)]

/-- The channel pulled gets no element. -/
theorem queuedBelow_succ_self : queuedBelow c q frame (c.val + 1) = queuedBelow c q frame c.val := by
  refine queues_ext fun j => ?_
  have hiff : (j.val < c.val + 1 ∧ j ≠ c) ↔ (j.val < c.val ∧ j ≠ c) := by
    rw [Ne, Fin.ext_iff]
    omega
  simp only [getElem_queuedBelow, hiff]

/-- Another channel gets its own. -/
theorem queuedBelow_succ_other {i : Fin 8} (hi : i.val < frame.length) (hne : i ≠ c) :
    queuedBelow c q frame (i.val + 1) = (queuedBelow c q frame i.val).set i (q[i] ++ [frame[i.val]]) := by
  refine queues_ext fun j => ?_
  by_cases hj : i.val = j.val
  · cases Fin.ext hj
    rw [getElem_queuedBelow, if_pos ⟨by omega, hne⟩]
    simp [hi]
  · have hiff : j.val < i.val + 1 ↔ j.val < i.val := by omega
    have hset : ((queuedBelow c q frame i.val).set i (q[i] ++ [frame[i.val]]))[j] = (queuedBelow c q frame i.val)[j] := by
      simp [hj]
    simp only [hset, getElem_queuedBelow, hiff]

/-- The channels and elements of a frame from channel `i` on. -/
theorem drop_channels {i : Fin 8} (hi : i.val < frame.length) : ((List.finRange 8).zip frame).drop i.val =
    (i, frame[i.val]) :: ((List.finRange 8).zip frame).drop (i.val + 1) := by
  rw [List.drop_eq_getElem_cons (by simp [hi])]
  simp

/-- The channels of a frame below `i` that have room take their elements one after another. -/
theorem queueOthers_below {i : Nat} (hi : i ≤ frame.length) (h8 : i ≤ 8)
    (hroom : ∀ j : Fin 8, j.val < i → j ≠ c → queueFull depth q[j] = false) :
    queueOthers depth c ((List.finRange 8).zip frame) q =
      queueOthers depth c (((List.finRange 8).zip frame).drop i) (queuedBelow c q frame i) := by
  induction i with
  | zero => rw [queuedBelow_zero, List.drop_zero]
  | succ i ih =>
    obtain ⟨k, rfl⟩ : ∃ k : Fin 8, k.val = i := ⟨⟨i, h8⟩, rfl⟩
    rw [ih (by omega) (by omega) fun j hj => hroom j (by omega), drop_channels hi, queueOthers]
    by_cases hk : k = c
    · subst hk
      rw [if_pos rfl, queuedBelow_succ_self]
    · rw [if_neg hk, getElem_queuedBelow_self, hroom k (by omega) hk, if_neg (by simp), queuedBelow_succ_other hi hk]

/-- At the first full channel the queueing of a frame stops. -/
theorem queueOthers_full {k : Fin 8} (hk : k.val < frame.length) (hne : k ≠ c) (hfull : queueFull depth q[k] = true)
    (hroom : ∀ j : Fin 8, j.val < k.val → j ≠ c → queueFull depth q[j] = false) :
    queueOthers depth c ((List.finRange 8).zip frame) q = (false, queuedBelow c q frame k.val) := by
  rw [queueOthers_below hk.le k.isLt.le hroom, drop_channels hk, queueOthers, if_neg hne, getElem_queuedBelow_self,
    if_pos hfull]

end

/-! ### The deinterleaver: drawing a frame -/

/-- A row of `NEXT` whose first delivers an element. -/
theorem collect_cons_some {sid : Sid} {rest : List Sid} {s u : State} {v : Int} {outs : List (Option Int)}
    (h : collect (sid :: rest) s = some (some v :: outs, u)) :
    ∃ t rd, exec (.next sid) s = .next t ∧ Answered t .ok rd ∧ rd.toInt = v ∧ collect rest t = some (outs, u) := by
  simp only [collect] at h
  split at h
  next t ht =>
    split at h
    next rd hrd =>
      obtain ⟨⟨outs', u'⟩, hrest, heq⟩ := Option.map_eq_some_iff.1 h
      cases heq
      exact ⟨t, rd, ht, hrd, rfl, hrest⟩
    next =>
      obtain ⟨_, -, heq⟩ := Option.map_eq_some_iff.1 h
      cases heq
    next => cases h
  next => cases h

/-- In a table in order, streams of which `NEXT` after `NEXT` delivers the elements of a frame are fetched as that frame by
a node that may pull them. -/
theorem fetchFrame_of_collect {n : Fin 16} {sids : List Sid} {taken frame : List Int} {s u : State} (hinv : GraphInv s)
    (hf : s.faulted = false) (hsids : ∀ sid ∈ sids, s.streams.checkSrc n sid = true)
    (h : collect sids s = some (frame.map some, u)) :
    fetchFrame (pullWithin s.params.qdepth 16) sids taken s.streams = .full (taken ++ frame) u.streams := by
  induction sids generalizing taken frame s with
  | nil =>
    cases frame <;> cases h
    rw [List.append_nil]
    rfl
  | cons sid rest ih =>
    cases frame with
    | nil =>
      simp only [collect] at h
      split at h
      next => split at h <;> simp at h
      next => cases h
    | cons v frame =>
      obtain ⟨t, rd, ht, hrd, hv, hrest⟩ := collect_cons_some h
      have hinvt := graphInv_effect hinv ((exec_effect ht).resolve_right fun hr => by cases hr.1)
      obtain ⟨w, g, hpull, rfl, rfl⟩ := exec_next_ok hf ht hrd
      have hsid := hsids sid (.head _)
      have hsafe := pull_safe hinv ((checkSrc_iff ..).1 hsid).2.2
      rw [hpull] at hsafe
      obtain ⟨hw, hsound⟩ := hsafe
      obtain rfl : w = v := (toInt_to32 (hw w rfl)).symm.trans hv
      have hfetch := ih (taken := taken ++ [w]) hinvt hf
        (fun x hx => (hsound.wired.checkSrc_eq n x).trans (hsids x (.tail _ hx))) hrest
      rw [fetchFrame, pullWithin_source hinv hsid, hpull]
      exact hfetch.trans (by rw [List.append_assoc, List.singleton_append])

/-- A deinterleaver has a port for each channel. -/
theorem delivers_dil (d : DilNode) (c : Fin 8) : delivers (.dil d) c = decide (c.val < d.c.val) :=
  Bool.and_true _

/-- A deinterleaver with no backlog on the port pulled, whose source supplies a frame that channel `k` is the first without
room for, overflows with the channels below `k` given their elements. -/
theorem pullDil_overflow {depth : QueueDepth} {pull : Sid → Streams → Pulled} {n : Fin 16} {c k : Fin 8} {d : DilNode}
    {frame : List Int} {g g' : Streams} (hq : d.q[c] = []) (hdone : d.done = false) (hc : c.val < d.c.val)
    (hk : k.val < d.c.val) (hne : k ≠ c) (hfull : queueFull depth d.q[k] = true)
    (hroom : ∀ j : Fin 8, j.val < k.val → j ≠ c → queueFull depth d.q[j] = false)
    (hfetch : fetchFrame pull (List.replicate d.c.val d.src) [] g = .full frame g') :
    pullDil depth pull n c d g = .overflow (g'.setNode n (.dil { d with q := queuedBelow c d.q frame k.val })) := by
  have hlen : frame.length = d.c.val := by simpa using fetchFrame_full_length hfetch
  have hget : frame[c.val]? = some frame[c.val] := List.getElem?_eq_getElem (by omega)
  simp only [pullDil, hq, hdone, hfetch, hget, queueOthers_full (hlen ▸ hk) hne hfull hroom, Bool.false_eq_true, if_false]

/-! ### The overflow -/

/-- What is left behind a port after a word has been taken. -/
theorem behind_asked {g : Streams} {p : Fin 8} {d : Word} {ws : List Word} (h : g.xs[p] = ⟨d :: ws, .ends⟩) :
    (g.asked p).xeos[p] = false ∧ (g.asked p).xs[p] = ⟨ws, .ends⟩ := by
  obtain ⟨hanswer, hadvance⟩ := answer_of_words p (show g.xs[p].words = d :: ws by rw [h])
  rw [asked_xeos_same, asked_xs_same, hanswer, hadvance, h]
  exact ⟨rfl, rfl⟩

/-- Settles O27: over a port the pull of the origin is one question to the environment; over any origin it is the pull of
its `NEXT`, and the frame of a deinterleaver is what the `NEXT`s of its source deliver. -/
theorem queueOverflowFaults : Obligations.QueueOverflowFaults := by
  refine ⟨?port, ?origin, ?dil⟩
  case port =>
    intro n p side x d ws below s hf hdepth hx hsrc hside ⟨hopen, hwords⟩
    have hanswer := (answer_of_words p (show s.streams.xs[p].words = d :: ws by rw [hwords])).1
    have hpull : pullWithin s.params.qdepth 16 x.src s.streams =
        .answer (some (sat24 (sext32 d))) (s.streams.asked p) := by
      rw [hsrc, pullWithin_portSid, xpull_open hopen, hanswer]
      rfl
    exact ⟨_, exec_next_tee_overflow hf hdepth hx hside hpull, overflowed_afterOverflow .., fun _ => rfl,
      fun _ hq => asked_other _ hq, behind_asked hwords⟩
  case origin =>
    intro n side x rd below s u hinv hf hdepth hx hside hu hans
    have hcheck : s.streams.checkSrc n x.src = true := checkSrc_of_mem_sources (hinv n) (by rw [hx]; exact .head _)
    obtain ⟨-, -, habove, -⟩ := nextTouchesOnlyUpstream x.src s u hf hu
    have hnode : u.streams.node n = .tee x := (habove hinv n ((checkSrc_iff ..).1 hcheck).2.1).trans hx
    obtain ⟨v, g, hpull, rfl, -⟩ := exec_next_ok hf hu hans
    exact ⟨_, exec_next_tee_overflow hf hdepth hx hside ((pullWithin_source hinv hcheck).trans hpull),
      overflowed_afterOverflow .., rfl, hnode⟩
  case dil =>
    intro n c k d frame below s u hinv hf hdepth hx hdone hc hq hk hne hlen hroom hcollect
    have hcheck : s.streams.checkSrc n d.src = true := checkSrc_of_mem_sources (hinv n) (by rw [hx]; exact .head _)
    have hfetch := fetchFrame_of_collect (taken := []) hinv hf
      (fun sid hsid => List.eq_of_mem_replicate hsid ▸ hcheck) hcollect
    have hfull : queueFull s.params.qdepth d.q[k] = true := by rw [hdepth]; exact beq_iff_eq.2 hlen
    have hspace : ∀ j : Fin 8, j.val < k.val → j ≠ c → queueFull s.params.qdepth d.q[j] = false := fun j hj hjc => by
      rw [hdepth]
      exact beq_eq_false_iff_ne.2 (hroom j hj hjc).ne
    have hlive : delivers (s.streams.node n) c = true := by
      rw [hx, delivers_dil]
      exact decide_eq_true hc
    refine ⟨_, { d with q := queuedBelow c d.q frame k.val }, exec_next_nodeSid_overflow hf hlive ?_,
      overflowed_afterOverflow .., Streams.node_setNode_same .., rfl, rfl, hdone,
      fun j => getElem_queuedBelow k.val j, fun m hm => Streams.node_setNode_other _ _ hm,
      fun _ => ⟨rfl, rfl⟩⟩
    simp only [pullNode, hx]
    exact pullDil_overflow hq hdone hc hk hne hfull hspace hfetch

end Sys2Proof.Proofs
end

section
/-! PROOFS. The tee law over an external port with a finite sequence (spec 40_stream_tee R102, R106, R107, R109). -/

namespace Sys2Proof.Proofs

open Sys2Proof Sys2Proof.Machine Sys2Proof.Config

/-! ### A port with a finite sequence -/

/-- What stands behind port `p` is the finite sequence `ws`, and its latch is set only when that is used up. -/
structure Supplies (g : Streams) (p : Fin 8) (ws : List Word) : Prop where
  words : g.xs[p] = ⟨ws, .ends⟩
  usedUp_of_latched : g.xeos[p] = true → ws = []

/-- A pull of such a port answers its next sample, or `None` when there is none left, and touches no node. -/
theorem xpull_supplies {g : Streams} {p : Fin 8} {ws : List Word} (h : Supplies g p ws) :
    ∃ g', xpull p g = .answer (samplesOf ws).head? g' ∧ Supplies g' p ws.tail ∧ ∀ n, g'.node n = g.node n := by
  obtain ⟨hwords, hopen⟩ := h
  cases hl : g.xeos[p] with
  | true =>
    obtain rfl := hopen hl
    exact ⟨g, xpull_latched hl, ⟨hwords, fun _ => rfl⟩, fun _ => rfl⟩
  | false =>
    cases ws with
    | nil =>
      obtain ⟨hanswer, hadvance⟩ :=
        answer_of_ended p (show g.xs[p].words = [] by rw [hwords]) (show g.xs[p].tail = .ends by rw [hwords])
      refine ⟨g.asked p, ?_, ⟨?_, fun _ => rfl⟩, fun _ => rfl⟩
      · rw [xpull_open hl, hanswer]
        rfl
      · rw [asked_xs_same, hadvance, hwords]
        rfl
    | cons d rest =>
      have hanswer := (answer_of_words p (show g.xs[p].words = d :: rest by rw [hwords])).1
      obtain ⟨hlatch, hrest⟩ := behind_asked hwords
      refine ⟨g.asked p, ?_, ⟨hrest, fun h => by simp [hlatch] at h⟩, fun _ => rfl⟩
      rw [xpull_open hl, hanswer]
      rfl

/-- The samples of a sequence are stream elements. -/
theorem isElement_of_mem_samplesOf {ws : List Word} {v : Int} (h : v ∈ samplesOf ws) : IsElement v := by
  obtain ⟨d, -, rfl⟩ := List.mem_map.1 h
  exact isElement_of_isSample (sat24_range _)

/-! ### What a tee owes its sides -/

/-- The port of a side: 0 for side A, 1 for side B. -/
def sidePort (b : Bool) : Fin 8 := if b then 1 else 0

theorem own_sidePort_not (t : TeeNode) (b : Bool) : t.own (sidePort !b) = t.other (sidePort b) := by cases b <;> rfl

/-- The tee in slot `n` over port `p` owes each side a sequence: its backlog, and then what the port supplies. -/
def TeeOwes (g : Streams) (n : Fin 16) (p : Fin 8) (owed : Bool → List Int) : Prop :=
  ∃ t ws, g.node n = .tee t ∧ t.src = portSid p ∧ Supplies g p ws ∧ ∀ b, t.own (sidePort b) ++ samplesOf ws = owed b

/-- What a tee owes, seen from one side. -/
theorem owes_iff {t : TeeNode} {l : List Int} {owed : Bool → List Int} (b : Bool) :
    (∀ b, t.own (sidePort b) ++ l = owed b) ↔
      t.own (sidePort b) ++ l = owed b ∧ t.other (sidePort b) ++ l = owed !b := by
  rw [← own_sidePort_not]
  cases b
  · exact Bool.forall_bool
  · exact Bool.forall_bool.trans and_comm

theorem delivers_tee (t : TeeNode) (b : Bool) : delivers (.tee t) (sidePort b) = true := by cases b <;> rfl

/-- A pull of a side answers the first element owed to it, or `None` if nothing is, and that is no longer owed; what is owed
to the other side is the same. -/
theorem pull_tee {g : Streams} {n : Fin 16} {p : Fin 8} {owed : Bool → List Int} (h : TeeOwes g n p owed) (b : Bool) :
    ∃ g', pull .unbounded (nodeSid n (sidePort b)) g = .answer (owed b).head? g' ∧
      TeeOwes g' n p (Function.update owed b (owed b).tail) := by
  obtain ⟨t, ws, hx, hsrc, hport, howed⟩ := h
  obtain ⟨hown, hother⟩ := (owes_iff b).1 howed
  simp only [pull_nodeSid, pullNode, hx]
  cases hq : t.own (sidePort b) with
  | cons v rest =>
    rw [hq] at hown
    refine ⟨g.setNode n (.tee (t.setOwn (sidePort b) rest)), ?_, _, ws, Streams.node_setNode_same .., ?_,
      ⟨hport.words, hport.usedUp_of_latched⟩, (owes_iff b).2 ?_⟩
    · simp only [pullTee, hq, ← hown]
      rfl
    · rw [src_setOwn, hsrc]
    · simpa [← hown] using hother
  | nil =>
    rw [hq, List.nil_append] at hown
    obtain ⟨g', hpull, hport', hnodes⟩ := xpull_supplies hport
    cases ws with
    | nil =>
      refine ⟨g', ?_, t, [], (hnodes n).trans hx, hsrc, hport', (owes_iff b).2 ?_⟩
      · simp only [pullTee, hq, hsrc, pullWithin_portSid, hpull, ← hown]
        rfl
      · simpa [← hown, hq, samplesOf] using hother
    | cons d rest =>
      refine ⟨g'.setNode n (.tee (t.setOther (sidePort b) (t.other (sidePort b) ++ [sat24 (sext32 d)]))), ?_, _, rest,
        Streams.node_setNode_same .., ?_, ⟨hport'.words, hport'.usedUp_of_latched⟩, (owes_iff b).2 ?_⟩
      · simp only [pullTee, hq, hsrc, pullWithin_portSid, hpull, ← hown]
        rfl
      · rw [src_setOther, hsrc]
      · simpa [← hown, hq, samplesOf] using hother

/-! ### The law -/

/-- Whatever the order of the pulls, each side delivers what is owed to it, element for element, and then `END`. -/
theorem collect_tee {n : Fin 16} {p : Fin 8} {sides : List Bool} {owed : Bool → List Int} {s : State}
    (hf : s.faulted = false) (hdepth : s.params.qdepth = .unbounded) (h : TeeOwes s.streams n p owed)
    (hel : ∀ b, ∀ v ∈ owed b, IsElement v) :
    ∃ outs t, collect (sides.map fun b => nodeSid n (sidePort b)) s = some (outs, t) ∧
      ∀ b : Bool, ((sides.zip outs).filter (·.1 == b)).map Prod.snd =
        (List.range (sides.count b)).map fun j => (owed b)[j]? := by
  induction sides generalizing s owed with
  | nil => exact ⟨[], s, rfl, fun _ => rfl⟩
  | cons b rest ih =>
    obtain ⟨g, hpull, howes⟩ := pull_tee h b
    rw [← hdepth] at hpull
    have hlive : s.streams.live (nodeSid n (sidePort b)) = true := by
      obtain ⟨t, ws, hx, -⟩ := h
      rw [live_nodeSid, hx, delivers_tee]
    have hel' : ∀ b', ∀ v ∈ Function.update owed b (owed b).tail b', IsElement v := fun b' v hv => by
      by_cases hb : b' = b
      · subst hb
        rw [Function.update_self] at hv
        exact hel _ v (List.mem_of_mem_tail hv)
      · rw [Function.update_of_ne hb] at hv
        exact hel b' v hv
    obtain ⟨outs, t, hrest, houts⟩ := ih (s := afterAnswer s (owed b).head? g) hf hdepth howes hel'
    refine ⟨(owed b).head? :: outs, t, ?_, fun b' => ?_⟩
    · rw [List.map_cons, collect_cons hf (formed_nodeSid ..) hlive hpull fun v hv => hel b v (List.mem_of_head? hv), hrest]
      rfl
    · have hb' := houts b'
      by_cases hb : b' = b
      · subst hb
        rw [Function.update_self] at hb'
        simp [hb', List.range_succ_eq_map, List.head?_eq_getElem?]
      · rw [Function.update_of_ne hb] at hb'
        simp [hb', Ne.symm hb]

/-- Settles O30: at first both sides are owed the whole sequence of the port. -/
theorem teeLaw : Obligations.TeeLaw := by
  intro n p ws sides s hf hdepth ⟨hopen, hwords⟩ hx
  refine collect_tee (owed := fun _ => samplesOf ws) hf hdepth
    ⟨_, ws, hx, rfl, ⟨hwords, fun h => by simp [hopen] at h⟩, fun b => ?_⟩ fun _ _ => isElement_of_mem_samplesOf
  cases b <;> rfl

end Sys2Proof.Proofs
end

section
/-! PROOFS. The tabled constants, and the bounds of the weighted average they give (spec 41_lowpass R121, R125, R127). -/

namespace Sys2Proof.Proofs

open Sys2Proof Sys2Proof.Machine Sys2Proof.Config

/-! ### The tables -/

/-- The widths are the successors of the fifteen table indices. -/
theorem forall_width {P : Width → Prop} (h : ∀ k : Fin 15, P ⟨k.val + 1, by omega⟩) (w : Width) : P w := by
  obtain ⟨w, hpos, hle⟩ := w
  obtain ⟨k, rfl⟩ := Nat.exists_eq_add_of_le' hpos
  exact h ⟨k, by omega⟩

/-- Settles O36: exact rational arithmetic on the fifteen entries of each table. -/
theorem ratioTablesAreRounded : Obligations.RatioTablesAreRounded := forall_width (by decide +kernel)

/-- From width 7 on a ratio is `10^-7` at most, but for the rounding of the table. -/
theorem ratio_le_of_wide {w : Width} (h : 7 ≤ w.val) : ratio w ≤ 1 / 10 ^ 7 + 1 / 2 ^ 29 := by
  obtain ⟨hrounded, -⟩ := ratioTablesAreRounded w
  have hpow : (1 : ℚ) / 10 ^ w.val ≤ 1 / 10 ^ 7 := one_div_pow_le_one_div_pow_of_le (by norm_num) h
  have hnonneg : (0 : ℚ) ≤ 1 / 10 ^ w.val := by positivity
  have herr := abs_sub_fl64_le (q := 1 / 10 ^ w.val) (by rw [abs_of_nonneg hnonneg]; linarith)
  rw [← hrounded] at herr
  linarith [neg_abs_le (1 / 10 ^ w.val - ratio w)]

/-! ### The average before truncation -/

/-- The magnitude of a rounded value, up to `2^24` (R9). -/
theorem abs_fl64_le {q b : ℚ} (h : |q| ≤ b) (hb : b ≤ 2 ^ 24) : |fl64 q| ≤ b + 1 / 2 ^ 29 := by
  have herr := abs_sub_fl64_le (h.trans hb)
  rw [abs_sub_comm] at herr
  linarith [abs_sub_abs_le_abs_sub (fl64 q) q]

/-- The average of two samples is no larger in magnitude than the integer part of a bound on the exact average of their
magnitudes, with a margin for the three roundings (R125). -/
theorem abs_wavg_le {x p : Int} {w : Width} {n : Nat} (hx : IsSample x) (hp : IsSample p)
    (h : |(x : ℚ)| * ratio w + |(p : ℚ)| * om w + 3 / 2 ^ 29 < n + 1) : |wavg x p w| ≤ n := by
  obtain ⟨hr, ho, hsum⟩ := ratio_add_om_le w
  have hxr := mul_le_mul_of_nonneg_right (abs_sample_le hx) hr
  have hpo := mul_le_mul_of_nonneg_right (abs_sample_le hp) ho
  have e1 := abs_fl64_le (q := x * ratio w) (by rw [abs_mul, abs_of_nonneg hr]) (by linarith)
  have e2 := abs_fl64_le (q := p * om w) (by rw [abs_mul, abs_of_nonneg ho]) (by linarith)
  have e3 := abs_fl64_le ((abs_add_le _ _).trans (add_le_add e1 e2)) (by linarith)
  exact abs_trunc_le (by linarith)

/-! ### The bounds -/

/-- Settles O34: the weights add up to 1 but for the rounding of the tables, and truncation removes what is above the larger
operand. -/
theorem wavgRange : Obligations.WavgRange := by
  intro x p w hx hp
  obtain ⟨hr, ho, hsum⟩ := ratio_add_om_le w
  obtain ⟨n, hmax⟩ := Int.eq_ofNat_of_zero_le ((abs_nonneg x).trans (le_max_left _ |p|))
  have hxn : |(x : ℚ)| ≤ n := by exact_mod_cast (le_max_left |x| |p|).trans_eq hmax
  have hpn : |(p : ℚ)| ≤ n := by exact_mod_cast (le_max_right |x| |p|).trans_eq hmax
  have hsmax : (n : Int) ≤ 8388607 := hmax ▸ max_le (abs_le.2 hx) (abs_le.2 hp)
  have hn : (n : ℚ) ≤ 8388607 := by exact_mod_cast hsmax
  rw [hmax]
  refine abs_wavg_le hx hp ?_
  have hmix : (n : ℚ) * (ratio w + om w) ≤ n * (1 + 1 / 2 ^ 27) := mul_le_mul_of_nonneg_left hsum n.cast_nonneg
  linarith [mul_le_mul_of_nonneg_right hxn hr, mul_le_mul_of_nonneg_right hpn ho]

/-- Settles O35: from `PREV = 0` the average stays below 1, which truncation removes. -/
theorem wideFilterIsSilent : Obligations.WideFilterIsSilent := by
  intro x w hx hw
  have hr := (ratio_add_om_le w).1
  have hxr := mul_le_mul (abs_sample_le hx) (ratio_le_of_wide hw) hr (by norm_num)
  have h0 : |wavg x 0 w| ≤ (0 : Nat) := by
    refine abs_wavg_le hx isSample_zero ?_
    norm_num at hxr ⊢
    linarith
  exact abs_nonpos_iff.1 h0

end Sys2Proof.Proofs
end

section
/-! PROOFS. What a low-pass node delivers over an external port with a finite sequence (spec 40_stream_tee R102; 41_lowpass
R120, R123, R124). -/

namespace Sys2Proof.Proofs

open Sys2Proof Sys2Proof.Machine Sys2Proof.Config

/-! ### A stream that owes a sequence -/

/-- If each pull of a stream answers the first element it owes, or `None` if it owes nothing, and leaves it owing the others,
then pulls deliver the sequence owed, element for element, and then `END`. -/
theorem collect_replicate {Owes : Streams → List Int → Prop} {sid : Sid} {depth : QueueDepth}
    (hformed : sidFormed sid = true) (hlive : ∀ g owed, Owes g owed → g.live sid = true)
    (hpull : ∀ g owed, Owes g owed → ∃ g', pull depth sid g = .answer owed.head? g' ∧ Owes g' owed.tail)
    (k : Nat) {s : State} {owed : List Int} (hf : s.faulted = false) (hdepth : s.params.qdepth = depth)
    (howes : Owes s.streams owed) (hel : ∀ v ∈ owed, IsElement v) :
    ∃ t, collect (List.replicate k sid) s = some ((List.range k).map fun j => owed[j]?, t) ∧ t.faulted = false ∧
      t.params.qdepth = depth ∧ Owes t.streams (owed.drop k) := by
  induction k generalizing s owed with
  | zero => exact ⟨s, rfl, hf, hdepth, howes⟩
  | succ k ih =>
    obtain ⟨g, hanswer, howes'⟩ := hpull _ _ howes
    obtain ⟨t, hrest, hf', hdepth', howesRest⟩ := ih (s := afterAnswer s owed.head? g) hf hdepth howes'
      fun v hv => hel v (List.mem_of_mem_tail hv)
    refine ⟨t, ?_, hf', hdepth', by simpa using howesRest⟩
    rw [List.replicate_succ, collect_cons hf hformed (hlive _ _ howes) (hdepth ▸ hanswer)
      fun v hv => hel v (List.mem_of_head? hv), hrest]
    simp [List.range_succ_eq_map, List.head?_eq_getElem?]

/-! ### The low-pass node -/

/-- Every output of a low-pass filter that starts from a sample is a sample (R125). -/
theorem isSample_of_mem_smoothed {w : Width} {prev v : Int} {xs : List Int} (hprev : IsSample prev)
    (h : v ∈ smoothed w prev xs) : IsSample v := by
  induction xs generalizing prev with
  | nil => cases h
  | cons x rest ih =>
    have hy : IsSample (wavg (sat24 x) prev w) := wavg_isSample w (sat24_range x) hprev
    obtain rfl | hrest := List.mem_cons.1 h
    · exact hy
    · exact ih hy hrest

/-- The low-pass node in slot `n` over port `p` owes the smoothing of what the port supplies. -/
def LpfOwes (n : Fin 16) (p : Fin 8) (w : Width) (g : Streams) (owed : List Int) : Prop :=
  ∃ prev ws, g.node n = .lpf ⟨portSid p, w, prev⟩ ∧ Supplies g p ws ∧ smoothed w prev (samplesOf ws) = owed

section
variable {n : Fin 16} {p : Fin 8} {w : Width} {g : Streams} {owed : List Int}

theorem live_of_lpfOwes (h : LpfOwes n p w g owed) : g.live (nodeSid n 0) = true := by
  obtain ⟨prev, ws, hx, -⟩ := h
  rw [live_nodeSid, hx]
  rfl

/-- A pull of the node averages the next sample of the port into `PREV`; at the end of the sequence it changes no node. -/
theorem pull_lpf (depth : QueueDepth) (h : LpfOwes n p w g owed) :
    ∃ g', pull depth (nodeSid n 0) g = .answer owed.head? g' ∧ LpfOwes n p w g' owed.tail := by
  obtain ⟨prev, ws, hx, hport, rfl⟩ := h
  obtain ⟨g', hpull, hport', hnodes⟩ := xpull_supplies hport
  simp only [pull_nodeSid, pullNode, hx, pullLpf, pullWithin_portSid, hpull]
  cases ws with
  | nil => exact ⟨g', rfl, prev, [], (hnodes n).trans hx, hport', rfl⟩
  | cons d rest =>
    exact ⟨_, rfl, _, rest, Streams.node_setNode_same .., ⟨hport'.words, hport'.usedUp_of_latched⟩, rfl⟩

end

/-- Settles O28: at first the node owes the smoothing of the port's whole sequence. -/
theorem lowPassSequence : Obligations.LowPassSequence := by
  intro n p w prev ws k s hf hprev ⟨hopen, hwords⟩ hx
  have howes : LpfOwes n p w s.streams (smoothed w prev (samplesOf ws)) :=
    ⟨prev, ws, hx, ⟨hwords, fun h => by simp [hopen] at h⟩, rfl⟩
  obtain ⟨t, hcollect, -⟩ := collect_replicate (formed_nodeSid n 0) (fun _ _ => live_of_lpfOwes)
    (fun _ _ => pull_lpf s.params.qdepth) k hf rfl howes
    fun _ hv => isElement_of_isSample (isSample_of_mem_smoothed hprev hv)
  exact ⟨t, hcollect⟩

end Sys2Proof.Proofs
end

section
/-! PROOFS. Low-pass plus high-pass is the saturated input, over two external ports with one finite sequence (spec
40_stream_tee R101, R102; 42_highpass R141, R144). -/

namespace Sys2Proof.Proofs

open Sys2Proof Sys2Proof.Machine Sys2Proof.Config

/-! ### The sequences -/

/-- The outputs of a high-pass filter of width `w` whose low-pass part starts at `prev`: what the smoothing takes away from
each saturated input (R141). -/
def highPassed (w : Width) (prev : Int) (xs : List Int) : List Int :=
  List.zipWith (sat24 · - ·) xs (smoothed w prev xs)

theorem length_smoothed (w : Width) (prev : Int) (xs : List Int) : (smoothed w prev xs).length = xs.length := by
  induction xs generalizing prev with
  | nil => rfl
  | cons x rest ih => exact congrArg (· + 1) (ih _)

theorem length_highPassed (w : Width) (prev : Int) (xs : List Int) : (highPassed w prev xs).length = xs.length := by
  rw [highPassed, List.length_zipWith, length_smoothed, min_self]

/-- What the smoothing takes away and what it leaves add up to the saturated input (R144). -/
theorem smoothed_add_highPassed (w : Width) (prev : Int) (xs : List Int) :
    List.zipWith (· + ·) (smoothed w prev xs) (highPassed w prev xs) = xs.map sat24 := by
  induction xs generalizing prev with
  | nil => rfl
  | cons x rest ih => exact congrArg₂ List.cons (add_sub_cancel _ _) (ih _)

/-- Every output of a high-pass filter that starts from a sample is the difference of two samples. -/
theorem isElement_of_mem_highPassed {w : Width} {prev v : Int} {xs : List Int} (hprev : IsSample prev)
    (h : v ∈ highPassed w prev xs) : IsElement v := by
  rw [highPassed, ← List.map_uncurry_zip_eq_zipWith] at h
  obtain ⟨⟨x, y⟩, hxy, rfl⟩ := List.mem_map.1 h
  exact isElement_sub (sat24_range x) (isSample_of_mem_smoothed hprev (List.of_mem_zip hxy).2)

/-- The samples a port delivers are saturated already. -/
theorem map_sat24_samplesOf (ws : List Word) : (samplesOf ws).map sat24 = samplesOf ws := by
  simp only [samplesOf, List.map_map, Function.comp_def, sat24_of_sample (sat24_range _)]

/-- A port with a finite sequence behind it supplies it. -/
theorem supplies_of_behind {s : State} {p : Fin 8} {ws : List Word} (h : Behind s p ws) : Supplies s.streams p ws := by
  obtain ⟨hopen, hwords⟩ := h
  exact ⟨hwords, fun hl => by simp [hopen] at hl⟩

/-! ### The high-pass node -/

/-- The high-pass node in slot `n` over port `p` owes what the smoothing of the port's samples takes away from them. -/
def HpfOwes (n : Fin 16) (p : Fin 8) (w : Width) (g : Streams) (owed : List Int) : Prop :=
  ∃ prev ws, g.node n = .hpf ⟨portSid p, w, prev⟩ ∧ Supplies g p ws ∧ highPassed w prev (samplesOf ws) = owed

section
variable {n : Fin 16} {p : Fin 8} {w : Width} {g g' : Streams} {owed : List Int}

theorem live_of_hpfOwes (h : HpfOwes n p w g owed) : g.live (nodeSid n 0) = true := by
  obtain ⟨prev, ws, hx, -⟩ := h
  rw [live_nodeSid, hx]
  rfl

/-- A pull of the node averages the next sample of the port into `PREV` and answers the rest of it; at the end of the
sequence it changes no node. -/
theorem pull_hpf (depth : QueueDepth) (h : HpfOwes n p w g owed) :
    ∃ g', pull depth (nodeSid n 0) g = .answer owed.head? g' ∧ HpfOwes n p w g' owed.tail := by
  obtain ⟨prev, ws, hx, hport, rfl⟩ := h
  obtain ⟨g', hpull, hport', hnodes⟩ := xpull_supplies hport
  simp only [pull_nodeSid, pullNode, hx, pullHpf, pullWithin_portSid, hpull]
  cases ws with
  | nil => exact ⟨g', rfl, prev, [], (hnodes n).trans hx, hport', rfl⟩
  | cons d rest =>
    exact ⟨_, rfl, _, rest, Streams.node_setNode_same .., ⟨hport'.words, hport'.usedUp_of_latched⟩, rfl⟩

/-- What a high-pass node owes is read off its slot and its port. -/
theorem HpfOwes.congr (h : HpfOwes n p w g owed) (hnode : g'.node n = g.node n)
    (hport : g'.xeos[p] = g.xeos[p] ∧ g'.xs[p] = g.xs[p]) : HpfOwes n p w g' owed := by
  obtain ⟨prev, ws, hx, ⟨hwords, hlatch⟩, howed⟩ := h
  obtain ⟨heos, hxs⟩ := hport
  exact ⟨prev, ws, hnode.trans hx, ⟨hxs.trans hwords, heos ▸ hlatch⟩, howed⟩

end

/-! ### Two filters side by side -/

/-- Upstream of a node whose one source is a port there are its own stream and that port. -/
theorem feeds_of_portSource {n : Fin 16} {c : Fin 8} {p : Fin 8} {g : Streams} {r : Sid}
    (hsrc : (g.node n).sources = [portSid p]) (h : Feeds g (nodeSid n c) r) : r = nodeSid n c ∨ r = portSid p := by
  induction h with
  | self => exact .inl rfl
  | source mid src _ hnode hmem ih =>
    obtain rfl | rfl := ih
    · rw [slot_nodeSid, hsrc] at hmem
      exact .inr (List.mem_singleton.1 hmem)
    · simp [isPort_portSid] at hnode

/-- A pull of such a node leaves every other slot and every other port alone. -/
theorem pull_portSource_frame {depth : QueueDepth} {n : Fin 16} {c : Fin 8} {p : Fin 8} {g g' : Streams} {v : Option Int}
    (hsrc : (g.node n).sources = [portSid p]) (hpull : pull depth (nodeSid n c) g = .answer v g') :
    (∀ m ≠ n, g'.node m = g.node m) ∧ ∀ q ≠ p, g'.xeos[q] = g.xeos[q] ∧ g'.xs[q] = g.xs[q] := by
  have huntouched := pull_untouched depth (nodeSid n c) g
  rw [hpull] at huntouched
  refine ⟨fun m hm => huntouched.nodes m fun r hr hnode => ?_, fun q hq => huntouched.ports q fun r hr hport => ?_⟩
  · obtain rfl | rfl := feeds_of_portSource hsrc hr
    · rw [slot_nodeSid]
      exact hm.symm
    · simp [isPort_portSid] at hnode
  · obtain rfl | rfl := feeds_of_portSource hsrc hr
    · simp [isPort_nodeSid] at hport
    · rw [port_portSid]
      exact hq.symm

/-- A low-pass node over port `p` owes a sequence, and a high-pass node over port `q` owes `highs`. -/
def PairOwes (a b : Fin 16) (p q : Fin 8) (w : Width) (highs : List Int) (g : Streams) (lows : List Int) : Prop :=
  LpfOwes a p w g lows ∧ HpfOwes b q w g highs

/-- A pull of the low-pass node of a pair takes nothing of what the high-pass node owes. -/
theorem pull_pair_lpf {a b : Fin 16} {p q : Fin 8} {w : Width} {highs lows : List Int} {g : Streams} (hpq : p ≠ q)
    (depth : QueueDepth) (h : PairOwes a b p q w highs g lows) :
    ∃ g', pull depth (nodeSid a 0) g = .answer lows.head? g' ∧ PairOwes a b p q w highs g' lows.tail := by
  obtain ⟨hlow, hhigh⟩ := h
  obtain ⟨g', hpull, hlow'⟩ := pull_lpf depth hlow
  obtain ⟨_, _, hx, -⟩ := hlow
  have hba : b ≠ a := by
    rintro rfl
    obtain ⟨_, _, hy, -⟩ := hhigh
    simp [hx] at hy
  obtain ⟨hnodes, hports⟩ := pull_portSource_frame (by rw [hx]; rfl) hpull
  exact ⟨g', hpull, hlow', hhigh.congr (hnodes b hba) (hports q hpq.symm)⟩

/-! ### The law -/

/-- As many pulls as a stream owes elements deliver just those. -/
theorem collect_owed {Owes : Streams → List Int → Prop} {sid : Sid} {s : State} {owed : List Int}
    (hformed : sidFormed sid = true) (hlive : ∀ g owed, Owes g owed → g.live sid = true)
    (hpull : ∀ g owed, Owes g owed → ∃ g', pull s.params.qdepth sid g = .answer owed.head? g' ∧ Owes g' owed.tail)
    (hf : s.faulted = false) (howes : Owes s.streams owed) (hel : ∀ v ∈ owed, IsElement v) :
    ∃ t, collect (List.replicate owed.length sid) s = some (owed.map some, t) ∧ t.faulted = false ∧
      Owes t.streams [] := by
  obtain ⟨t, hcollect, hf', -, howes'⟩ := collect_replicate hformed hlive hpull owed.length hf rfl howes hel
  have hall : ((List.range owed.length).map fun j => owed[j]?) = owed.map some :=
    List.ext_getElem (by simp) fun j _ _ => by simp
  rw [List.drop_length] at howes'
  exact ⟨t, hall ▸ hcollect, hf', howes'⟩

/-- Settles O29: while the low-pass node delivers the smoothing, the high-pass node keeps owing what the smoothing takes
away, and then delivers it. -/
theorem reconstructionLaw : Obligations.ReconstructionLaw := by
  intro a b p q w ws s hf hpq hp hq hlpf hhpf
  have howes : PairOwes a b p q w (highPassed w 0 (samplesOf ws)) s.streams (smoothed w 0 (samplesOf ws)) :=
    ⟨⟨0, ws, hlpf, supplies_of_behind hp, rfl⟩, ⟨0, ws, hhpf, supplies_of_behind hq, rfl⟩⟩
  have hlen : (samplesOf ws).length = ws.length := List.length_map _
  have hlows := (length_smoothed w 0 (samplesOf ws)).trans hlen
  have hhighs := (length_highPassed w 0 (samplesOf ws)).trans hlen
  obtain ⟨t, ht, hft, -, howest⟩ := collect_owed (formed_nodeSid a 0) (fun _ _ h => live_of_lpfOwes h.1)
    (fun _ _ => pull_pair_lpf hpq _) hf howes fun _ hv => isElement_of_isSample (isSample_of_mem_smoothed isSample_zero hv)
  obtain ⟨u, hu, -⟩ := collect_owed (formed_nodeSid b 0) (fun _ _ => live_of_hpfOwes) (fun _ _ => pull_hpf _) hft howest
    fun _ => isElement_of_mem_highPassed isSample_zero
  rw [hlows] at ht
  rw [hhighs] at hu
  exact ⟨_, _, t, u, ht, hu, hlows, hhighs, (smoothed_add_highPassed ..).trans (map_sat24_samplesOf ws)⟩

end Sys2Proof.Proofs
end

section
/-! PROOFS. The deinterleave law over an external port with a finite sequence (spec 40_stream_tee R102; 43_interleave R151,
R152, R153). -/

namespace Sys2Proof.Proofs

open Sys2Proof Sys2Proof.Machine Sys2Proof.Config

/-! ### The channels of a sequence -/

/-- What port `k` of a deinterleaver with `c` channels is to deliver of a sequence: the elements at `k, k+c, k+2c, ...` of its
whole frames (R152, R153). -/
def channel (c : Nat) (k : Fin 8) (xs : List Int) : List Int :=
  (List.range (xs.length / c)).map fun j => xs.getD (j * c + k.val) 0

section
variable {c : Nat} {k : Fin 8} {xs : List Int}

/-- A sequence shorter than a frame has no whole frame. -/
theorem channel_of_short (h : xs.length < c) : channel c k xs = [] := by
  rw [channel, Nat.div_eq_of_lt h]
  rfl

/-- Otherwise the channel begins with its element of the first frame. -/
theorem channel_of_frame (hk : k.val < c) (h : c ≤ xs.length) :
    channel c k xs = (xs.take c).getD k.val 0 :: channel c k (xs.drop c) := by
  have hdiv : xs.length / c = (xs.length - c) / c + 1 := Nat.div_eq_sub_div (by omega) h
  have hnext : ∀ j, (j + 1) * c + k.val = c + (j * c + k.val) := fun j => by
    rw [Nat.succ_mul]
    omega
  simp [channel, hdiv, List.range_succ_eq_map, hnext, hk]

/-- Element `j` of a channel is that of frame `j`, if there are so many whole frames. -/
theorem getElem?_channel (hk : k.val < c) (j : Nat) :
    (channel c k xs)[j]? = if j < xs.length / c then xs[j * c + k.val]? else none := by
  split
  next hj =>
    have hlt : j * c + k.val < xs.length := by
      calc j * c + k.val < (j + 1) * c := by rw [Nat.succ_mul]; omega
        _ ≤ xs.length := (Nat.le_div_iff_mul_le (by omega)).1 hj
    simp [channel, hj, hlt]
  next hj => simpa [channel] using hj

/-- A channel has no element but those of the sequence. -/
theorem mem_of_mem_channel (hk : k.val < c) {v : Int} (h : v ∈ channel c k xs) : v ∈ xs := by
  obtain ⟨j, hj⟩ := List.mem_iff_getElem?.1 h
  rw [getElem?_channel hk] at hj
  split at hj
  · exact List.mem_of_getElem? hj
  · cases hj

end

/-! ### Fetching a frame from a port -/

section
variable {depth : QueueDepth} {fuel m : Nat} {p : Fin 8} {ws : List Word} {taken : List Int} {g : Streams}

/-- Putting a node into a slot changes nothing behind a port. -/
theorem Supplies.setNode (h : Supplies g p ws) (n : Fin 16) (x : Node) : Supplies (g.setNode n x) p ws :=
  ⟨h.words, h.usedUp_of_latched⟩

/-- A port with a frame's words behind it supplies their samples. -/
theorem fetchFrame_full_of_supplies (h : Supplies g p ws) (hlen : m ≤ ws.length) :
    ∃ g', fetchFrame (pullWithin depth (fuel + 1)) (List.replicate m (portSid p)) taken g =
        .full (taken ++ (samplesOf ws).take m) g' ∧ Supplies g' p (ws.drop m) ∧ ∀ n, g'.node n = g.node n := by
  induction m generalizing ws taken g with
  | zero => exact ⟨g, by simp [fetchFrame], h, fun _ => rfl⟩
  | succ m ih =>
    obtain ⟨g₁, hpull, hport, hnodes⟩ := xpull_supplies h
    cases ws with
    | nil => simp at hlen
    | cons d rest =>
      obtain ⟨g', hfetch, hport', hnodes'⟩ := ih (taken := taken ++ [sat24 (sext32 d)]) hport (by simpa using hlen)
      refine ⟨g', ?_, hport', fun n => (hnodes' n).trans (hnodes n)⟩
      rw [List.replicate_succ, fetchFrame, pullWithin_portSid, hpull]
      exact hfetch.trans (by rw [List.append_assoc]; rfl)

/-- A port with fewer words behind it than a frame has ends the fetch, and is used up. -/
theorem fetchFrame_ended_of_supplies (h : Supplies g p ws) (hlen : ws.length < m) :
    ∃ part g', fetchFrame (pullWithin depth (fuel + 1)) (List.replicate m (portSid p)) taken g = .ended part g' ∧
      Supplies g' p [] ∧ ∀ n, g'.node n = g.node n := by
  induction m generalizing ws taken g with
  | zero => omega
  | succ m ih =>
    obtain ⟨g₁, hpull, hport, hnodes⟩ := xpull_supplies h
    rw [List.replicate_succ, fetchFrame, pullWithin_portSid, hpull]
    cases ws with
    | nil => exact ⟨taken, g₁, rfl, hport, hnodes⟩
    | cons d rest =>
      obtain ⟨part, g', hfetch, hport', hnodes'⟩ := ih (taken := taken ++ [sat24 (sext32 d)]) hport (by simpa using hlen)
      exact ⟨part, g', hfetch, hport', fun n => (hnodes' n).trans (hnodes n)⟩

end

/-! ### The pull of a deinterleaver -/

section
variable {depth : QueueDepth} {pull : Sid → Streams → Pulled} {n : Fin 16} {c : Fin 8} {d : DilNode} {g g' : Streams}

/-- A pull of a port with a backlog answers the first element of it. -/
theorem pullDil_backlog {v : Int} {rest : List Int} (hq : d.q[c] = v :: rest) :
    pullDil depth pull n c d g = .answer (some v) (g.setNode n (.dil { d with q := d.q.set c rest })) := by
  simp only [pullDil, hq]

/-- A frame that every other channel has room for is queued whole. -/
theorem queueOthers_room {q : Vector (List Int) 8} {frame : List Int} (hlen : frame.length ≤ 8)
    (hroom : ∀ j : Fin 8, j.val < frame.length → j ≠ c → queueFull depth q[j] = false) :
    queueOthers depth c ((List.finRange 8).zip frame) q = (true, queuedBelow c q frame frame.length) := by
  rw [queueOthers_below le_rfl hlen hroom, List.drop_eq_nil_of_le (by simp), queueOthers]

/-- A pull of a port without a backlog draws a frame, answers its own element, and queues the others where there is room. -/
theorem pullDil_frame {frame : List Int} (hq : d.q[c] = []) (hdone : d.done = false) (hc : c.val < d.c.val)
    (hroom : ∀ j : Fin 8, j.val < d.c.val → j ≠ c → queueFull depth d.q[j] = false)
    (hfetch : fetchFrame pull (List.replicate d.c.val d.src) [] g = .full frame g') :
    pullDil depth pull n c d g =
      .answer (some (frame.getD c.val 0)) (g'.setNode n (.dil { d with q := queuedBelow c d.q frame d.c.val })) := by
  have hlen : frame.length = d.c.val := by simpa using fetchFrame_full_length hfetch
  have hget : frame[c.val]? = some (frame.getD c.val 0) := by simp [hlen, hc]
  have hqueue := queueOthers_room (depth := depth) (c := c) (hlen.trans_le d.c.2.2) (hlen ▸ hroom)
  rw [hlen] at hqueue
  simp only [pullDil, hq, hdone, hfetch, hget, hqueue, Bool.false_eq_true, if_false]

/-- A pull of a port without a backlog that meets the end of the source before a whole frame sets `DONE`. -/
theorem pullDil_ended {part : List Int} (hq : d.q[c] = []) (hdone : d.done = false)
    (hfetch : fetchFrame pull (List.replicate d.c.val d.src) [] g = .ended part g') :
    pullDil depth pull n c d g = .answer none (g'.setNode n (.dil { d with done := true })) := by
  simp only [pullDil, hq, hdone, hfetch, Bool.false_eq_true, if_false]

end

/-! ### What a deinterleaver owes its ports -/

/-- With `owed` owed to the ports of node `n`, a pull of port `k` answers the first element owed to that port, or `None` if
nothing is, and leaves owed what is left of it, and to the other ports the same. -/
def PullTakes (Owes : Streams → (Fin 8 → List Int) → Prop) (depth : QueueDepth) (n : Fin 16) (k : Fin 8) (g : Streams)
    (owed : Fin 8 → List Int) : Prop :=
  ∃ g', pull depth (nodeSid n k) g = .answer (owed k).head? g' ∧ Owes g' (Function.update owed k (owed k).tail)

/-- The deinterleaver `d` stands in slot `n`, over port `p` with the words `ws` behind it, which `DONE` says are used up. -/
structure DilOver (n : Fin 16) (p : Fin 8) (d : DilNode) (ws : List Word) (g : Streams) : Prop where
  node : g.node n = .dil d
  src : d.src = portSid p
  port : Supplies g p ws
  usedUp_of_done : d.done = true → ws = []

/-- What is owed to port `k`: its backlog, and then its channel of what the source supplies. -/
def dilOwed (d : DilNode) (ws : List Word) (k : Fin 8) : List Int := d.q[k] ++ channel d.c.val k (samplesOf ws)

/-- The deinterleaver in slot `n` with `c` channels over port `p` owes each of its ports a sequence. -/
def DilOwes (n : Fin 16) (p : Fin 8) (c : Channels) (g : Streams) (owed : Fin 8 → List Int) : Prop :=
  ∃ d ws, DilOver n p d ws g ∧ d.c = c ∧ ∀ k : Fin 8, k.val < c.val → dilOwed d ws k = owed k

section
variable {n : Fin 16} {p : Fin 8} {d d' : DilNode} {ws ws' : List Word} {g g' : Streams} {k : Fin 8}

/-- Putting a deinterleaver back into its slot, over a port that supplies `ws'`. -/
theorem DilOver.of_setNode (hsrc : d'.src = portSid p) (hport : Supplies g' p ws') (hdone : d'.done = true → ws' = []) :
    DilOver n p d' ws' (g'.setNode n (.dil d')) where
  node := Streams.node_setNode_same ..
  src := hsrc
  port := hport.setNode ..
  usedUp_of_done := hdone

/-- If a pull takes the first element off what is owed to the port pulled and leaves what is owed to the others, the
deinterleaver owes what it should. -/
theorem DilOver.owes (h : DilOver n p d' ws' g') (hc : d'.c = d.c) (hk : dilOwed d' ws' k = (dilOwed d ws k).tail)
    (hother : ∀ j : Fin 8, j.val < d.c.val → j ≠ k → dilOwed d' ws' j = dilOwed d ws j) :
    DilOwes n p d.c g' (Function.update (dilOwed d ws) k (dilOwed d ws k).tail) := by
  refine ⟨d', ws', h, hc, fun j hj => ?_⟩
  by_cases hjk : j = k
  · subst hjk
    rw [hk, Function.update_self]
  · rw [hother j hj hjk, Function.update_of_ne hjk]

/-- Of fewer words than a frame has, only the backlog is owed. -/
theorem owed_of_short (hlen : ws.length < d.c.val) : dilOwed d ws k = d.q[k] := by
  rw [dilOwed, channel_of_short (by simpa [samplesOf] using hlen), List.append_nil]

/-- Of more words, the element of the first frame is owed after the backlog. -/
theorem owed_of_frame (hk : k.val < d.c.val) (hlen : d.c.val ≤ ws.length) : dilOwed d ws k =
    d.q[k] ++ ((samplesOf ws).take d.c.val).getD k.val 0 :: channel d.c.val k (samplesOf (ws.drop d.c.val)) := by
  rw [dilOwed, channel_of_frame hk (by simpa [samplesOf] using hlen), samplesOf, samplesOf, List.map_drop]

/-- A pull of a port with a backlog takes the first element owed. -/
theorem pull_dil_backlog (h : DilOver n p d ws g) {v : Int} {rest : List Int} (hq : d.q[k] = v :: rest) :
    PullTakes (DilOwes n p d.c) .unbounded n k g (dilOwed d ws) := by
  refine ⟨_, ?_, DilOver.owes (.of_setNode (d' := { d with q := d.q.set k rest }) h.src h.port h.usedUp_of_done) rfl ?_
    fun j _ hjk => ?_⟩
  · simp only [pull_nodeSid, pullNode, h.node, pullDil_backlog hq, dilOwed, hq]
    rfl
  · simp [dilOwed, hq]
  · simp [dilOwed, Fin.val_ne_of_ne (Ne.symm hjk)]

/-- A pull of a port without a backlog, with a frame's words behind the source, draws them. -/
theorem pull_dil_frame (h : DilOver n p d ws g) (hq : d.q[k] = []) (hdone : d.done = false) (hk : k.val < d.c.val)
    (hlen : d.c.val ≤ ws.length) : PullTakes (DilOwes n p d.c) .unbounded n k g (dilOwed d ws) := by
  obtain ⟨g', hfetch, hport, -⟩ :=
    fetchFrame_full_of_supplies (depth := .unbounded) (fuel := 15) (taken := []) h.port hlen
  rw [← h.src, List.nil_append] at hfetch
  refine ⟨_, ?_, DilOver.owes (.of_setNode
    (d' := { d with q := queuedBelow k d.q ((samplesOf ws).take d.c.val) d.c.val }) h.src hport ?_) rfl ?_
    fun j hj hjk => ?_⟩
  · simp only [pull_nodeSid, pullNode, h.node,
      pullDil_frame hq hdone hk (fun _ _ _ => queueFull_unbounded) hfetch, owed_of_frame hk hlen, hq]
    rfl
  · simp [hdone]
  · rw [owed_of_frame hk hlen, dilOwed, getElem_queuedBelow, if_neg (by simp), hq]
    rfl
  · rw [owed_of_frame hj hlen, dilOwed, getElem_queuedBelow, if_pos ⟨hj, hjk⟩, List.append_assoc]
    rfl

/-- A pull of a port without a backlog, with less than a frame's words behind the source, drops them. -/
theorem pull_dil_ended (h : DilOver n p d ws g) (hq : d.q[k] = []) (hdone : d.done = false)
    (hlen : ws.length < d.c.val) : PullTakes (DilOwes n p d.c) .unbounded n k g (dilOwed d ws) := by
  obtain ⟨part, g', hfetch, hport, -⟩ :=
    fetchFrame_ended_of_supplies (depth := .unbounded) (fuel := 15) (taken := []) h.port hlen
  rw [← h.src] at hfetch
  have howed : ∀ j, dilOwed { d with done := true } [] j = dilOwed d ws j := fun j =>
    (owed_of_short (ws := []) d.c.2.1).trans (owed_of_short hlen).symm
  refine ⟨_, ?_, DilOver.owes (.of_setNode (d' := { d with done := true }) h.src hport fun _ => rfl) rfl ?_
    fun j _ _ => howed j⟩
  · simp only [pull_nodeSid, pullNode, h.node, pullDil_ended hq hdone hfetch, owed_of_short hlen, hq]
    rfl
  · rw [howed, owed_of_short hlen, hq]
    rfl

end

section
variable {n : Fin 16} {p : Fin 8} {c : Channels} {g : Streams} {owed : Fin 8 → List Int}

theorem live_of_dilOwes (h : DilOwes n p c g owed) {k : Fin 8} (hk : k.val < c.val) :
    g.live (nodeSid n k) = true := by
  obtain ⟨d, ws, hd, rfl, -⟩ := h
  rw [live_nodeSid, hd.node, delivers_dil, decide_eq_true hk]

/-- A pull of a port answers the first element owed to it, or `None` if nothing is, and that is no longer owed; what is owed
to the other ports is the same. -/
theorem pull_dil (h : DilOwes n p c g owed) {k : Fin 8} (hk : k.val < c.val) :
    PullTakes (DilOwes n p c) .unbounded n k g owed := by
  obtain ⟨d, ws, hd, rfl, howed⟩ := h
  have hstep : PullTakes (DilOwes n p d.c) .unbounded n k g (dilOwed d ws) := by
    cases hq : d.q[k] with
    | cons v rest => exact pull_dil_backlog hd hq
    | nil =>
      cases hdone : d.done with
      | true =>
        obtain rfl := hd.usedUp_of_done hdone
        have hnone : dilOwed d [] k = [] := (owed_of_short (ws := []) d.c.2.1).trans hq
        refine ⟨g, ?_, hd.owes rfl (by rw [hnone]; rfl) fun _ _ _ => rfl⟩
        simp only [pull_nodeSid, pullNode, hd.node, pullDil_of_done hq hdone, hnone]
        rfl
      | false =>
        obtain hlen | hlen := Nat.lt_or_ge ws.length d.c.val
        · exact pull_dil_ended hd hq hdone hlen
        · exact pull_dil_frame hd hq hdone hk hlen
  obtain ⟨g', hpull, d', ws', hd', hc, howed'⟩ := hstep
  rw [howed k hk] at hpull howed'
  refine ⟨g', hpull, d', ws', hd', hc, fun j hj => (howed' j hj).trans ?_⟩
  by_cases hjk : j = k
  · subst hjk
    rw [Function.update_self, Function.update_self]
  · rw [Function.update_of_ne hjk, Function.update_of_ne hjk, howed j hj]

end

/-! ### The law -/

/-- Whatever the order in which usable ports of a node are pulled, each delivers what is owed to it, element for element, and
then `END`, if each pull takes what it delivers off what is owed. -/
theorem collect_ports {Owes : Streams → (Fin 8 → List Int) → Prop} {n : Fin 16} {depth : QueueDepth}
    {usable : Fin 8 → Prop}
    (hlive : ∀ g owed k, Owes g owed → usable k → g.live (nodeSid n k) = true)
    (hpull : ∀ g owed k, Owes g owed → usable k → PullTakes Owes depth n k g owed)
    {ports : List (Fin 8)} (hports : ∀ k ∈ ports, usable k) {s : State} {owed : Fin 8 → List Int} (hf : s.faulted = false)
    (hdepth : s.params.qdepth = depth) (howes : Owes s.streams owed) (hel : ∀ k, usable k → ∀ v ∈ owed k, IsElement v) :
    ∃ outs t, collect (ports.map (nodeSid n)) s = some (outs, t) ∧
      ∀ k : Fin 8, ((ports.zip outs).filter (·.1 == k)).map Prod.snd =
        (List.range (ports.count k)).map fun j => (owed k)[j]? := by
  induction ports generalizing s owed with
  | nil => exact ⟨[], s, rfl, fun _ => rfl⟩
  | cons k rest ih =>
    have hk := hports k (.head _)
    obtain ⟨g, hanswer, howes'⟩ := hpull _ _ k howes hk
    have hel' := (Function.forall_update_iff owed fun j l => usable j → ∀ v ∈ l, IsElement v).2
      ⟨fun hk v hv => hel k hk v (List.mem_of_mem_tail hv), fun j _ => hel j⟩
    obtain ⟨outs, t, hrest, houts⟩ := ih (fun j hj => hports j (.tail _ hj)) (s := afterAnswer s (owed k).head? g) hf hdepth
      howes' hel'
    refine ⟨(owed k).head? :: outs, t, ?_, fun j => ?_⟩
    · rw [List.map_cons, collect_cons hf (formed_nodeSid ..) (hlive _ _ k howes hk) (hdepth ▸ hanswer) fun v hv =>
        hel k hk v (List.mem_of_head? hv), hrest]
      rfl
    · have hj := houts j
      by_cases hjk : j = k
      · subst hjk
        rw [Function.update_self] at hj
        simp [hj, List.range_succ_eq_map, List.head?_eq_getElem?]
      · rw [Function.update_of_ne hjk] at hj
        simp [hj, Ne.symm hjk]

/-- Settles O31: at first each port is owed its channel of the port's whole sequence. -/
theorem deinterleaveLaw : Obligations.DeinterleaveLaw := by
  intro n p c ws ports s hf hdepth hbehind hx hports
  have howes : DilOwes n p c s.streams fun k => channel c.val k (samplesOf ws) :=
    ⟨_, ws, ⟨hx, rfl, supplies_of_behind hbehind, nofun⟩, rfl, fun k _ => by simp [dilOwed]⟩
  obtain ⟨outs, t, hcollect, houts⟩ := collect_ports (usable := fun k => k.val < c.val)
    (fun _ _ _ h hk => live_of_dilOwes h hk) (fun _ _ _ h hk => pull_dil h hk) hports hf hdepth howes
    fun k hk _ hv => isElement_of_mem_samplesOf (mem_of_mem_channel hk hv)
  refine ⟨outs, t, hcollect, fun k => (houts k).trans ?_⟩
  by_cases hk : k.val < c.val
  · simp only [getElem?_channel hk, samplesOf, List.length_map]
  · rw [List.count_eq_zero.2 fun hmem => hk (hports k hmem)]
    rfl

end Sys2Proof.Proofs
end

section
/-! PROOFS. The round trip from a deinterleaver over an external port with a finite sequence through an interleaver bound to
its ports (spec 40_stream_tee R102; 43_interleave R151, R157, R159). -/

namespace Sys2Proof.Proofs

open Sys2Proof Sys2Proof.Machine Sys2Proof.Config

/-! ### The whole frames of a sequence -/

/-- The whole frames of `c` elements a sequence begins with (R159). -/
def wholeFrames (c : Nat) (xs : List Int) : List Int := xs.take (xs.length / c * c)

section
variable {c : Nat} {xs : List Int}

theorem wholeFrames_of_short (h : xs.length < c) : wholeFrames c xs = [] := by
  rw [wholeFrames, Nat.div_eq_of_lt h, Nat.zero_mul, List.take_zero]

/-- The first whole frame comes before those of what is left. -/
theorem wholeFrames_of_frame (hc : 0 < c) (h : c ≤ xs.length) :
    wholeFrames c xs = xs.take c ++ wholeFrames c (xs.drop c) := by
  have hdiv : xs.length / c * c = c + (xs.length - c) / c * c := by
    rw [Nat.div_eq_sub_div hc h, Nat.succ_mul, Nat.add_comm]
  rw [wholeFrames, wholeFrames, hdiv, List.take_add, List.length_drop]

end

/-! ### A frame that is taken off a deinterleaver channel by channel -/

/-- The queues of a deinterleaver of which the channels from `i` on hold their element of a frame. -/
def heldFrom (frame : List Int) (i : Nat) : Vector (List Int) 8 :=
  Vector.ofFn fun j : Fin 8 => if i ≤ j.val then frame[j.val]?.toList else []

section
variable {frame : List Int}

theorem getElem_heldFrom (i : Nat) (j : Fin 8) :
    (heldFrom frame i)[j] = if i ≤ j.val then frame[j.val]?.toList else [] := by
  simp [heldFrom]

/-- No channel holds an element from the end of the frame on. -/
theorem heldFrom_of_length_le {i : Nat} (h : frame.length ≤ i) : heldFrom frame i = Vector.replicate 8 [] := by
  refine queues_ext fun j => ?_
  rw [getElem_heldFrom]
  split
  next hj => simp [List.getElem?_eq_none (h.trans hj)]
  next => simp

/-- Taking its element off the first channel that holds one leaves those after it. -/
theorem heldFrom_set (i : Fin 8) : (heldFrom frame i.val).set i [] = heldFrom frame (i.val + 1) := by
  refine queues_ext fun j => ?_
  by_cases hij : i.val = j.val
  · cases Fin.ext hij
    rw [getElem_heldFrom, if_neg (by omega)]
    simp
  · have hiff : i.val ≤ j.val ↔ i.val + 1 ≤ j.val := by omega
    have hset : ((heldFrom frame i.val).set i [])[j] = (heldFrom frame i.val)[j] := by simp [hij]
    simp only [hset, getElem_heldFrom, hiff]

/-- A frame drawn by a pull of channel 0 is held from channel 1 on. -/
theorem queuedBelow_eq_heldFrom : queuedBelow 0 (Vector.replicate 8 []) frame frame.length = heldFrom frame 1 := by
  refine queues_ext fun j => ?_
  rw [getElem_queuedBelow, getElem_heldFrom]
  obtain hj | hj := Nat.lt_or_ge j.val frame.length
  · have hiff : j ≠ 0 ↔ 1 ≤ j.val := by rw [Ne, Fin.ext_iff]; simp; omega
    simp [hj, hiff]
  · simp [Nat.not_lt.2 hj]

end

/-- A deinterleaver over port `p` of which the channels from `i` on hold their element of a frame. -/
def dilHolding (p : Fin 8) (c : Channels) (frame : List Int) (i : Nat) : Node :=
  .dil ⟨portSid p, c, heldFrom frame i, false⟩

/-- A deinterleaver over port `p` with no backlog. -/
def dilEmpty (p : Fin 8) (c : Channels) : Node := .dil ⟨portSid p, c, Vector.replicate 8 [], false⟩

/-- The streams of the ports of a deinterleaver in slot `a`, in order. -/
def dilPorts (a : Fin 16) (c : Channels) : List Sid := ((List.finRange 8).take c.val).map (nodeSid a)

theorem dilPorts_drop (a : Fin 16) {c : Channels} {i : Fin 8} (hi : i.val < c.val) :
    (dilPorts a c).drop i.val = nodeSid a i :: (dilPorts a c).drop (i.val + 1) := by
  rw [List.drop_eq_getElem_cons (by simp [dilPorts, hi])]
  simp [dilPorts]

theorem dilPorts_cons (a : Fin 16) (c : Channels) : dilPorts a c = nodeSid a 0 :: (dilPorts a c).drop 1 :=
  dilPorts_drop a (i := 0) c.2.1

theorem pullWithin_nodeSid (depth : QueueDepth) (fuel : Nat) (n : Fin 16) (c : Fin 8) (g : Streams) :
    pullWithin depth (fuel + 1) (nodeSid n c) g = pullNode depth (pullWithin depth fuel) n c g := by
  rw [pullWithin_node depth fuel g (isPort_nodeSid n c), slot_nodeSid, port_nodeSid]

/-- Of two nodes put into a slot, the later one stays. -/
theorem setNode_setNode (g : Streams) (n : Fin 16) (x y : Node) : (g.setNode n x).setNode n y = g.setNode n y := by
  simp [Streams.setNode]

section
variable {depth : QueueDepth} {fuel : Nat} {a : Fin 16} {p : Fin 8} {c : Channels} {frame taken : List Int} {ws : List Word}
  {g : Streams}

/-- Pulling the ports from `i` on takes the frame they hold, and leaves no backlog. -/
theorem fetchFrame_held (hlen : frame.length = c.val) {i : Nat} (hi : i ≤ c.val) :
    fetchFrame (pullWithin depth (fuel + 1)) ((dilPorts a c).drop i) taken (g.setNode a (dilHolding p c frame i)) =
      .full (taken ++ frame.drop i) (g.setNode a (dilEmpty p c)) := by
  induction hm : c.val - i generalizing i taken with
  | zero =>
    rw [List.drop_eq_nil_of_le (by simp [dilPorts]; omega), List.drop_eq_nil_of_le (by omega), List.append_nil, fetchFrame,
      dilHolding, heldFrom_of_length_le (by omega), dilEmpty]
  | succ m ih =>
    obtain ⟨k, rfl⟩ : ∃ k : Fin 8, k.val = i := ⟨⟨i, by have := c.2.2; omega⟩, rfl⟩
    have hk : k.val < frame.length := by omega
    have hheld : (heldFrom frame k.val)[k] = [frame[k.val]] := by
      rw [getElem_heldFrom, if_pos le_rfl, List.getElem?_eq_getElem hk]
      rfl
    have hpull : pullWithin depth (fuel + 1) (nodeSid a k) (g.setNode a (dilHolding p c frame k.val)) =
        .answer (some frame[k.val]) (g.setNode a (dilHolding p c frame (k.val + 1))) := by
      simp only [pullWithin_nodeSid, pullNode, Streams.node_setNode_same, dilHolding]
      rw [pullDil_backlog (d := ⟨portSid p, c, heldFrom frame k.val, false⟩) hheld]
      simp only [heldFrom_set, setNode_setNode]
    rw [dilPorts_drop a (by omega), fetchFrame, hpull]
    exact (ih (by omega) (by omega)).trans (by rw [List.append_assoc, List.drop_eq_getElem_cons hk]; rfl)

/-- Pulling all ports of a deinterleaver without a backlog, with a frame's words behind its source, takes that frame, and
leaves no backlog, whatever the queue depth. -/
theorem fetchFrame_dilPorts_full (hx : g.node a = dilEmpty p c) (hport : Supplies g p ws) (hlen : c.val ≤ ws.length) :
    ∃ g', fetchFrame (pullWithin depth (fuel + 2)) (dilPorts a c) [] g = .full ((samplesOf ws).take c.val) g' ∧
      Supplies g' p (ws.drop c.val) ∧ g'.node a = dilEmpty p c := by
  obtain ⟨g₁, hfetch, hport', -⟩ :=
    fetchFrame_full_of_supplies (depth := depth) (fuel := fuel) (taken := []) hport hlen
  rw [List.nil_append] at hfetch
  have hframe : ((samplesOf ws).take c.val).length = c.val := by simpa [samplesOf] using hlen
  generalize (samplesOf ws).take c.val = frame at hfetch hframe
  have hzero : 0 < c.val := c.2.1
  have hfirst : 0 < frame.length := hframe ▸ hzero
  have hroom : ∀ j : Fin 8, queueFull depth (Vector.replicate 8 ([] : List Int))[j] = false := fun j => by
    cases depth <;> simp [queueFull]
  have hpull : pullWithin depth (fuel + 2) (nodeSid a 0) g =
      .answer (some frame[0]) (g₁.setNode a (dilHolding p c frame 1)) := by
    rw [pullWithin_nodeSid]
    simp only [pullNode, hx, dilEmpty]
    rw [pullDil_frame (by simp) rfl hzero (fun j _ _ => hroom j) hfetch]
    simp [dilHolding, ← queuedBelow_eq_heldFrom, hframe, hzero]
  refine ⟨g₁.setNode a (dilEmpty p c), ?_, hport'.setNode .., Streams.node_setNode_same ..⟩
  rw [dilPorts_cons, fetchFrame, hpull]
  refine (fetchFrame_held hframe c.2.1).trans ?_
  rw [List.nil_append, List.singleton_append, ← List.drop_eq_getElem_cons, List.drop_zero]

/-- With less than a frame's words behind the source, the pull of port 0 ends the fetch. -/
theorem fetchFrame_dilPorts_ended (hx : g.node a = dilEmpty p c) (hport : Supplies g p ws) (hlen : ws.length < c.val) :
    ∃ g', fetchFrame (pullWithin depth (fuel + 2)) (dilPorts a c) [] g = .ended [] g' ∧ Supplies g' p [] := by
  obtain ⟨part, g₁, hfetch, hport', -⟩ :=
    fetchFrame_ended_of_supplies (depth := depth) (fuel := fuel) (taken := []) hport hlen
  refine ⟨_, ?_, hport'.setNode a (.dil ⟨portSid p, c, Vector.replicate 8 [], true⟩)⟩
  rw [dilPorts_cons, fetchFrame, pullWithin_nodeSid]
  simp only [pullNode, hx, dilEmpty]
  rw [pullDil_ended (by simp) rfl hfetch]

end

/-! ### The frame buffer of an interleaver -/

/-- What is left of the frame an interleaver is emitting. -/
def pending (x : IlvNode) : List Int := if x.fv then (x.f.toList.take x.c.val).drop x.ph.toNat else []

/-- An interleaver that has emitted one element more of its frame. -/
def emitted (x : IlvNode) : IlvNode :=
  { x with fv := if x.ph.toNat = x.c.val - 1 then false else x.fv
           ph := if x.ph.toNat = x.c.val - 1 then 0 else x.ph + 1 }

/-- An interleaver that has just been given a frame to emit. -/
def given (x : IlvNode) (frame : List Int) : IlvNode := { x with f := writeFrame x.f frame, fv := true, ph := 0 }

section
variable {pull : Sid → Streams → Pulled} {n : Fin 16} {x : IlvNode} {sids : List Sid} {g g' : Streams}

/-- A pull of an interleaver with no frame begun, whose inputs supply one, emits its first element. -/
theorem pullIlv_full {frame : List Int} (hfv : x.fv = false) (hdone : x.done = false) (hin : x.inputs = some sids)
    (hfetch : fetchFrame pull sids [] g = .full frame g') : pullIlv pull n x g = emitFrame n (given x frame) g' := by
  simp only [pullIlv, hfv, hdone, hin, hfetch, given, Bool.false_eq_true, if_false]

/-- A pull of an interleaver with no frame begun, one of whose inputs meets its end, sets `DONE`. -/
theorem pullIlv_ended {part : List Int} (hfv : x.fv = false) (hdone : x.done = false) (hin : x.inputs = some sids)
    (hfetch : fetchFrame pull sids [] g = .ended part g') :
    pullIlv pull n x g = .answer none (g'.setNode n (.ilv { x with done := true, f := writeFrame x.f part })) := by
  simp only [pullIlv, hfv, hdone, hin, hfetch, Bool.false_eq_true, if_false]

theorem pending_of_fv_false (hfv : x.fv = false) : pending x = [] := if_neg (by simp [hfv])

/-- The next phase, before the last one. -/
theorem toNat_ph_succ (hph : x.ph.toNat < x.c.val) (hlast : x.ph.toNat ≠ x.c.val - 1) :
    (x.ph + 1).toNat = x.ph.toNat + 1 := by
  have hc := x.c.2.2
  have hlt : x.ph.toNat + 1 < 2 ^ 3 := by omega
  exact (BitVec.toNat_add ..).trans (Nat.mod_eq_of_lt hlt)

/-- The element emitted is the first one pending. -/
theorem pending_eq_cons (hfv : x.fv = true) (hph : x.ph.toNat < x.c.val) :
    pending x = x.f[x.ph.toNat] :: pending (emitted x) := by
  have hc := x.c.2.2
  rw [pending, if_pos hfv, List.drop_eq_getElem_cons (by simp; omega)]
  by_cases hlast : x.ph.toNat = x.c.val - 1
  · rw [pending_of_fv_false (by simp [emitted, hlast]), List.drop_eq_nil_of_le (by simp; omega)]
    simp
  · have hsucc := toNat_ph_succ hph hlast
    simp only [pending, emitted, hlast, hfv, hsucc, if_true, if_false]
    simp

/-- An interleaver that still has a frame has an element of it to emit. -/
theorem ph_emitted_lt (hph : x.ph.toNat < x.c.val) (hfv : (emitted x).fv = true) : (emitted x).ph.toNat < x.c.val := by
  by_cases hlast : x.ph.toNat = x.c.val - 1
  · simp [emitted, hlast] at hfv
  · have hsucc := toNat_ph_succ hph hlast
    simp only [emitted, hlast, if_false, hsucc]
    omega

/-- An interleaver that has just been given a frame is to emit all of it. -/
theorem pending_given {frame : List Int} (hlen : frame.length = x.c.val) : pending (given x frame) = frame := by
  have hc := x.c.2.2
  refine List.ext_getElem (by simp [pending, given]; omega) fun i _ hi => ?_
  simp [pending, given, writeFrame, hi]

end

/-! ### What the interleaver owes -/

/-- The interleaver `x` is bound in order to the ports of a deinterleaver in slot `a`, over port `p` with the words `ws`
behind it; until `DONE` the deinterleaver has no backlog, and then the words are used up. -/
structure RoundTrip (a : Fin 16) (p : Fin 8) (x : IlvNode) (ws : List Word) (g : Streams) : Prop where
  inputs : x.inputs = some (dilPorts a x.c)
  port : Supplies g p ws
  source : x.done = false → g.node a = dilEmpty p x.c
  usedUp_of_done : x.done = true → ws = []
  phase : x.fv = true → x.ph.toNat < x.c.val

/-- What the interleaver of a round trip owes: what is left of its frame, and then the whole frames of what the port
supplies. -/
def tripOwed (x : IlvNode) (ws : List Word) : List Int := pending x ++ wholeFrames x.c.val (samplesOf ws)

/-- With no frame begun and less than a frame's words left, nothing is owed. -/
theorem tripOwed_of_short {x : IlvNode} {ws : List Word} (hfv : x.fv = false) (hlen : ws.length < x.c.val) :
    tripOwed x ws = [] := by
  rw [tripOwed, pending_of_fv_false hfv, wholeFrames_of_short (by simpa [samplesOf] using hlen), List.append_nil]

/-- The interleaver in slot `b` of a round trip through slot `a` owes a sequence. -/
def TripOwes (a b : Fin 16) (p : Fin 8) (g : Streams) (owed : List Int) : Prop :=
  ∃ x ws, g.node b = .ilv x ∧ RoundTrip a p x ws g ∧ tripOwed x ws = owed

section
variable {depth : QueueDepth} {a b : Fin 16} {p : Fin 8} {x : IlvNode} {ws : List Word} {g : Streams} {owed : List Int}

theorem live_of_tripOwes (h : TripOwes a b p g owed) : g.live (nodeSid b 0) = true := by
  obtain ⟨x, ws, hx, htrip, -⟩ := h
  rw [live_nodeSid, hx]
  simp [delivers, Node.isFree, Node.typeCode, Node.nports, Node.complete, inputs_eq_some_iff.1 htrip.inputs]

/-- Emitting an element takes the first one owed. -/
theorem emitFrame_takes (hab : a ≠ b) (h : RoundTrip a p x ws g) (hfv : x.fv = true) :
    ∃ g', emitFrame b x g = .answer (tripOwed x ws).head? g' ∧ TripOwes a b p g' (tripOwed x ws).tail := by
  have hpending := pending_eq_cons hfv (h.phase hfv)
  refine ⟨g.setNode b (.ilv (emitted x)), ?_, emitted x, ws, Streams.node_setNode_same .., ?_, ?_⟩
  · rw [tripOwed, hpending]
    rfl
  · exact ⟨h.inputs, h.port.setNode .., fun hd => (Streams.node_setNode_other _ _ hab).trans (h.source hd), h.usedUp_of_done,
      ph_emitted_lt (h.phase hfv)⟩
  · rw [tripOwed, tripOwed, hpending]
    rfl

/-- A pull of the interleaver of a round trip takes the first element owed, or answers `None` if nothing is. -/
theorem pull_trip (hab : a ≠ b) (depth : QueueDepth) (h : TripOwes a b p g owed) :
    ∃ g', pull depth (nodeSid b 0) g = .answer owed.head? g' ∧ TripOwes a b p g' owed.tail := by
  obtain ⟨x, ws, hx, htrip, rfl⟩ := h
  have hcount : 0 < x.c.val := x.c.2.1
  have hlength : (samplesOf ws).length = ws.length := List.length_map _
  simp only [pull_nodeSid, pullNode, hx]
  cases hfv : x.fv with
  | true =>
    simp only [pullIlv, hfv, if_true]
    exact emitFrame_takes hab htrip hfv
  | false =>
    cases hdone : x.done with
    | true =>
      obtain rfl := htrip.usedUp_of_done hdone
      have howed : tripOwed x [] = [] := tripOwed_of_short hfv hcount
      refine ⟨g, ?_, x, [], hx, htrip, by rw [howed]; rfl⟩
      rw [pullIlv_of_done hfv hdone, howed]
      rfl
    | false =>
      obtain hlen | hlen := Nat.lt_or_ge ws.length x.c.val
      · obtain ⟨g', hfetch, hport⟩ :=
          fetchFrame_dilPorts_ended (depth := depth) (fuel := 14) (htrip.source hdone) htrip.port hlen
        rw [pullIlv_ended hfv hdone htrip.inputs hfetch, tripOwed_of_short hfv hlen]
        refine ⟨_, rfl, { x with done := true, f := writeFrame x.f [] }, [], Streams.node_setNode_same ..,
          ⟨htrip.inputs, hport.setNode .., nofun, fun _ => rfl, htrip.phase⟩,
          tripOwed_of_short (x := { x with done := true, f := writeFrame x.f [] }) (ws := []) hfv hcount⟩
      · obtain ⟨g', hfetch, hport, hsource⟩ :=
          fetchFrame_dilPorts_full (depth := depth) (fuel := 14) (htrip.source hdone) htrip.port hlen
        have howed : tripOwed x ws = tripOwed (given x ((samplesOf ws).take x.c.val)) (ws.drop x.c.val) := by
          rw [tripOwed, tripOwed, pending_of_fv_false hfv, pending_given (by simpa [hlength] using hlen),
            wholeFrames_of_frame hcount (hlength ▸ hlen), samplesOf, samplesOf, List.map_drop]
          rfl
        rw [pullIlv_full hfv hdone htrip.inputs hfetch, howed]
        exact emitFrame_takes hab
          ⟨htrip.inputs, hport, fun _ => hsource, fun h => absurd (hdone.symm.trans h) (by decide), fun _ => hcount⟩ rfl

end

/-! ### The law -/

/-- Inputs bound in order to the ports of a deinterleaver are those ports. -/
theorem inputs_of_bound {a : Fin 16} {x : IlvNode}
    (h : ∀ j : Fin 8, j.val < x.c.val → x.src[j] = some (nodeSid a j)) : x.inputs = some (dilPorts a x.c) := by
  refine inputs_eq_some_iff.2 (List.ext_getElem (by simp [dilPorts]) fun i hi _ => ?_)
  have hi : i < x.c.val ∧ i < 8 := by simpa using hi
  simpa [dilPorts] using h ⟨i, hi.2⟩ hi.1

/-- Settles O32: at first the interleaver owes the whole frames of the port's sequence. -/
theorem interleaveRoundTrip : Obligations.InterleaveRoundTrip := by
  intro a b p c x ws k s hf hbehind ha hb hc hfv hdone hbound
  subst hc
  have hab : a ≠ b := by
    rintro rfl
    cases ha.symm.trans hb
  have howes : TripOwes a b p s.streams ((samplesOf ws).take (ws.length / x.c.val * x.c.val)) :=
    ⟨x, ws, hb, ⟨inputs_of_bound hbound, supplies_of_behind hbehind, fun _ => ha, fun h => by simp [hdone] at h,
      fun h => by simp [hfv] at h⟩, by simp [tripOwed, pending_of_fv_false hfv, wholeFrames, samplesOf]⟩
  obtain ⟨t, hcollect, -⟩ := collect_replicate (formed_nodeSid b 0) (fun _ _ => live_of_tripOwes)
    (fun _ _ => pull_trip hab _) k hf rfl howes fun _ hv => isElement_of_mem_samplesOf (List.mem_of_mem_take hv)
  exact ⟨t, hcollect⟩

end Sys2Proof.Proofs
end

section
/-! PROOFS. The exact transform as one complex number: the facts of its magnitude, and a sinusoid at a bin centre (spec
44_spectral_analyzer R174, R175, R184). -/

namespace Sys2Proof.Proofs

open Sys2Proof Sys2Proof.Machine Sys2Proof.Config

/-- The primitive root of unity whose powers the transform of a window of length `L` weighs the samples with (R174). -/
noncomputable def twiddle (L : Nat) : ℂ := Complex.exp (2 * Real.pi * Complex.I / L)

/-- Bin `b` of the transform as one complex number (R174). -/
noncomputable def dft (w : List Int) (b : Nat) : ℂ :=
  ∑ n : Fin w.length, (w.get n : ℂ) * twiddle w.length ^ (-((b : ℤ) * n))

theorem twiddle_zpow (L : Nat) (k : ℤ) : twiddle L ^ k = Complex.exp ((2 * Real.pi * k / L : ℝ) * Complex.I) := by
  rw [twiddle, ← Complex.exp_int_mul]
  congr 1
  push_cast
  ring

theorem isPrimitiveRoot_twiddle {L : Nat} (hL : L ≠ 0) : IsPrimitiveRoot (twiddle L) L :=
  Complex.isPrimitiveRoot_exp L hL

theorem twiddle_ne_zero (L : Nat) : twiddle L ≠ 0 := Complex.exp_ne_zero _

/-- The conjugate of a power of the root is the opposite power. -/
theorem conj_twiddle_zpow (L : Nat) (k : ℤ) : (starRingEnd ℂ) (twiddle L ^ k) = twiddle L ^ (-k) := by
  have hangle : (2 * Real.pi * (-k : ℤ) / L : ℝ) = -(2 * Real.pi * k / L) := by
    push_cast
    ring
  rw [twiddle_zpow, twiddle_zpow, ← Complex.exp_conj, map_mul, Complex.conj_ofReal, Complex.conj_I, hangle,
    Complex.ofReal_neg, neg_mul, mul_neg]

/-- The two parts of the transform are the real and the imaginary part of `dft`. -/
theorem dft_eq (w : List Int) (b : Nat) : dft w b = ⟨dftRe w b, dftIm w b⟩ := by
  have hangle : ∀ n : Fin w.length, twiddle w.length ^ (-((b : ℤ) * n)) =
      Complex.exp ((-(2 * Real.pi * b * n / w.length) : ℝ) * Complex.I) := fun n => by
    rw [twiddle_zpow]
    congr 3
    push_cast
    ring
  simp only [dft, hangle]
  apply Complex.ext
  · simp [dftRe, Complex.exp_ofReal_mul_I_re, -Complex.ofReal_neg]
  · simp [dftIm, Complex.exp_ofReal_mul_I_im, -Complex.ofReal_neg]

theorem exactMag_eq_norm (w : List Int) (b : Nat) : exactMag w b = ‖dft w b‖ := by
  rw [dft_eq, exactMag, Complex.norm_eq_sqrt_sq_add_sq]

/-! ### The facts of R175 -/

theorem sum_get (w : List Int) : ∑ n : Fin w.length, (w.get n : ℂ) = ((w.sum : ℤ) : ℂ) := by
  rw [← Int.cast_sum, ← List.sum_ofFn, List.ofFn_get]

/-- Bin 0 is the sum of the samples. -/
theorem exactMag_zero (w : List Int) : exactMag w 0 = |((w.sum : ℤ) : ℝ)| := by
  have hdft : dft w 0 = ((w.sum : ℤ) : ℂ) := by rw [← sum_get, dft]; simp
  rw [exactMag_eq_norm, hdft, Complex.norm_intCast]

/-- The transform of real samples at bin `L - b` is the conjugate of that at bin `b`. -/
theorem dft_sub (w : List Int) {b : Nat} (hb : b < w.length) : dft w (w.length - b) = (starRingEnd ℂ) (dft w b) := by
  rw [dft, dft, map_sum]
  refine Finset.sum_congr rfl fun n _ => ?_
  have hexp : -(((w.length - b : Nat) : ℤ) * n) = (w.length : ℤ) * (-n) + b * n := by
    rw [Nat.cast_sub hb.le]
    ring
  have hone : twiddle w.length ^ (w.length : ℤ) = 1 := by
    rw [zpow_natCast, (isPrimitiveRoot_twiddle (by omega)).pow_eq_one]
  rw [map_mul, conj_twiddle_zpow, neg_neg, hexp, zpow_add₀ (twiddle_ne_zero _), zpow_mul, hone, one_zpow, one_mul,
    map_intCast]

theorem exactMag_sub (w : List Int) {b : Nat} (hb : b < w.length) : exactMag w (w.length - b) = exactMag w b := by
  rw [exactMag_eq_norm, exactMag_eq_norm, dft_sub w hb, Complex.norm_conj]

theorem exactMag_of_zeros {w : List Int} (h : ∀ x ∈ w, x = 0) (b : Nat) : exactMag w b = 0 := by
  have hdft : dft w b = 0 := Finset.sum_eq_zero fun n _ => by
    rw [h _ (List.get_mem w n), Int.cast_zero, zero_mul]
  rw [exactMag_eq_norm, hdft, norm_zero]

/-- Settles O45, a fact each. -/
theorem exactMagnitudeFacts : Obligations.ExactMagnitudeFacts := fun w =>
  ⟨fun _ => rfl, fun b => ⟨Real.sqrt_nonneg _, exactMag_le_absSum w b⟩, exactMag_zero w,
    fun _ _ hb => (exactMag_sub w hb).symm, fun x hx => by rw [hx, exactMag_zero, List.sum_singleton],
    exactMag_of_zeros⟩

/-! ### A sinusoid at a bin centre (R184) -/

/-- The powers of the root with exponents `k * n` cancel unless they are all 1. -/
theorem sum_twiddle_zpow {L : Nat} (hL : L ≠ 0) (k : ℤ) :
    ∑ n : Fin L, twiddle L ^ (k * n) = if (L : ℤ) ∣ k then (L : ℂ) else 0 := by
  have hprim := isPrimitiveRoot_twiddle hL
  have hgeom : ∑ n : Fin L, twiddle L ^ (k * n) = ∑ n ∈ Finset.range L, (twiddle L ^ k) ^ n := by
    rw [← Fin.sum_univ_eq_sum_range]
    exact Finset.sum_congr rfl fun n _ => by rw [zpow_mul, zpow_natCast]
  rw [hgeom]
  split
  next h => simp [(hprim.zpow_eq_one_iff_dvd k).2 h]
  next h =>
    have hne : twiddle L ^ k ≠ 1 := mt (hprim.zpow_eq_one_iff_dvd k).1 h
    have hone : (twiddle L ^ k) ^ L = 1 := by
      rw [← zpow_natCast, zpow_comm, zpow_natCast, hprim.pow_eq_one, one_zpow]
    rw [geom_sum_eq hne, hone, sub_self, zero_div]

/-- A sample of a sinusoid at bin `j` is half the difference of two opposite powers of the root, turned by the phase. -/
theorem sinusoid_eq (L j n : Nat) (phase : ℝ) :
    ((Real.sin (2 * Real.pi * j * n / L + phase) : ℝ) : ℂ) = Complex.I / 2 *
      (Complex.exp (-phase * Complex.I) * twiddle L ^ (-((j : ℤ) * n)) -
        Complex.exp (phase * Complex.I) * twiddle L ^ ((j : ℤ) * n)) := by
  rw [twiddle_zpow, twiddle_zpow, ← Complex.exp_add, ← Complex.exp_add, Complex.ofReal_sin, Complex.sin]
  push_cast
  ring_nf

section
variable {w : List Int} {amp phase : ℝ} {j : Nat}
  (hw : ∀ n : Fin w.length, (w.get n : ℝ) = amp * Real.sin (2 * Real.pi * j * n / w.length + phase))
include hw

/-- The transform of a sinusoid at bin `j`: what is left of the two powers of the root. -/
theorem dft_sinusoid (hL : w.length ≠ 0) (b : Nat) :
    dft w b = amp * Complex.I / 2 *
      (Complex.exp (-phase * Complex.I) * (if (w.length : ℤ) ∣ -(j + b) then (w.length : ℂ) else 0) -
        Complex.exp (phase * Complex.I) * (if (w.length : ℤ) ∣ j - b then (w.length : ℂ) else 0)) := by
  rw [← sum_twiddle_zpow hL, ← sum_twiddle_zpow hL, Finset.mul_sum, Finset.mul_sum, ← Finset.sum_sub_distrib,
    Finset.mul_sum, dft]
  refine Finset.sum_congr rfl fun n _ => ?_
  have hsample : (w.get n : ℂ) = ((w.get n : ℝ) : ℂ) := (Complex.ofReal_intCast _).symm
  have hneg : -((j : ℤ) + b) * n = -(j * n) + -(b * n) := by ring
  have hpos : ((j : ℤ) - b) * n = j * n + -(b * n) := by ring
  rw [hsample, hw n, Complex.ofReal_mul, sinusoid_eq, hneg, hpos, zpow_add₀ (twiddle_ne_zero _),
    zpow_add₀ (twiddle_ne_zero _)]
  ring

theorem exactMag_sinusoid_same (hamp : 0 ≤ amp) (hj : 0 < j) (hjL : 2 * j < w.length) :
    exactMag w j = amp * w.length / 2 := by
  have hsum : ¬(w.length : ℤ) ∣ -((j : ℤ) + j) := fun h => by
    have := Int.le_of_dvd (by omega) (dvd_neg.1 h)
    omega
  rw [exactMag_eq_norm, dft_sinusoid hw (by omega), if_neg hsum, if_pos (by simp), mul_zero, zero_sub]
  simp only [norm_mul, norm_div, norm_neg, Complex.norm_exp_ofReal_mul_I, Complex.norm_natCast, Complex.norm_I,
    Complex.norm_real, Real.norm_of_nonneg hamp, Complex.norm_two]
  ring

theorem exactMag_sinusoid_other (hjL : 2 * j < w.length) {b : Nat} (hb : b < w.length) (hbj : b ≠ j)
    (hbLj : b ≠ w.length - j) (hj : 0 < j) : exactMag w b = 0 := by
  have hsum : ¬(w.length : ℤ) ∣ -((j : ℤ) + b) := fun h => by
    have heq : (j : ℤ) + b - w.length = 0 := Int.eq_zero_of_abs_lt_dvd (m := w.length)
      (dvd_sub_self_right.2 (dvd_neg.1 h)) (abs_lt.2 (by omega))
    omega
  have hdiff : ¬(w.length : ℤ) ∣ (j : ℤ) - b := fun h => by
    have heq : (j : ℤ) - b = 0 := Int.eq_zero_of_abs_lt_dvd h (abs_lt.2 (by omega))
    omega
  rw [exactMag_eq_norm, dft_sinusoid hw (by omega), if_neg hsum, if_neg hdiff, mul_zero, mul_zero,
    sub_zero, mul_zero, norm_zero]

end

/-- Settles O46: of the two powers of the root one is left at bin `j` and none away from `j` and `L - j`; bin `L - j`
mirrors bin `j`. -/
theorem sinusoidEnergy : Obligations.SinusoidEnergy := by
  intro w amp phase j hamp hj hjL hw
  have hsame := exactMag_sinusoid_same hw hamp hj hjL
  exact ⟨hsame, (exactMag_sub w (by omega)).trans hsame, fun b hb hbj hbLj =>
    exactMag_sinusoid_other hw hjL hb hbj hbLj hj⟩

end Sys2Proof.Proofs
end

section
/-! PROOFS. The analyzer's commands: `FFTSHIFT`, the points of a window and of a run, the faults of `SPA.RUN`, a buffer of
zeros, and the delivery of a point (spec 44_spectral_analyzer R171 to R181). -/

namespace Sys2Proof.Proofs

open Sys2Proof Sys2Proof.Machine Sys2Proof.Config

/-! ### `FFTSHIFT` -/

/-- `FFTSHIFT` turns a sequence left by `ceil(L / 2)` entries (R176). -/
theorem fftShift_eq_rotate {α : Type} (v : List α) : fftShift v = v.rotate ((v.length + 1) / 2) := by
  cases v with
  | nil => simp [fftShift]
  | cons x rest => exact (List.rotate_eq_drop_append_take (by simp only [List.length_cons]; omega)).symm

theorem getElem?_fftShift {α : Type} {v : List α} {k : Nat} (hk : k < v.length) :
    (fftShift v)[k]? = v[(k + (v.length + 1) / 2) % v.length]? := by
  rw [fftShift_eq_rotate, List.getElem?_rotate hk]

/-- Settles O44: a rotation by `ceil(L / 2)`, and `floor(L / 2) + ceil(L / 2) = L`. -/
theorem fftShiftCentres : Obligations.FftShiftCentres := by
  intro α v
  refine ⟨length_fftShift v, fun k => getElem?_fftShift, fun hv => ?_⟩
  have hhalves : v.length / 2 + (v.length + 1) / 2 = v.length := by omega
  rw [getElem?_fftShift (Nat.div_lt_self (List.length_pos_of_ne_nil hv) (by decide)), hhalves, Nat.mod_self]

/-! ### The points of one window -/

/-- The point of shifted bin `k` of the window `w` formed at time index `i` (R176 to R179). -/
def pointAt (i rate : Nat) (w : List Int) (k : Nat) : Point :=
  ⟨BitVec.ofNat 32 i, fl32 (freq k w.length rate), spaMag.bin w ((k + (w.length + 1) / 2) % w.length)⟩

/-- The points of a window are those of its shifted bins in order. -/
theorem windowPoints_eq (i rate : Nat) (w : List Int) :
    windowPoints i rate w = (List.range w.length).map (pointAt i rate w) := by
  refine List.ext_getElem (by simp [length_windowPoints]) fun k hk _ => ?_
  rw [length_windowPoints] at hk
  have hmag : (magnitudes w).length = w.length := by simp [magnitudes]
  have hbin : (fftShift (magnitudes w))[k]? = some (spaMag.bin w ((k + (w.length + 1) / 2) % w.length)) := by
    have hlt : (k + (w.length + 1) / 2) % w.length < w.length := Nat.mod_lt _ (by omega)
    rw [getElem?_fftShift (by omega), hmag]
    simp [magnitudes, hlt]
  obtain ⟨_, hget⟩ := List.getElem?_eq_some_iff.1 hbin
  simp [windowPoints, pointAt, hget]

/-! ### The windows of the buffer -/

@[simp] theorem length_windowAt (b : Buffer) (width i : Nat) : (windowAt b width i).length = min i width := by
  simp [windowAt]

/-- Over written words the read of a window gives the window (R171, R172). -/
theorem readRange_windowAt {b : Buffer} {i : Nat} (width : Nat) (h : ∀ a, a < i → b.read a ≠ none) :
    readRange b (i - width) (min i width) = .ok (windowAt b width i) := by
  obtain ⟨w, hw⟩ := readRange_total (b := b) (lo := i - width) (len := min i width) fun k hk => h _ (by omega)
  obtain ⟨hlen, hget⟩ := readRange_ok hw
  rw [hw]
  refine congrArg _ (List.ext_getElem (by simp [hlen]) fun k hk _ => ?_)
  have hread := (hget k (hlen ▸ hk)).trans (List.getElem?_eq_getElem hk)
  simp [windowAt, hread]

/-- Over written words the analysis goes on to the points of each window in turn; an empty window has none. -/
theorem analyse_eq {b : Buffer} (width rate : Nat) {times : List Nat} (h : ∀ i ∈ times, ∀ a, a < i → b.read a ≠ none) :
    analyse b width rate times = .ok (times.flatMap fun i => windowPoints i rate (windowAt b width i)) := by
  induction times with
  | nil => rfl
  | cons i rest ih =>
    have hrest := ih fun j hj => h j (.tail _ hj)
    have hlen : i - (i - width) = min i width := by omega
    rw [analyse, hlen, List.flatMap_cons]
    split
    next hzero =>
      have hempty : windowAt b width i = [] := List.length_eq_zero_iff.1 (by simp [hzero])
      rw [hrest, hempty]
      rfl
    next => rw [readRange_windowAt width (h i (.head _)), hrest]; rfl

/-! ### The time indices -/

/-- The time indices are the multiples of half the window size below `N` (R172). -/
theorem mem_timeIndices {n half i : Nat} (hhalf : 0 < half) :
    i ∈ timeIndices n (2 * half) ↔ i < n ∧ i % half = 0 := by
  have hdiv : 2 * half / 2 = half := by omega
  simp only [timeIndices, hdiv, List.mem_map, List.mem_range]
  constructor
  · rintro ⟨j, hj, rfl⟩
    have := (Nat.le_div_iff_mul_le hhalf).1 (Nat.succ_le_of_lt hj)
    rw [Nat.succ_mul] at this
    exact ⟨by omega, Nat.mul_mod_left j half⟩
  · rintro ⟨hi, hmod⟩
    have hmul : i / half * half = i := Nat.div_mul_cancel (Nat.dvd_of_mod_eq_zero hmod)
    refine ⟨i / half, Nat.lt_of_succ_le ((Nat.le_div_iff_mul_le hhalf).2 ?_), hmul⟩
    rw [Nat.succ_mul]
    omega

theorem nodup_timeIndices {n half : Nat} (hhalf : 0 < half) : (timeIndices n (2 * half)).Nodup := by
  obtain ⟨m, hm, -⟩ := timeIndices_eq (n := n) hhalf
  rw [hm]
  exact List.nodup_range.map fun _ _ h => Nat.eq_of_mul_eq_mul_right hhalf h

/-- The time indices are a selection of the numbers below `N`, each once. -/
theorem timeIndices_perm {n half : Nat} (hhalf : 0 < half) :
    (timeIndices n (2 * half)).Perm ((List.range n).filter fun i => i % half == 0) :=
  (List.perm_ext_iff_of_nodup (nodup_timeIndices hhalf) (List.nodup_range.filter _)).2 fun i => by
    simp [mem_timeIndices hhalf]

/-- The lengths of the windows at the first `m` time indices: nothing at index 0, half a window at the next, a whole one
at each later (R173). -/
theorem sum_windows_eq (half : Nat) {m : Nat} (hm : 1 ≤ m) :
    (((List.range m).map (· * half)).map (min (2 * half))).sum = if m = 1 then 0 else half * (2 * m - 3) := by
  induction m, hm using Nat.le_induction with
  | base => simp
  | succ m hm ih =>
    rw [List.range_succ, List.map_append, List.map_append, List.sum_append, ih]
    obtain rfl | ⟨j, rfl⟩ : m = 1 ∨ ∃ j, m = j + 2 := by
      obtain _ | _ | j := m
      · omega
      · exact .inl rfl
      · exact .inr ⟨j, rfl⟩
    · simp [show half ≤ 2 * half by omega]
    · have hmin : min (2 * half) ((j + 2) * half) = 2 * half := min_eq_left (Nat.mul_le_mul_right _ (by omega))
      simp only [List.map_cons, List.map_nil, List.sum_cons, List.sum_nil, hmin]
      rw [if_neg (by omega), if_neg (by omega), show 2 * (j + 2 + 1) - 3 = 2 * (j + 2) - 3 + 2 by omega]
      ring

/-- The windows of a run take fewer than `2 * N` samples in all (R173). -/
theorem sum_windows_lt {n half : Nat} (hhalf : 0 < half) (hn : 1 ≤ n) :
    ((timeIndices n (2 * half)).map (min (2 * half))).sum < 2 * n := by
  obtain ⟨m, hm, hlt⟩ := timeIndices_eq (n := n) hhalf
  rw [hm]
  refine (sum_windows_le half m).trans_lt ?_
  obtain rfl | hpos := Nat.eq_zero_or_pos m
  · rw [Nat.zero_sub, Nat.zero_mul]
    omega
  · have := hlt hpos
    omega

/-! ### `SPA.RUN` -/

/-- A legal window size is a power of two other than 1 (R37). -/
theorem windowSizeOk_iff {width : Nat} : windowSizeOk width = true ↔ ∃ k, 1 ≤ k ∧ width = 2 ^ k := by
  constructor
  · intro h
    obtain ⟨k, rfl⟩ := windowSize_eq h
    exact ⟨k + 1, by omega, (Nat.pow_succ' ..).symm⟩
  · rintro ⟨k, hk, rfl⟩
    simp [windowSizeOk, Nat.log2_two_pow, Nat.le_self_pow (by omega : k ≠ 0) 2]

/-- The points a run over written words makes (R171). -/
def runPoints (s : State) : List Point :=
  (timeIndices s.regs.spaN.toNat s.regs.spaW.toNat).flatMap fun i =>
    windowPoints i s.regs.spaR.toNat (windowAt s.buf s.regs.spaW.toNat i)

section
variable {s : State}

/-- The window size of a legal run is twice a power of two, the spacing of the time indices. -/
theorem spaW_of_legal (hlegal : LegalRun s) : ∃ e, s.regs.spaW.toNat = 2 * 2 ^ e := by
  obtain ⟨⟨k, hk, -, hw⟩, -⟩ := hlegal
  exact windowSize_eq (windowSizeOk_iff.2 ⟨k, hk, hw⟩)

/-- The time indices of a legal run are below `N`, so its windows lie in the words analyzed. -/
theorem lt_of_mem_timeIndices {i : Nat} (hlegal : LegalRun s)
    (hi : i ∈ timeIndices s.regs.spaN.toNat s.regs.spaW.toNat) : i < s.regs.spaN.toNat := by
  obtain ⟨e, hw⟩ := spaW_of_legal hlegal
  rw [hw] at hi
  exact ((mem_timeIndices (Nat.two_pow_pos e)).1 hi).1

theorem analyse_run (hlegal : LegalRun s) (hwritten : RangeWritten s) :
    analyse s.buf s.regs.spaW.toNat s.regs.spaR.toNat (timeIndices s.regs.spaN.toNat s.regs.spaW.toNat) =
      .ok (runPoints s) :=
  analyse_eq _ _ fun _ hi a ha => hwritten a (ha.trans (lt_of_mem_timeIndices hlegal hi))

/-- A legal run over written words completes with its points. -/
theorem exec_spaRun_of_legal (hf : s.faulted = false) (hlegal : LegalRun s) (hwritten : RangeWritten s) :
    exec .spaRun s = .next (s.storePoints (runPoints s)) := by
  have hpts := analyse_run hlegal hwritten
  obtain ⟨⟨k, hk, -, hw⟩, hn, hfit⟩ := hlegal
  have hsize : windowSizeOk s.regs.spaW.toNat = true := windowSizeOk_iff.2 ⟨k, hk, hw⟩
  simp only [exec, execSpaRun, accept_of_normal _ hf, hsize, Bool.not_true, Bool.false_eq_true, if_false,
    if_neg (Nat.ne_of_gt hn), if_neg (not_lt.2 hfit), hpts]

end

/-- Settles O39: the state after the run, and the sum of the lengths of its windows. -/
theorem spaRunCompletes : Obligations.SpaRunCompletes := by
  intro s hf hlegal hwritten
  have hn : 1 ≤ s.regs.spaN.toNat := hlegal.2.1
  have hlen := (analyse_ok (analyse_run hlegal hwritten)).1
  obtain ⟨e, hw⟩ := spaW_of_legal hlegal
  have hhalf : 0 < 2 ^ e := Nat.two_pow_pos e
  rw [hw] at hlen
  refine ⟨_, exec_spaRun_of_legal hf hlegal hwritten, ?_, ?_, rfl, rfl, rfl, fun _ => rfl, rfl, rfl, rfl, rfl, rfl⟩
  · have hdiv : 2 * 2 ^ e / 2 = 2 ^ e := by omega
    have hsteps : 1 ≤ (s.regs.spaN.toNat + 2 ^ e - 1) / 2 ^ e := (Nat.le_div_iff_mul_le hhalf).2 (by omega)
    simp only [State.storePoints_pts, hlen, hw, timeIndices, hdiv]
    exact sum_windows_eq _ hsteps
  · rw [State.storePoints_pts, hlen]
    exact sum_windows_lt hhalf hn

/-- Settles O40: the time indices are the numbers the statement selects, and the points of a window are its bins'. -/
theorem spaRunPoints : Obligations.SpaRunPoints := by
  intro s t hf hlegal hwritten h
  rw [exec_spaRun_of_legal hf hlegal hwritten] at h
  cases h
  obtain ⟨e, hw⟩ := spaW_of_legal hlegal
  have hdiv : 2 * 2 ^ e / 2 = 2 ^ e := by omega
  simp only [State.storePoints_pts, runPoints, hw, hdiv]
  refine ((timeIndices_perm (Nat.two_pow_pos e)).flatMap_right _).trans (List.Perm.of_eq ?_)
  refine List.flatMap_congr fun i _ => ?_
  rw [windowPoints_eq, length_windowAt]
  refine List.map_congr_left fun k _ => ?_
  rw [pointAt, freq, length_windowAt]

/-! ### A buffer of zeros -/

/-- Only the pattern of all zeros is a magnitude of value 0. -/
theorem eq_zero_of_magnitude {v : Word} (hmag : isMagnitude v = true) (hval : val32 v = 0) : v = 0 := by
  have hsign : v.getLsbD 31 = false := by
    simp only [isMagnitude, Bool.and_eq_true, Bool.not_eq_true'] at hmag
    exact hmag.2
  have hsig : sig32 v = 0 := by
    have habs := abs_val32 v
    rw [hval, abs_zero, zero_eq_mul] at habs
    exact_mod_cast habs.resolve_right (zpow_pos two_pos _).ne'
  have hunit : unit32 v = -149 := (sig32_normal v).resolve_right (by omega)
  rw [← pattern_of_fields v, hsign, hsig, hunit]
  rfl

/-- The accuracy bound leaves nothing open for a window of zeros (R178 (c)). -/
theorem bin_of_zeros (m : SpaMag) {w : List Int} {b : Nat} (hw : IsWindow w) (hzero : ∀ x ∈ w, x = 0)
    (hb : b < w.length) : m.bin w b = 0 := by
  have hsum : absSum w = 0 := by
    refine List.sum_eq_zero fun x hx => ?_
    obtain ⟨y, hy, rfl⟩ := List.mem_map.1 hx
    rw [hzero y hy, Int.natAbs_zero]
  have hacc := m.accurate w b hw hb
  rw [hsum, exactMag_of_zeros hzero b, Nat.cast_zero, mul_zero, sub_zero] at hacc
  exact eq_zero_of_magnitude (m.finite_nonneg w b hw hb) (by exact_mod_cast abs_nonpos_iff.1 hacc)

/-- A window of a legal run that is not empty is one `SPA_MAG` makes promises about, if its words are samples (R172,
R178). -/
theorem isWindow_windowAt {s : State} {i : Nat} (hlegal : LegalRun s)
    (hi : i ∈ timeIndices s.regs.spaN.toNat s.regs.spaW.toNat) (hpos : 0 < i)
    (hsample : ∀ x ∈ windowAt s.buf s.regs.spaW.toNat i, IsSample x) :
    IsWindow (windowAt s.buf s.regs.spaW.toNat i) := by
  obtain ⟨e, hw⟩ := spaW_of_legal hlegal
  have hhalf : 0 < 2 ^ e := Nat.two_pow_pos e
  rw [hw] at hi
  obtain ⟨hlt, hmod⟩ := (mem_timeIndices hhalf).1 hi
  have hmul : i / 2 ^ e * 2 ^ e = i := Nat.div_mul_cancel (Nat.dvd_of_mod_eq_zero hmod)
  have hlen : (windowAt s.buf s.regs.spaW.toNat i).length = min (2 * 2 ^ e) (i / 2 ^ e * 2 ^ e) := by
    rw [length_windowAt, hw, hmul, min_comm]
  have := bufDepth_le s.params
  have := hlegal.2.2
  refine ⟨hlen ▸ window_length_pow (by omega), ?_, hsample⟩
  rw [length_windowAt]
  omega

/-- Settles O43: the windows are windows of zeros. -/
theorem zeroBufferGivesZeroMagnitudes : Obligations.ZeroBufferGivesZeroMagnitudes := by
  intro s t hf hlegal hzero h pt hpt
  rw [exec_spaRun_of_legal hf hlegal fun a ha => by simp [hzero a ha]] at h
  cases h
  obtain ⟨i, hi, hpw⟩ := List.mem_flatMap.1 hpt
  obtain ⟨⟨b, hb, hmag⟩, -⟩ := mem_windowPoints hpw
  have hpos : 0 < i := by
    rw [length_windowAt] at hb
    omega
  have hlt := lt_of_mem_timeIndices hlegal hi
  have hzeros : ∀ x ∈ windowAt s.buf s.regs.spaW.toNat i, x = 0 := fun x hx => by
    obtain ⟨k, hk, rfl⟩ := List.mem_map.1 hx
    have hk := List.mem_range.1 hk
    simp [hzero _ (by omega : i - s.regs.spaW.toNat + k < s.regs.spaN.toNat)]
  rw [hmag]
  exact bin_of_zeros spaMag (isWindow_windowAt hlegal hi hpos fun x hx => hzeros x hx ▸ isSample_zero) hzeros hb

/-! ### Faults and deliveries -/

section
variable {s : State} (hf : s.faulted = false)
include hf

theorem exec_spaRun_of_window (hsize : windowSizeOk s.regs.spaW.toNat = false) :
    exec .spaRun s = s.fail .cfgWindow .spaRun := by
  simp only [exec, execSpaRun, accept_of_normal _ hf, hsize, Bool.not_false, if_true]

theorem exec_spaRun_of_empty (hsize : windowSizeOk s.regs.spaW.toNat = true) (hn : s.regs.spaN.toNat = 0) :
    exec .spaRun s = s.fail .emptyInput .spaRun := by
  simp only [exec, execSpaRun, accept_of_normal _ hf, hsize, Bool.not_true, Bool.false_eq_true, if_false, if_pos hn]

theorem exec_spaRun_of_range (hsize : windowSizeOk s.regs.spaW.toNat = true)
    (hn : s.params.bufDepth < s.regs.spaN.toNat) : exec .spaRun s = s.fail .bufRange .spaRun := by
  simp only [exec, execSpaRun, accept_of_normal _ hf, hsize, Bool.not_true, Bool.false_eq_true, if_false,
    if_neg (Nat.ne_zero_of_lt hn), if_pos hn]

theorem exec_spaNext_of_nil (hpts : s.pts = []) : exec .spaNext s = .next s.ended := by
  simp only [exec, execSpaNext, accept_of_normal _ hf, hpts, List.length_nil, dif_pos]

/-- With a point left some point is delivered; which one is open (R181). -/
theorem exec_spaNext_of_ne_nil (hpts : s.pts ≠ []) :
    ∃ j, ∃ hj : j < s.pts.length, exec .spaNext s = .next (s.deliver j s.pts[j]) := by
  have hlen : s.pts.length ≠ 0 := mt List.length_eq_zero_iff.1 hpts
  refine ⟨pickPoint s.picks % s.pts.length, Nat.mod_lt _ (Nat.pos_of_ne_zero hlen), ?_⟩
  simp only [exec, execSpaNext, accept_of_normal _ hf, dif_neg hlen]

end

/-- Settles O41: the checks in the order of the rule. -/
theorem spaRunFaults : Obligations.SpaRunFaults := by
  intro s hf
  refine ⟨fun hbad => ?_, fun ⟨k, hk, hw⟩ => ?_⟩
  · refine raises_of_fail (exec_spaRun_of_window hf (Bool.eq_false_iff.2 fun hok => ?_))
    obtain ⟨k, hk, hw⟩ := windowSizeOk_iff.1 hok
    exact hbad k hk hw
  · have hsize : windowSizeOk s.regs.spaW.toNat = true := windowSizeOk_iff.2 ⟨k, hk, hw⟩
    exact ⟨fun hn => raises_of_fail (exec_spaRun_of_empty hf hsize (congrArg BitVec.toNat hn)),
      fun hn => raises_of_fail (exec_spaRun_of_range hf hsize hn)⟩

/-- Settles O47: the store without element `j` and that element are the store. -/
theorem spaNextDelivers : Obligations.SpaNextDelivers := by
  intro s hf
  refine ⟨fun hpts => exec_spaNext_of_nil hf hpts, fun hpts => ?_⟩
  obtain ⟨j, hj, hexec⟩ := exec_spaNext_of_ne_nil hf hpts
  exact ⟨_, s.pts[j], hexec, (List.getElem_cons_eraseIdx_perm hj).symm, rfl, rfl, rfl, fun _ => rfl, rfl, rfl, rfl, rfl⟩

end Sys2Proof.Proofs
end

section
/-! PROOFS. Values that binary32 holds exactly, and the axis of a transform (spec 00_scope R9; 44_spectral_analyzer R177;
45_frequency_axis R201, R203, R206). -/

namespace Sys2Proof.Proofs

open Sys2Proof Sys2Proof.Machine Sys2Proof.Config

/-! ### Values that binary32 holds exactly -/

/-- A value of at most 24 significant bits is its own rounding: it is a whole number of the units of the rounding, and no
other whole number is within half a unit of it (R9). -/
theorem val32_fl32_of_exact {m : Int} {u : Int} (hm : |m| < 2 ^ 24) (hu : -149 ≤ u) (hq : |(m : ℚ) * 2 ^ u| ≤ 2 ^ 32) :
    val32 (fl32 (m * 2 ^ u)) = m * 2 ^ u := by
  obtain ⟨n, v, hr, hc, hfl⟩ := fl32_finite (isFinite32_fl32 hq)
  have hpos : (0 : ℚ) < 2 ^ v := zpow_pos two_pos v
  have hle : v ≤ u := by
    refine hr.binade_le.elim (fun h => h ▸ hu) fun hb => ?_
    rw [abs_mul, abs_of_pos (zpow_pos two_pos u : (0 : ℚ) < 2 ^ u), le_div_iff₀ hpos] at hb
    exact unit_le_of_binade hb (mul_lt_mul_of_pos_right (by exact_mod_cast hm) (zpow_pos two_pos u))
  obtain ⟨k, hk⟩ := Int.eq_ofNat_of_zero_le (sub_nonneg.2 hle)
  have hunits : (m : ℚ) * 2 ^ u = ((m * 2 ^ k : Int) : ℚ) * 2 ^ v := by
    rw [show u = k + v by omega, zpow_add₀ two_ne_zero, zpow_natCast]
    push_cast
    ring
  have hnear := hr.near
  rw [← Rounds.abs_sub_eq] at hnear
  rw [hfl, val32_pattern_code _ hr.emin_le hr.le_pow hr.pow_le (by omega)]
  generalize withSign (decide ((m : ℚ) * 2 ^ u < 0)) n = z at *
  rw [hunits, mul_div_cancel_right₀ _ hpos.ne'] at hnear
  have heq : m * 2 ^ k = z := by
    by_contra hne
    have hfar := nearest_integer hnear hne
    rw [sub_self, abs_zero, mul_zero] at hfar
    exact absurd hfar (by norm_num)
  rw [hunits, heq]

/-- The case the axis needs: a natural number below `2^24`, divided by a power of two. -/
theorem val32_fl32_div_pow {n e : Nat} (hn : n < 2 ^ 24) (he : e ≤ 149) :
    val32 (fl32 ((n : ℚ) / (2 ^ e : Nat))) = n / (2 ^ e : Nat) := by
  have hq : (n : ℚ) / (2 ^ e : Nat) = ((n : Int) : ℚ) * 2 ^ (-(e : Int)) := by
    rw [zpow_neg, zpow_natCast]
    push_cast
    ring
  rw [hq]
  refine val32_fl32_of_exact (by rw [Nat.abs_cast]; exact_mod_cast hn) (by omega) ?_
  rw [← hq, abs_of_nonneg (by positivity)]
  refine (div_le_self (Nat.cast_nonneg n) (by exact_mod_cast Nat.one_le_two_pow)).trans ?_
  exact_mod_cast (by omega : n ≤ 2 ^ 32)

theorem val32_fl32_natCast {n : Nat} (hn : n < 2 ^ 24) : val32 (fl32 (n : ℚ)) = n := by
  simpa using val32_fl32_div_pow (e := 0) hn (by decide)

theorem isInf32_fl32 {q : ℚ} (h : |q| ≤ 2 ^ 32) : isInf32 (fl32 q) = false := by
  have hfin : expField32 (fl32 q) ≠ 255 := by simpa [isFinite32] using isFinite32_fl32 h
  simp [isInf32, hfin]

/-! ### The axis of a transform -/

/-- Where the difference `d` and the quotient `n` of the operands are exact, `n` is the number of terms (R201). -/
theorem axisCount_of_exact {start stop step : Word} {d : ℚ} {n : Nat} (hstep : 0 < val32 step)
    (hdiff : val32 stop - val32 start = d) (hd : |d| ≤ 2 ^ 32) (hdval : val32 (fl32 d) = d)
    (hquot : d / val32 step = n) (hn : 0 < n) (hn32 : n < 2 ^ 32) (hnval : val32 (fl32 n) = n) :
    axisCount start stop step = some n := by
  have hlt : (n : ℚ) < 2 ^ 32 := by exact_mod_cast hn32
  have hpos : (0 : ℚ) < n := by exact_mod_cast hn
  have hfloor : (n : ℚ).floor.toNat = n :=
    (congrArg Int.toNat (Rat.floor_intCast n)).trans (Int.toNat_natCast n)
  have hinf : isInf32 (fl32 (n : ℚ)) = false := isInf32_fl32 (by rw [Nat.abs_cast]; exact hlt.le)
  simp only [axisCount, if_neg (not_le.2 hstep), hdiff, isInf32_fl32 hd, hdval, hquot, hinf, hnval, hfloor,
    if_neg (not_le.2 hpos), decide_eq_false (not_le.2 hlt), Bool.or_self, Bool.false_eq_true, if_false]

/-- Where the index and the product are exact, the term is the sum `v` rounded once (R203). -/
theorem axisTerm_of_exact {start step : Word} {k : Nat} {p v : ℚ} (hk : val32 (fl32 (k : ℚ)) = k)
    (hprod : k * val32 step = p) (hp : |p| ≤ 2 ^ 32) (hpval : val32 (fl32 p) = p) (hsum : val32 start + p = v)
    (hv : |v| ≤ 2 ^ 32) : axisTerm start step k = some (fl32 v) := by
  simp only [axisTerm, hk, hprod, isInf32_fl32 hp, hpval, hsum, isInf32_fl32 hv, Bool.false_eq_true, if_false]

/-- The frequencies of a transform are the exact terms of its axis (R177, R206). -/
theorem freq_eq_axisTerm {e : Nat} (he : 1 ≤ e) (k rate : Nat) :
    freq k (2 ^ e) rate = -(rate : ℚ) / 2 + ((k * rate : Nat) : ℚ) / (2 ^ e : Nat) := by
  obtain ⟨j, rfl⟩ : ∃ j, e = j + 1 := ⟨e - 1, by omega⟩
  have hhalf : 2 ^ (j + 1) / 2 = 2 ^ j := by omega
  rw [freq, hhalf]
  push_cast
  field_simp
  ring

theorem exponent_le_of_fit {e rate : Nat} (hrate : 1 ≤ rate) (hfit : 2 ^ e * rate ≤ 2 ^ 24) : e ≤ 24 :=
  (Nat.pow_le_pow_iff_right (by decide)).1 ((Nat.le_mul_of_pos_right _ hrate).trans hfit)

section
variable {e rate : Nat} (he : 1 ≤ e) (hrate : 1 ≤ rate) (hfit : 2 ^ e * rate ≤ 2 ^ 24)

include he hfit

theorem rate_lt_of_fit : rate < 2 ^ 24 := by
  have := Nat.mul_le_mul_right rate (Nat.pow_le_pow_right (by decide : 0 < 2) he)
  omega

theorem val32_axisStart : val32 (fl32 (-(rate : ℚ) / 2)) = -(rate : ℚ) / 2 := by
  have hlt := rate_lt_of_fit he hfit
  have hq : -(rate : ℚ) / 2 = ((-rate : Int) : ℚ) * 2 ^ (-1 : Int) := by
    push_cast
    ring
  rw [hq]
  refine val32_fl32_of_exact (by rw [abs_neg, Nat.abs_cast]; exact_mod_cast hlt) (by decide) ?_
  rw [← hq, neg_div, abs_neg, abs_of_nonneg (by positivity)]
  refine (div_le_self (Nat.cast_nonneg _) one_le_two).trans ?_
  exact_mod_cast (by omega : rate ≤ 2 ^ 32)

include hrate

theorem val32_axisStep : val32 (fl32 ((rate : ℚ) / (2 ^ e : Nat))) = rate / (2 ^ e : Nat) :=
  val32_fl32_div_pow (rate_lt_of_fit he hfit) ((exponent_le_of_fit hrate hfit).trans (by decide))

/-- The axis of a transform has as many terms as the transform has bins. -/
theorem axisCount_of_fit :
    axisCount (fl32 (-(rate : ℚ) / 2)) (fl32 ((rate : ℚ) / 2)) (fl32 ((rate : ℚ) / (2 ^ e : Nat))) = some (2 ^ e) := by
  have hlt := rate_lt_of_fit he hfit
  have he24 := exponent_le_of_fit hrate hfit
  have hpow : 2 ^ e ≤ 2 ^ 24 := Nat.pow_le_pow_right (by decide) he24
  have hpos : (0 : ℚ) < rate := by exact_mod_cast hrate
  have hbins : val32 (fl32 ((2 ^ e : Nat) : ℚ)) = (2 ^ e : Nat) := by
    have hexact := val32_fl32_of_exact (m := 1) (u := e) (by decide) (by omega) (by
      rw [Int.cast_one, one_mul, zpow_natCast, abs_of_pos (by positivity)]
      exact_mod_cast hpow.trans (by decide))
    simpa using hexact
  have hend : val32 (fl32 ((rate : ℚ) / 2)) = rate / 2 := by
    simpa using val32_fl32_div_pow (e := 1) hlt (by decide)
  refine axisCount_of_exact (d := rate) ?_ ?_ ?_ (val32_fl32_natCast hlt) ?_ (Nat.two_pow_pos e)
    (hpow.trans_lt (by decide)) hbins
  · rw [val32_axisStep he hrate hfit]
    positivity
  · rw [hend, val32_axisStart he hfit]
    ring
  · rw [Nat.abs_cast]
    exact_mod_cast (by omega : rate ≤ 2 ^ 32)
  · rw [val32_axisStep he hrate hfit]
    field_simp

/-- Every term of the axis of a transform is the frequency of the bin of its index. -/
theorem axisTerm_of_fit {k : Nat} (hk : k < 2 ^ e) :
    axisTerm (fl32 (-(rate : ℚ) / 2)) (fl32 ((rate : ℚ) / (2 ^ e : Nat))) k = some (fl32 (freq k (2 ^ e) rate)) := by
  have hlt := rate_lt_of_fit he hfit
  have he24 := exponent_le_of_fit hrate hfit
  have hk24 : k < 2 ^ 24 := hk.trans_le (Nat.pow_le_pow_right (by decide) he24)
  have hprod : k * rate < 2 ^ 24 := (Nat.mul_lt_mul_of_pos_right hk hrate).trans_le hfit
  have hbound : |freq k (2 ^ e) rate| ≤ 2 ^ 32 :=
    (abs_freq_le rate hk).trans (by exact_mod_cast (by omega : rate ≤ 2 ^ 32))
  refine axisTerm_of_exact (val32_fl32_natCast hk24) ?_ ?_ (val32_fl32_div_pow (e := e) hprod (by omega)) ?_ hbound
  · rw [val32_axisStep he hrate hfit]
    push_cast
    ring
  · rw [abs_of_nonneg (by positivity)]
    refine (div_le_self (Nat.cast_nonneg _) (by exact_mod_cast Nat.one_le_two_pow)).trans ?_
    exact_mod_cast (by omega : k * rate ≤ 2 ^ 32)
  · rw [val32_axisStart he hfit, freq_eq_axisTerm he]

end

/-- Settles O52: the operands, the products and the quotient are exact, so the term is rounded where the frequency is. -/
theorem axisAgreesWithAnalyzer : Obligations.AxisAgreesWithAnalyzer := fun _ _ _ he hrate hfit hk =>
  ⟨axisCount_of_fit he hrate hfit, axisTerm_of_fit he hrate hfit hk⟩

end Sys2Proof.Proofs
end

section
/-! PROOFS. Rounding to binary32 keeps the order of values, and the terms of an axis keep that of their indices (spec
00_scope R9; 45_frequency_axis R203, R205). -/

namespace Sys2Proof.Proofs

open Sys2Proof Sys2Proof.Machine Sys2Proof.Config

/-! ### The order of roundings -/

section
variable {p : Nat} {emin : Int} {q r : ℚ} {m n : Nat} {u v : Int}

/-- The unit does not shrink as the magnitude grows. -/
theorem Rounds.unit_mono (hq : Rounds p emin q m u) (hr : Rounds p emin r n v) (h : |q| ≤ |r|) : u ≤ v := by
  obtain rfl | hb := hq.binade_le
  · exact hr.emin_le
  · have hlo := (le_div_iff₀ (zpow_pos two_pos u)).1 hb
    have hhi := (div_lt_iff₀ (zpow_pos two_pos v)).1 hr.lt_binade
    exact unit_le_of_binade (hlo.trans h) hhi

/-- In one unit the significand does not shrink as the magnitude grows: only the same tie could be rounded both ways. -/
theorem Rounds.significand_mono (hq : Rounds p emin q m u) (hr : Rounds p emin r n u) (h : |q| ≤ |r|) : m ≤ n := by
  by_contra! hlt
  have hcast : (n : ℚ) + 1 ≤ m := by exact_mod_cast hlt
  have hx : |q| / 2 ^ u ≤ |r| / 2 ^ u := div_le_div_of_nonneg_right h (zpow_pos two_pos u).le
  obtain ⟨hlo, -⟩ := abs_le.1 ((le_div_iff₀' (two_pos : (0 : ℚ) < 2)).2 hq.near)
  obtain ⟨-, hhi⟩ := abs_le.1 ((le_div_iff₀' (two_pos : (0 : ℚ) < 2)).2 hr.near)
  have hm : m % 2 = 0 := hq.even_of_tie (by
    rw [show |q| / 2 ^ u - m = -(1 / 2) by linarith]
    norm_num)
  have hn : n % 2 = 0 := hr.even_of_tie (by
    rw [show |r| / 2 ^ u - n = 1 / 2 by linarith]
    norm_num)
  have hnext : m = n + 1 := by
    have : (m : ℚ) ≤ ((n + 1 : Nat) : ℚ) := by push_cast; linarith
    exact le_antisymm (Nat.cast_le.1 this) hlt
  omega

end

/-- The lower 31 bits of the rounding do not shrink as the magnitude grows: a larger unit counts for more than the carry
out of a smaller one. -/
theorem Rounds.code_mono {q r : ℚ} {m n : Nat} {u v : Int} (hq : Rounds 23 (-149) q m u) (hr : Rounds 23 (-149) r n v)
    (h : |q| ≤ |r|) : code m u ≤ code n v := by
  have hmin := hq.emin_le
  obtain rfl | hlt := (hq.unit_mono hr h).eq_or_lt
  · exact Nat.add_le_add_left (hq.significand_mono hr h) _
  · have hm := hq.le_pow
    have hn := hr.pow_le.resolve_left (by omega)
    unfold code
    omega

/-! ### The order of patterns -/

theorem val32_pattern_false {c : Nat} (hc : c < 2 ^ 31) :
    val32 (pattern false c) = sig32 (pattern false c) * 2 ^ unit32 (pattern false c) := by
  rw [val32_eq, getLsbD_31_pattern _ hc]
  rfl

theorem val32_pattern_true {c : Nat} (hc : c < 2 ^ 31) : val32 (pattern true c) = -val32 (pattern false c) := by
  have hsig : sig32 (pattern true c) = sig32 (pattern false c) := by
    simp only [sig32, expField32_pattern _ hc, fracField32_pattern _ hc]
  have hunit : unit32 (pattern true c) = unit32 (pattern false c) := by
    simp only [unit32, expField32_pattern _ hc]
  rw [val32_pattern_false hc, val32_eq, getLsbD_31_pattern _ hc, hsig, hunit]
  simp [withSign]

theorem val32_pattern_nonneg {c : Nat} (hc : c < 2 ^ 31) : 0 ≤ val32 (pattern false c) := by
  rw [val32_pattern_false hc]
  positivity

/-- Without the sign bit, patterns have the order of their values; the infinity stands for `2^128`. -/
theorem val32_pattern_mono {c d : Nat} (h : c ≤ d) (hd : d < 2 ^ 31) :
    val32 (pattern false c) ≤ val32 (pattern false d) := by
  have hc : c < 2 ^ 31 := h.trans_lt hd
  have hfields :
      (unit32 (pattern false c) = unit32 (pattern false d) ∧ sig32 (pattern false c) ≤ sig32 (pattern false d)) ∨
        (unit32 (pattern false c) < unit32 (pattern false d) ∧ 2 ^ 23 ≤ sig32 (pattern false d)) := by
    simp only [sig32, unit32, expField32_pattern _ hc, expField32_pattern _ hd, fracField32_pattern _ hc,
      fracField32_pattern _ hd]
    split <;> split <;> omega
  have hlt := sig32_lt (pattern false c)
  rw [val32_pattern_false hc, val32_pattern_false hd]
  generalize sig32 (pattern false c) = m, unit32 (pattern false c) = u, sig32 (pattern false d) = n,
    unit32 (pattern false d) = v at *
  obtain ⟨rfl, hle⟩ | ⟨hunit, hn⟩ := hfields
  · exact mul_le_mul_of_nonneg_right (Nat.cast_le.2 hle) (zpow_pos two_pos u).le
  · calc (m : ℚ) * 2 ^ u ≤ 2 ^ 24 * 2 ^ u :=
          mul_le_mul_of_nonneg_right (by exact_mod_cast hlt.le) (zpow_pos two_pos u).le
      _ = 2 ^ 23 * 2 ^ (u + 1) := by rw [zpow_add_one₀ two_ne_zero]; ring
      _ ≤ n * 2 ^ v := mul_le_mul (by exact_mod_cast hn) (zpow_le_zpow_right₀ one_le_two hunit)
          (zpow_pos two_pos _).le (Nat.cast_nonneg n)

/-! ### `fl32` -/

/-- The magnitude bits of `fl32 q`, clipped at the infinity. -/
def magnitudeBits (q : ℚ) : Nat := min 0x7F800000 (code (quantise 24 (-149) q).1 (quantise 24 (-149) q).2)

theorem fl32_eq_pattern (q : ℚ) : fl32 q = pattern (decide (q < 0)) (magnitudeBits q) := fl32_eq q

theorem magnitudeBits_le (q : ℚ) : magnitudeBits q ≤ 0x7F800000 := min_le_left _ _

theorem magnitudeBits_lt (q : ℚ) : magnitudeBits q < 2 ^ 31 := (magnitudeBits_le q).trans_lt (by decide)

theorem magnitudeBits_mono {q r : ℚ} (h : |q| ≤ |r|) : magnitudeBits q ≤ magnitudeBits r :=
  min_le_min_left _ ((quantise_rounds 23 (-149) q).code_mono (quantise_rounds 23 (-149) r) h)

theorem val32_fl32_of_neg {q : ℚ} (h : q < 0) : val32 (fl32 q) = -val32 (pattern false (magnitudeBits q)) := by
  rw [fl32_eq_pattern, decide_eq_true h, val32_pattern_true (magnitudeBits_lt q)]

theorem val32_fl32_of_nonneg {q : ℚ} (h : 0 ≤ q) : val32 (fl32 q) = val32 (pattern false (magnitudeBits q)) := by
  rw [fl32_eq_pattern, decide_eq_false (not_lt.2 h)]

/-- Rounding to binary32 keeps order, overflow included (R9, R205). -/
theorem val32_fl32_mono {q r : ℚ} (h : q ≤ r) : val32 (fl32 q) ≤ val32 (fl32 r) := by
  obtain hq | hq := lt_or_ge q 0
  · rw [val32_fl32_of_neg hq]
    obtain hr | hr := lt_or_ge r 0
    · rw [val32_fl32_of_neg hr]
      have habs : |r| ≤ |q| := by rw [abs_of_neg hq, abs_of_neg hr]; exact neg_le_neg h
      exact neg_le_neg (val32_pattern_mono (magnitudeBits_mono habs) (magnitudeBits_lt q))
    · rw [val32_fl32_of_nonneg hr]
      linarith [val32_pattern_nonneg (magnitudeBits_lt q), val32_pattern_nonneg (magnitudeBits_lt r)]
  · rw [val32_fl32_of_nonneg hq, val32_fl32_of_nonneg (hq.trans h)]
    exact val32_pattern_mono (magnitudeBits_mono (abs_le_abs_of_nonneg hq h)) (magnitudeBits_lt r)

/-- A rounding that is no infinity is finite: no rounding is a NaN. -/
theorem isFinite32_of_not_isInf32 {q : ℚ} (h : isInf32 (fl32 q) = false) : isFinite32 (fl32 q) = true := by
  obtain hc | hc := (magnitudeBits_le q).eq_or_lt
  · rw [isInf32, fl32_eq_pattern, hc, expField32_pattern _ (by decide), fracField32_pattern _ (by decide)] at h
    exact absurd h (by decide)
  · rw [isFinite32, fl32_eq_pattern, expField32_pattern _ (magnitudeBits_lt q), bne_iff_ne]
    omega

/-! ### The terms of an axis -/

section
variable {start step : Word} {k : Nat}

/-- A term is the twice-rounded one, unless one of the roundings overflows (R203). -/
theorem axisTerm_eq {p v : Word} (hp : fl32 (val32 (fl32 (k : ℚ)) * val32 step) = p)
    (hv : fl32 (val32 start + val32 p) = v) :
    axisTerm start step k = if isInf32 p = true ∨ isInf32 v = true then none else some v := by
  simp only [axisTerm, hp, hv, ite_or]

theorem axisTerm_eq_some {w : Word} (h : axisTerm start step k = some w) :
    w = fl32 (val32 start + val32 (fl32 (val32 (fl32 (k : ℚ)) * val32 step))) ∧ isFinite32 w = true := by
  rw [axisTerm_eq rfl rfl] at h
  split at h
  next => cases h
  next hinf =>
    cases h
    exact ⟨rfl, isFinite32_of_not_isInf32 (Bool.eq_false_iff.2 fun hv => hinf (.inr hv))⟩

end

/-- Settles O51: a term is made by roundings, a product with a positive factor and a sum, each of which keeps order. -/
theorem axisTermsNonDecreasing : Obligations.AxisTermsNonDecreasing := by
  intro start step j k u v _ _ hstep hjk hu hv
  obtain ⟨rfl, hfin⟩ := axisTerm_eq_some hu
  obtain ⟨rfl, -⟩ := axisTerm_eq_some hv
  refine ⟨hfin, ?_⟩
  have hindex : val32 (fl32 (j : ℚ)) ≤ val32 (fl32 (k : ℚ)) := val32_fl32_mono (Nat.cast_le.2 hjk)
  have hproduct := val32_fl32_mono (mul_le_mul_of_nonneg_right hindex hstep.le)
  exact val32_fl32_mono (add_le_add_right hproduct (val32 start))

end Sys2Proof.Proofs
end

section
/-! PROOFS. `AXIS.NEW` and `AXIS.NEXT`: completion, faults and the end of the axis (spec 45_frequency_axis R201, R203;
60_exceptions R244). -/

namespace Sys2Proof.Proofs

open Sys2Proof Sys2Proof.Machine Sys2Proof.Config

/-- The count is the integer part of the rounded quotient, 0 where that is not positive, unless the block rejects the
operands (R201). -/
theorem axisCount_eq {start stop step d q : Word} (hd : fl32 (val32 stop - val32 start) = d)
    (hq : fl32 (val32 d / val32 step) = q) :
    axisCount start stop step =
      if val32 step ≤ 0 ∨ isInf32 d = true ∨ isInf32 q = true ∨ 2 ^ 32 ≤ val32 q then none else some ⌊val32 q⌋₊ := by
  have hcount : (if val32 q ≤ 0 then some 0 else some (val32 q).floor.toNat) = some ⌊val32 q⌋₊ := by
    split
    next h => rw [Nat.floor_of_nonpos h]
    next => rfl
  simp only [axisCount, hd, hq, hcount, Bool.or_eq_true, decide_eq_true_eq, ite_or]

/-- The integer part of a value as a word is the word 0 where the value is not positive. -/
theorem ofNat_floor_of_pos (x : ℚ) : (if 0 < x then BitVec.ofNat 32 ⌊x⌋₊ else 0) = BitVec.ofNat 32 ⌊x⌋₊ := by
  split
  next => rfl
  next h => rw [Nat.floor_of_nonpos (not_lt.1 h), BitVec.ofNat_eq_ofNat]

/-- A command that sets registers and answers changes nothing else. -/
theorem setRegs_ok_frame (s : State) (r : Regs) (rd : Word) :
    ((s.setRegs r).ok rd).regs = r ∧ Answered ((s.setRegs r).ok rd) .ok rd ∧
      ((s.setRegs r).ok rd).streams = s.streams ∧ KeepsBuf s ((s.setRegs r).ok rd) ∧
      KeepsPoints s ((s.setRegs r).ok rd) ∧ KeepsOutside s ((s.setRegs r).ok rd) :=
  ⟨rfl, rfl, rfl, fun _ => rfl, ⟨rfl, rfl⟩, rfl, rfl, rfl, rfl⟩

/-- The guard of `AXIS.NEW` on its operands (R201). -/
theorem operandsFinite_iff {a b c : Word} : (isFinite32 a && isFinite32 b && isFinite32 c) = true ↔
    isFinite32 a = true ∧ isFinite32 b = true ∧ isFinite32 c = true := by
  rw [Bool.and_eq_true, Bool.and_eq_true, and_assoc]

section
variable {s : State} (hf : s.faulted = false)
include hf

theorem exec_axisNew_of_operand (hfin : ¬(isFinite32 s.regs.axStart = true ∧ isFinite32 s.regs.axEnd = true ∧
    isFinite32 s.regs.axStep = true)) : exec .axisNew s = s.fail .emptyInput .axisNew := by
  simp only [exec, execAxisNew, accept_of_normal _ hf, Bool.eq_false_iff.2 (mt operandsFinite_iff.1 hfin), Bool.not_false,
    if_true]

section
variable (hfin : isFinite32 s.regs.axStart = true ∧ isFinite32 s.regs.axEnd = true ∧ isFinite32 s.regs.axStep = true)
include hfin

theorem exec_axisNew_of_none (hcount : axisCount s.regs.axStart s.regs.axEnd s.regs.axStep = none) :
    exec .axisNew s = s.fail .cfgAxis .axisNew := by
  simp only [exec, execAxisNew, accept_of_normal _ hf, operandsFinite_iff.2 hfin, hcount, Bool.not_true,
    Bool.false_eq_true, if_false]

theorem exec_axisNew_of_some {count : Nat}
    (hcount : axisCount s.regs.axStart s.regs.axEnd s.regs.axStep = some count) :
    exec .axisNew s = .next ((s.setRegs { s.regs with axCount := BitVec.ofNat 32 count, axPos := 0 }).ok
      (BitVec.ofNat 32 count)) := by
  simp only [exec, execAxisNew, accept_of_normal _ hf, operandsFinite_iff.2 hfin, hcount, Bool.not_true,
    Bool.false_eq_true, if_false]

end

theorem exec_axisNext_of_end (hpos : s.regs.axCount.toNat ≤ s.regs.axPos.toNat) :
    exec .axisNext s = .next s.ended := by
  simp only [exec, execAxisNext, accept_of_normal _ hf, if_pos hpos]

section
variable (hpos : s.regs.axPos.toNat < s.regs.axCount.toNat)
include hpos

theorem exec_axisNext_of_none (hterm : axisTerm s.regs.axStart s.regs.axStep s.regs.axPos.toNat = none) :
    exec .axisNext s = s.fail .cfgAxis .axisNext := by
  simp only [exec, execAxisNext, accept_of_normal _ hf, if_neg (not_le.2 hpos), hterm]

theorem exec_axisNext_of_some {v : Word}
    (hterm : axisTerm s.regs.axStart s.regs.axStep s.regs.axPos.toNat = some v) :
    exec .axisNext s = .next ((s.setRegs { s.regs with axPos := s.regs.axPos + 1 }).ok v) := by
  simp only [exec, execAxisNext, accept_of_normal _ hf, if_neg (not_le.2 hpos), hterm]

end

end

/-- Settles O48: none of the causes of a rejection holds, and an integer part of a value that is not positive is 0. -/
theorem axisNewCompletes : Obligations.AxisNewCompletes := by
  intro s hf hstart hend hstep hpos d q hd hq hlt
  have hcount := axisCount_eq (start := s.regs.axStart) (d := d) (q := q) rfl rfl
  rw [if_neg (by simp only [not_or, not_le, Bool.not_eq_true]; exact ⟨hpos, hd, hq, hlt⟩)] at hcount
  rw [ofNat_floor_of_pos]
  obtain ⟨hregs, hanswer, hframe⟩ := setRegs_ok_frame s _ _
  exact ⟨_, exec_axisNew_of_some hf ⟨hstart, hend, hstep⟩ hcount, ⟨hregs, hanswer⟩, hframe⟩

/-- Settles O49: the operands are checked first, and every other cause is a rejection of the count. -/
theorem axisNewFaults : Obligations.AxisNewFaults := by
  intro s hf finite d q
  refine ⟨fun hfin => raises_of_fail (exec_axisNew_of_operand hf hfin), fun hfin hbad => ?_⟩
  exact raises_of_fail (exec_axisNew_of_none hf hfin ((axisCount_eq rfl rfl).trans (if_pos hbad)))

/-- Settles O50: the position is compared with the count, then the term is made. -/
theorem axisNextCompletes : Obligations.AxisNextCompletes := by
  intro s hf p v
  have hterm := axisTerm_eq (start := s.regs.axStart) (p := p) (v := v) rfl rfl
  refine ⟨exec_axisNext_of_end hf, fun hpos hp hv => ?_, fun hpos hinf => ?_⟩
  · rw [if_neg (by simp [hp, hv])] at hterm
    exact ⟨_, exec_axisNext_of_some hf hpos hterm, setRegs_ok_frame s _ _⟩
  · exact raises_of_fail (exec_axisNext_of_none hf hpos (hterm.trans (if_pos hinf)))

end Sys2Proof.Proofs
end

section
/-! PROOFS. `RESET`, `BUF.WR` and `BUF.RD`: completion and `BUF_RANGE` (spec 46_control R216, R217, R220; 60_exceptions R244;
70_reset_and_hazards R270). -/

namespace Sys2Proof.Proofs

open Sys2Proof Sys2Proof.Machine Sys2Proof.Config

/-! ### The commands -/

/-- `RESET` runs in every state: no acceptance stands before it (R220, R247). -/
theorem exec_reset (s : State) : exec .reset s = .next (s.softReset.ok 0) := rfl

section
variable {s : State} {addr : Addr} (hf : s.faulted = false)
include hf

section
variable (wd : Word)

theorem exec_bufWr_of_lt (haddr : addr.toNat < s.params.bufDepth) :
    exec (.bufWr addr wd) s = .next (({ s with buf := s.buf.write addr.toNat (sat24 (sext32 wd)) } : State).ok 0) := by
  simp only [exec, execBufWr, accept_of_normal _ hf, if_neg (not_le.2 haddr)]

theorem exec_bufWr_of_range (haddr : s.params.bufDepth ≤ addr.toNat) :
    exec (.bufWr addr wd) s = s.fail .bufRange (.bufWr addr wd) := by
  simp only [exec, execBufWr, accept_of_normal _ hf, if_pos haddr, fail_eq]

end

theorem exec_bufRd_of_written {v : Int} (haddr : addr.toNat < s.params.bufDepth)
    (hread : s.buf.read addr.toNat = some v) : exec (.bufRd addr) s = .next (s.ok (to32 v)) := by
  simp only [exec, execBufRd, accept_of_normal _ hf, if_neg (not_le.2 haddr), hread]

theorem exec_bufRd_of_range (haddr : s.params.bufDepth ≤ addr.toNat) :
    exec (.bufRd addr) s = s.fail .bufRange (.bufRd addr) := by
  simp only [exec, execBufRd, accept_of_normal _ hf, if_pos haddr]

end

/-- Settles O9: the soft reset restores each part but the buffer, and the answer is given on top of it. -/
theorem resetCommandRestores : Obligations.ResetCommandRestores := fun s =>
  ⟨_, exec_reset s, Streams.reset_node _, Streams.reset_xeos _, rfl, rfl, fun _ => rfl, rfl,
    (ok_faulted ..).trans (softReset_faulted s), rfl, rfl⟩

/-- Settles O53: below `BUFDEPTH` a read after the write gives the word at its own address and the old one elsewhere. -/
theorem bufWrStores : Obligations.BufWrStores := by
  refine fun addr wd s hf => ⟨fun haddr => ?_, fun haddr => raises_of_fail (exec_bufWr_of_range hf wd haddr)⟩
  exact ⟨_, exec_bufWr_of_lt hf wd haddr, Buffer.read_write_same .., fun _ hne => Buffer.read_write_other _ _ hne, rfl,
    rfl, ⟨rfl, rfl⟩, ⟨rfl, rfl, rfl, rfl⟩, rfl⟩

/-- Settles O54: the address is compared with `BUFDEPTH`, then the word is read. -/
theorem bufRdReads : Obligations.BufRdReads := fun _ _ hf =>
  ⟨fun _ haddr hread => exec_bufRd_of_written hf haddr hread,
    fun haddr => raises_of_fail (exec_bufRd_of_range hf haddr)⟩

end Sys2Proof.Proofs
end

section
/-! PROOFS. The fault state, what leads into it and what leads out of it: the causes of each command's faults, the
refusals, the resets and the idle step (spec 60_exceptions R241 to R248, R260; 70_reset_and_hazards R270, R271). -/

namespace Sys2Proof.Proofs

open Sys2Proof Sys2Proof.Machine

/-! ### The hard reset and the idle step -/

/-- Settles O10: the reset values part by part, and the idle step. -/
theorem hardResetAndIdle : Obligations.HardResetAndIdle :=
  ⟨fun _ _ hport => ⟨_, step_hardReset hport, Streams.reset_node _, Streams.reset_xeos _, rfl, rfl, fun _ => rfl, rfl,
      rfl, rfl⟩,
    fun _ => step_idle⟩

/-! ### In the fault state -/

section
variable {s : State}

/-- In the fault state every command is refused but `RESET` and `REG.RD` of an existing register (R247). -/
theorem exec_of_faulted {i : Instr} (hf : s.faulted = true) (hi : i ≠ .reset) :
    exec i s = .next s.refuse ∨ ∃ regno n, i = .regRd regno ∧ regOf regno = some n := by
  cases i with
  | reset => exact absurd rfl hi
  | regRd regno =>
    cases hreg : regOf regno with
    | some n => exact .inr ⟨regno, n, rfl, hreg⟩
    | none =>
      simp only [exec, execRegRd, hreg]
      exact .inl (accept_of_faulted _ hf)
  | _ => exact .inl (if_pos hf)

/-- A command but `RESET` that ends in a next state in the fault state changed the response only. -/
theorem exec_next_of_faulted {i : Instr} {t : State} (hf : s.faulted = true) (hi : i ≠ .reset)
    (h : exec i s = .next t) : ∃ r, t = { s with resp := r } := by
  obtain hrefused | ⟨regno, n, rfl, hreg⟩ := exec_of_faulted hf hi
  · cases hrefused.symm.trans h
    exact ⟨_, rfl⟩
  · cases (exec_regRd hreg).symm.trans h
    exact ⟨_, rfl⟩

/-- The word of `RESET` resets in every state, whatever data word comes with it. -/
theorem step_resetWord {wd : Word} {rest : List HostInput} (hport : s.port = .command 0x3F000000 wd :: rest) :
    step s = .next (({ s with port := rest } : State).softReset.ok 0) :=
  stepServesTransaction s _ wd rest .reset hport (decode_cwOf (i := .reset) nofun)

end

/-- The command word of `REG.RD` is its opcode with the register number in the lowest byte (R81, R86). -/
theorem cwOf_regRd : ∀ regno : BitVec 8, cwOf (.regRd regno) = 0x21000000 + regno.zeroExtend 32 := by
  decide

/-- Settles O11: a word that does not decode is refused, and one that does is the word of its command. -/
theorem faultStateRefuses : Obligations.FaultStateRefuses := by
  intro s cw wd rest hf hport
  refine ⟨fun hreset hread => ?_, fun regno v hv hcw => ?_, rfl, fun hcw => ?_⟩
  · by_cases hillegal : ∀ i, decode cw wd ≠ .ok i
    · exact (illegalWordFaults s cw wd rest hport hillegal).2 hf
    · obtain ⟨i, hi⟩ := not_forall_not.1 hillegal
      obtain ⟨rfl, -⟩ := decode_eq_ok_iff.1 hi
      rw [stepServesTransaction s _ wd rest i hport hi]
      obtain hrefused | ⟨regno, n, rfl, hreg⟩ :=
        exec_of_faulted (s := { s with port := rest }) hf fun h => hreset (congrArg cwOf h)
      · exact hrefused
      · exact absurd (cwOf_regRd regno) (hread regno (regOf_eq_some_iff.1 hreg ▸ number_le n))
  · obtain rfl := hcw.trans (cwOf_regRd regno).symm
    rw [stepServesTransaction s _ wd rest (.regRd regno) hport (decode_cwOf nofun)]
    exact (regRdReads regno { s with port := rest }).1 v hv
  · subst hcw
    exact ⟨_, step_resetWord hport, Streams.reset_node _, Streams.reset_xeos _, rfl, rfl, fun _ => rfl, rfl,
      (ok_faulted ..).trans (softReset_faulted _)⟩

/-- Settles O12: but for the two resets every input leaves all but the response and the port, and the resets end with
the reset values. -/
theorem faultStateLeftOnlyByReset : Obligations.FaultStateLeftOnlyByReset := by
  refine ⟨fun s t hf h hhard hsoft => ?_, fun s hport => ?_⟩
  · obtain ⟨-, hstep⟩ | ⟨rest, hport, -⟩ | ⟨cw, wd, rest, i, hport, hi, hstep⟩ | ⟨cw, wd, rest, e, -, -, hstep⟩ :=
      step_cases s
    · cases hstep.symm.trans h
      exact ⟨rfl, rfl, rfl, rfl, hf⟩
    · exact absurd hport (hhard rest)
    · obtain ⟨rfl, -⟩ := decode_eq_ok_iff.1 hi
      have hreset : i ≠ .reset := by
        rintro rfl
        exact hsoft wd rest hport
      obtain ⟨r, rfl⟩ := exec_next_of_faulted (s := { s with port := rest }) hf hreset (hstep.symm.trans h)
      exact ⟨rfl, rfl, rfl, rfl, hf⟩
    · rw [if_pos hf] at hstep
      cases hstep.symm.trans h
      exact ⟨rfl, rfl, rfl, rfl, hf⟩
  · obtain ⟨rest, hport⟩ | ⟨wd, rest, hport⟩ := hport
    · exact ⟨_, step_hardReset hport, softReset_faulted { s with port := rest }, rfl, Streams.reset_node _⟩
    · exact ⟨_, step_resetWord hport, softReset_faulted { s with port := rest }, rfl, Streams.reset_node _⟩

/-! ### Into the fault state -/

/-- A host write leaves the fault state as it is: `STATUS` is read-only (R34, R218). -/
theorem hostWrite_faulted (s : State) {n : RegName} (v : Word) (hn : n.writable = true) :
    (s.setRegs (s.regs.hostWrite n v)).faulted = s.faulted :=
  congrArg statusFault (get_hostWrite_readOnly (m := .status) v hn rfl (by decide))

/-- An effect that enters the fault state is a fault: one that leaves the streams alone, or a `QUEUE_OVF`
(R245, R246). -/
theorem effect_of_entered {cw : Word} {s t : State} (hf : s.faulted = false) (ht : t.faulted = true)
    (heff : Effect cw s t) : (∃ e, t = s.raise e cw) ∨ t.regs.status = 0x91 := by
  cases heff with
  | raised e => exact .inl ⟨e, rfl⟩
  | overflowed => exact .inr rfl
  | regWritten n v hn => exact absurd ((hostWrite_faulted s v hn).symm.trans ht) (by simp [hf])
  | _ => exact absurd (hf.symm.trans ht) nofun

/-- Settles O14: of the effects that enter the fault state only `QUEUE_OVF` touches the streams. -/
theorem faultsArePrecise : Obligations.FaultsArePrecise := by
  intro i s t hf h ht hstatus
  obtain heff | ⟨-, rfl⟩ := exec_effect h
  · obtain ⟨e, rfl⟩ := (effect_of_entered hf ht heff).resolve_right hstatus
    exact ⟨e, onlyRaised_raise ..⟩
  · exact absurd ((softReset_faulted s).symm.trans ht) nofun

/-! ### The causes of each command's faults -/

/-- An outcome enters the fault state, if at all, with a fault of one of these causes (R244). -/
inductive RaisesOnly (causes : List Cause) (s : State) : Host.Outcome State Fault Refusal → Prop where
  /-- The fault state is not entered. -/
  | stays (t : State) (h : t.faulted = true → s.faulted = true) : RaisesOnly causes s (.next t)
  /-- A fault is raised, with the streams a pull may have left (R246). -/
  | raised (e : Cause) (cw : Word) (g : Streams) (he : e ∈ causes) :
    RaisesOnly causes s (.next ((s.setStreams g).raise e cw))
  /-- The machine stops. -/
  | stops (r : Fault) : RaisesOnly causes s (.fault r)

section
variable {causes : List Cause} {s : State}

/-- A fault of one of the causes, taken over the streams of before. -/
theorem RaisesOnly.of_fail {e : Cause} (i : Instr) (he : e ∈ causes) : RaisesOnly causes s (s.fail e i) :=
  .raised e _ s.streams he

/-- A refusal enters no fault state, so a command raises what its rule raises when it runs. -/
theorem RaisesOnly.of_accept {run : State → Host.Outcome State Fault Refusal} (h : RaisesOnly causes s (run s)) :
    RaisesOnly causes s (s.accept run) := by
  unfold State.accept
  split
  next => exact .stays _ id
  next => exact h

/-- A fault entered was of one of the causes, as `STATUS` shows (R242). -/
theorem RaisesOnly.status {t : State} (h : RaisesOnly causes s (.next t)) (hf : s.faulted = false)
    (ht : t.faulted = true) : ∃ e ∈ causes, t.regs.status = statusOf e := by
  cases h with
  | stays _ hstays => exact absurd (hf.symm.trans (hstays ht)) nofun
  | raised e cw g he => exact ⟨e, he, rfl⟩

/-- Of a check's two outcomes each raises only these. -/
theorem RaisesOnly.ite {c : Prop} [Decidable c] {yes no : Host.Outcome State Fault Refusal}
    (hyes : RaisesOnly causes s yes) (hno : RaisesOnly causes s no) : RaisesOnly causes s (if c then yes else no) := by
  split
  next => exact hyes
  next => exact hno

theorem raisesOnly_newFilter (mk : FilterNode → Node) (i : Instr) (node : BitVec 4) (src : Sid) (imm : BitVec 8) :
    RaisesOnly [.cfgWidth, .cfgBind] s (newFilter mk i node src imm s) := by
  unfold newFilter
  split
  next => exact .of_fail _ (by decide)
  next => exact .ite (.stays _ id) (.of_fail _ (by decide))

theorem raisesOnly_teeNew (node : BitVec 4) (src : Sid) : RaisesOnly [.cfgBind] s (execTeeNew node src s) :=
  .of_accept (.ite (.stays _ id) (.of_fail _ (by decide)))

theorem raisesOnly_dilNew (node : BitVec 4) (src : Sid) (imm : BitVec 8) :
    RaisesOnly [.cfgChannels, .cfgBind] s (execDilNew node src imm s) := by
  refine .of_accept ?_
  split
  next => exact .of_fail _ (by decide)
  next => exact .ite (.stays _ id) (.of_fail _ (by decide))

theorem raisesOnly_ilvNew (node : BitVec 4) (imm : BitVec 8) :
    RaisesOnly [.cfgChannels, .cfgBind] s (execIlvNew node imm s) := by
  refine .of_accept ?_
  split
  next => exact .of_fail _ (by decide)
  next => exact .ite (.stays _ id) (.of_fail _ (by decide))

theorem raisesOnly_ilvBind (node aux : BitVec 4) (src : Sid) :
    RaisesOnly [.cfgBind] s (execIlvBind node aux src s) := by
  refine .of_accept ?_
  split
  next =>
    split
    next => exact .of_fail _ (by decide)
    next => exact .ite (.stays _ id) (.of_fail _ (by decide))
  all_goals exact .of_fail _ (by decide)

/-- A pull can only overflow a queue; the check before it is of the stream id (R104, R246). -/
theorem raisesOnly_next (sid : Sid) : RaisesOnly [.cfgBind, .queueOvf] s (execNext sid s) := by
  refine .of_accept (.ite ?_ (.of_fail _ (by decide)))
  cases pull s.params.qdepth sid s.streams with
  | answer => exact .stays _ id
  | overflow g => exact .raised _ _ g (by decide)
  | dead => exact .stops _

theorem raisesOnly_spaRun : RaisesOnly [.cfgWindow, .emptyInput, .bufRange] s (execSpaRun s) := by
  refine .of_accept (.ite (.of_fail _ (by decide)) (.ite (.of_fail _ (by decide)) (.ite (.of_fail _ (by decide)) ?_)))
  split
  next => exact .stops _
  next => exact .stays _ id

theorem raisesOnly_spaNext : RaisesOnly [] s (execSpaNext s) := by
  refine .of_accept ?_
  split
  next => exact .stays _ id
  next => exact .stays _ id

theorem raisesOnly_axisNew : RaisesOnly [.emptyInput, .cfgAxis] s (execAxisNew s) := by
  refine .of_accept (.ite (.of_fail _ (by decide)) ?_)
  split
  next => exact .of_fail _ (by decide)
  next => exact .stays _ id

theorem raisesOnly_axisNext : RaisesOnly [.cfgAxis] s (execAxisNext s) := by
  refine .of_accept (.ite (.stays _ id) ?_)
  split
  next => exact .of_fail _ (by decide)
  next => exact .stays _ id

theorem raisesOnly_bufWr (addr : Addr) (wd : Word) : RaisesOnly [.bufRange] s (execBufWr addr wd s) := by
  refine .of_accept ?_
  split
  next => exact .raised _ _ s.streams (by decide)
  next => exact .stays _ id

theorem raisesOnly_bufRd (addr : Addr) : RaisesOnly [.bufRange] s (execBufRd addr s) := by
  refine .of_accept (.ite (.of_fail _ (by decide)) ?_)
  split
  next => exact .stops _
  next => exact .stays _ id

theorem raisesOnly_regWr (regno : BitVec 8) (wd : Word) : RaisesOnly [.illegalCmd] s (execRegWr regno wd s) := by
  refine .of_accept ?_
  split
  next => exact .of_fail _ (by decide)
  next =>
    split
    next hn => exact .stays _ (hostWrite_faulted s wd hn).symm.trans
    next => exact .of_fail _ (by decide)

theorem raisesOnly_regRd (regno : BitVec 8) : RaisesOnly [.illegalCmd] s (execRegRd regno s) := by
  unfold execRegRd
  split
  next => exact .of_accept (.of_fail _ (by decide))
  next => exact .stays _ id

/-- Every command raises only the faults listed for it. -/
theorem exec_raisesOnly (i : Instr) : RaisesOnly (causesOf i) s (exec i s) := by
  cases i with
  | lpfNew => exact .of_accept (raisesOnly_newFilter ..)
  | hpfNew => exact .of_accept (raisesOnly_newFilter ..)
  | teeNew => exact raisesOnly_teeNew ..
  | dilNew => exact raisesOnly_dilNew ..
  | ilvNew => exact raisesOnly_ilvNew ..
  | ilvBind => exact raisesOnly_ilvBind ..
  | next => exact raisesOnly_next _
  | spaRun => exact raisesOnly_spaRun
  | spaNext => exact raisesOnly_spaNext
  | axisNew => exact raisesOnly_axisNew
  | axisNext => exact raisesOnly_axisNext
  | bufWr => exact raisesOnly_bufWr ..
  | bufRd => exact raisesOnly_bufRd _
  | regWr => exact raisesOnly_regWr ..
  | regRd => exact raisesOnly_regRd _
  | reset => exact .stays _ fun ht => absurd ((softReset_faulted s).symm.trans ht) nofun

end

/-- Settles O15: the table of codes, and the causes of each command. -/
theorem faultCausesPerCommand : Obligations.FaultCausesPerCommand := by
  refine ⟨rfl, fun i s t hf h ht => ?_⟩
  have hraises : RaisesOnly (causesOf i) s (.next t) := h ▸ exec_raisesOnly i
  obtain ⟨e, he, hstatus⟩ := hraises.status hf ht
  exact ⟨e, he, hstatus.trans (statusOf_eq e)⟩

end Sys2Proof.Proofs
end

section
/-! PROOFS. Buffer words that nothing has written: the stops of `BUF.RD` and of `SPA.RUN` (spec 70_reset_and_hazards
R276). -/

namespace Sys2Proof.Proofs

open Sys2Proof Sys2Proof.Machine

/-! ### The analysis of an unwritten word -/

/-- A read of a range stops at its first word when nothing has written that word. -/
theorem readRange_of_none {b : Buffer} {lo len : Nat} (hlen : 0 < len) (hread : b.read lo = none) :
    readRange b lo len = .error lo := by
  cases len with
  | zero => cases hlen
  | succ len => rw [readRange, hread]

section
variable {b : Buffer} {width rate : Nat} (times : List Nat)

/-- The window of time index 0 is empty and is skipped (R172). -/
theorem analyse_zero_cons : analyse b width rate (0 :: times) = analyse b width rate times := by
  simp only [analyse, Nat.zero_sub, if_pos]

/-- The analysis stops at the first word of a window that is not empty when nothing has written that word. -/
theorem analyse_cons_of_none {i : Nat} (hi : 0 < i) (hwidth : 0 < width) (hread : b.read (i - width) = none) :
    analyse b width rate (i :: times) = .error (i - width) := by
  have hlen : 0 < i - (i - width) := by omega
  simp only [analyse, if_neg (Nat.ne_of_gt hlen), readRange_of_none hlen hread]

end

/-- With more than `W/2` words analyzed, the time indices begin with 0 and `W/2` (R172). -/
theorem timeIndices_eq_cons_cons {n half : Nat} (hhalf : 0 < half) (hn : half < n) :
    ∃ times, timeIndices n (2 * half) = 0 :: half :: times := by
  have hdiv : 2 * half / 2 = half := by omega
  have htwo : 2 ≤ (n + half - 1) / half := (Nat.le_div_iff_mul_le hhalf).2 (by omega)
  obtain ⟨m, hm⟩ := Nat.exists_eq_add_of_le' htwo
  simp [timeIndices, hdiv, hm, List.range_succ_eq_map]

/-! ### The commands -/

section
variable {s : State} (hf : s.faulted = false)
include hf

theorem exec_bufRd_of_unwritten {addr : Addr} (haddr : addr.toNat < s.params.bufDepth)
    (hread : s.buf.read addr.toNat = none) : exec (.bufRd addr) s = .fault (.unwrittenBufWord addr.toNat) := by
  simp only [exec, execBufRd, accept_of_normal _ hf, if_neg (not_le.2 haddr), hread]

/-- A legal run stops at the word where its analysis stops. -/
theorem exec_spaRun_of_analyse_error {a : Nat} (hlegal : LegalRun s)
    (herror : analyse s.buf s.regs.spaW.toNat s.regs.spaR.toNat (timeIndices s.regs.spaN.toNat s.regs.spaW.toNat) =
      .error a) : exec .spaRun s = .fault (.unwrittenBufWord a) := by
  obtain ⟨⟨k, hk, -, hw⟩, hn, hfit⟩ := hlegal
  have hsize : windowSizeOk s.regs.spaW.toNat = true := windowSizeOk_iff.2 ⟨k, hk, hw⟩
  simp only [exec, execSpaRun, accept_of_normal _ hf, hsize, Bool.not_true, Bool.false_eq_true, if_false,
    if_neg (Nat.ne_of_gt hn), if_neg (not_lt.2 hfit), herror]

end

/-- In a legal run that has one, the first window that is not empty is that of time index `W/2` and begins at word 0, so
without that word the analysis stops there. -/
theorem analyse_run_of_unwritten {s : State} (hlegal : LegalRun s) (hn : s.regs.spaW.toNat / 2 < s.regs.spaN.toNat)
    (hread : s.buf.read 0 = none) :
    analyse s.buf s.regs.spaW.toNat s.regs.spaR.toNat (timeIndices s.regs.spaN.toNat s.regs.spaW.toNat) = .error 0 := by
  obtain ⟨e, hw⟩ := spaW_of_legal hlegal
  have hhalf : 0 < 2 ^ e := Nat.two_pow_pos e
  have hstart : 2 ^ e - 2 * 2 ^ e = 0 := by omega
  obtain ⟨times, htimes⟩ := timeIndices_eq_cons_cons hhalf (n := s.regs.spaN.toNat) (by omega)
  rw [hw, htimes, analyse_zero_cons, analyse_cons_of_none _ hhalf (by omega) (hstart ▸ hread), hstart]

/-- Settles O42: the read after the depth check, and the first window of the run. -/
theorem unwrittenWordStops : Obligations.UnwrittenWordStops :=
  ⟨fun _ _ hf haddr hread => exec_bufRd_of_unwritten hf haddr hread,
    fun _ hf hlegal hn hread => exec_spaRun_of_analyse_error hf hlegal (analyse_run_of_unwritten hlegal hn hread)⟩

end Sys2Proof.Proofs
end
